-- ==== Sys2Proof/Word.lean ====
section
/-! DEFINITION. The word types of XCB: a byte, the 16-bit and 64-bit registers, and a byte string. -/

namespace Sys2Proof

/-- A byte is 8 bits in every byte space of the block (R14, R32). -/
abbrev Byte := BitVec 8

/-- The width of `ID`, `KIND`, `COORD`, `PREC` and `SZ` (R20). -/
abbrev Half := BitVec 16

/-- The width of `V`, a binary64 bit pattern (R20, R31). -/
abbrev Double := BitVec 64

/-- A byte sequence; index 0 is its first byte (R15). -/
abbrev Bytes := List Byte

end Sys2Proof
end

