-- ==== Sys2Proof/Config.lean ====
section
/-! DEFINITION. What an implementation fixes: the document's constants (R11) and the four open parameters (R12).

The parameters are one opaque constant. Its type says what R12 requires of them and nothing in Lean can learn
more, so a statement about the machine holds for every legal choice. They are configuration and not state (R241). -/

namespace Sys2Proof

/-- A size class of the DataSize lookup (R135). -/
inductive SizeClass where
  /-- `m` values of the precision's width. -/
  | mult (m : Nat)
  /-- `n` bytes whatever the precision. -/
  | fixed (n : Nat)
  deriving DecidableEq, Repr

/-- `KINDTAB`: a finite map from an in-place measurement kind to a size class (R136), as rows; the first row of a
key is the one that counts. -/
abbrev KindTable := List (Half × SizeClass)

namespace Config

/-- `PREAMBLE` (R11). -/
abbrev preamble : Byte := 0xFA
/-- `BID`, the constant "broadcast" bus address (R11). -/
abbrev busAddress : Byte := 0xFF
/-- `EXTSENT`, the length byte that announces an extended length (R11). -/
abbrev extSentinel : Byte := 0xFF
/-- `EXTMIN` (R11). -/
abbrev extMin : Nat := 255
/-- `EXTMAX` (R11). -/
abbrev extMax : Nat := 2048
/-- `MINFRAME` (R11). -/
abbrev minFrame : Nat := 5
/-- `MAXSTD` (R11). -/
abbrev maxStandard : Nat := 254
/-- `KINDMASK` (R11, R75). -/
abbrev kindMask : Half := 0xF8F0
/-- `COORDMASK` (R11, R75). -/
abbrev coordMask : Half := 0x000C
/-- `PRECMASK` (R11, R75). -/
abbrev precMask : Half := 0x0003
/-- The least `RXCAP` and `FRMCAP`: the longest candidate frame, `6 + 65535 + 1` bytes (R12, R246). -/
abbrev minCapacity : Nat := 65542

/-- Is a size class within the bounds that make every size fit the 16 bits of `SZ` (R12, R136)? -/
def classLegal : SizeClass → Bool
  | .mult m => 1 ≤ m && m ≤ 8191
  | .fixed n => 1 ≤ n && n ≤ 65535

/-- R12's constraints on `KINDTAB`: every key inside `0xF8F0`, every class in bounds, `0x2010` mapped to `Mult 4`. -/
def tableLegal (t : KindTable) : Bool :=
  t.all (fun row => row.1 &&& ~~~kindMask == 0 && classLegal row.2) && t.lookup 0x2010 == some (.mult 4)

/-- The parameters the document leaves open, with R12's constraints. The values after `:=` are R12's defaults (for
`midMtData2`, which has no default, the value R12 suggests); they only show that a legal choice exists, and no
proof about `params` can use them. -/
structure Params where
  /-- `RXCAP`, capacity of the receive buffer in bytes. -/
  rxCap : Nat := 65542
  rxCap_ge : minCapacity ≤ rxCap := by decide
  /-- `FRMCAP`, capacity of the frame buffer in bytes. -/
  frmCap : Nat := 65542
  frmCap_ge : minCapacity ≤ frmCap := by decide
  /-- `KINDTAB`, the DataSize table. -/
  kindTab : KindTable := [(0x2010, .mult 4)]
  kindTab_legal : tableLegal kindTab = true := by decide
  /-- `MID_MTDATA2`, the identifier of an MTData2 frame. OPEN in the spec (R12, R186). -/
  midMtData2 : Byte := 0x36
  deriving Inhabited

/-- The parameters of this block: any legal choice, unknown to every proof (DESIGN CHOICE, safe; log entry 4). -/
opaque params : Params

/-- `RXCAP` (R12). -/
def rxCap : Nat := params.rxCap
/-- `FRMCAP` (R12). -/
def frmCap : Nat := params.frmCap
/-- `KINDTAB` (R12, R136). -/
def kindTab : KindTable := params.kindTab
/-- `MID_MTDATA2` (R12). -/
def midMtData2 : Byte := params.midMtData2

end Config
end Sys2Proof
end

