-- ==== Sys2Proof/Machine/Bytes.lean ====
section
/-! DEFINITION. The notation of R14 and R15 as functions: bit slices, big-endian values, two's complement. -/

namespace Sys2Proof

/-- `v[hi:lo]`: the bits from `hi` down to `lo` as an unsigned number (R14). -/
def bits (v hi lo : Nat) : Nat := v / 2 ^ lo % 2 ^ (hi + 1 - lo)

/-- `be(B)`: the unsigned big-endian value of a byte sequence (R15, R50). -/
def be : Bytes → Nat
  | [] => 0
  | b :: rest => b.toNat * 256 ^ rest.length + be rest

/-- `bytes_be(n, v)`: the `n` low bytes of `v`, most significant first (R15, R50). -/
def bytesBe : Nat → Nat → Bytes
  | 0, _ => []
  | n + 1, v => BitVec.ofNat 8 (v / 256 ^ n) :: bytesBe n v

/-- The `n` low bytes of `v`, least significant first: how `spec/opcode_table.json` numbers a command's bits. -/
def bytesLe : Nat → Nat → Bytes
  | 0, _ => []
  | n + 1, v => BitVec.ofNat 8 v :: bytesLe n (v / 256)

/-- `sint_N(u)`: an `N`-bit unsigned number read as two's complement (R15). -/
def sint (n u : Nat) : Int := if u < 2 ^ (n - 1) then (u : Int) else (u : Int) - 2 ^ n

/-- `uint_N(s)`: the `N`-bit unsigned number of a signed one, `s mod 2^N` (R15). -/
def uint (n : Nat) (s : Int) : Nat := (s % 2 ^ n).toNat

/-- The sum of a byte sequence as a natural number (R73). -/
def sumBytes : Bytes → Nat
  | [] => 0
  | b :: rest => b.toNat + sumBytes rest

/-- Byte `i` of a sequence. Every caller checks `i < len(B)` first (R16, R57), so the 0 outside is never used. -/
def byteAt (bs : Bytes) (i : Nat) : Byte := bs[i]?.getD 0

/-- The big-endian 16-bit field at offset `i`: `B[i] * 256 + B[i+1]` (R50). -/
def wordAt (bs : Bytes) (i : Nat) : Nat := (byteAt bs i).toNat * 256 + (byteAt bs (i + 1)).toNat

/-- The first `n` bytes and the rest, if there are `n`. -/
def splitExact : Nat → Bytes → Option (Bytes × Bytes)
  | 0, bs => some ([], bs)
  | _ + 1, [] => none
  | n + 1, b :: bs =>
    match splitExact n bs with
    | some (taken, rest) => some (b :: taken, rest)
    | none => none

end Sys2Proof
end

