-- ==== Sys2Proof/Machine/State.lean ====
section
/-! DEFINITION. The state of XCB (R20), the two reasons a step can stop, and the state after reset (R37). -/

namespace Sys2Proof.Machine

/-- The whole state: one field per row of R20 (`FLEN` is `len(FRM)`, `State.flen`), and the host's commands.
Configuration is not state (R241). -/
structure State where
  /-- `W`, the wire operand; `w[0]` is the first byte on the wire. -/
  w : Vector Byte 8
  /-- `WN`, how many bytes of `W` are meaningful. -/
  wn : BitVec 4
  /-- `V`, a binary64 bit pattern. -/
  v : Double
  /-- `ID`, a packed DataIdentifier. -/
  id : Half
  /-- `KIND`, the measurement kind, in place under `0xF8F0` (R23). -/
  kind : Half
  /-- `COORD`, the coordinate system, in place under `0x000C` (R23). -/
  coord : Half
  /-- `PREC`, the precision (R23). -/
  prec : Half
  /-- `SZ`, the result of the DataSize lookup. -/
  sz : Half
  /-- `MID`, identifier of the last validated frame. -/
  mid : Byte
  /-- `POFF`, offset in FRM of the first payload byte of that frame. -/
  poff : BitVec 3
  /-- `PLEN`, payload length of that frame. -/
  plen : BitVec 12
  /-- `CUR`, the sub-packet cursor (R25). -/
  cur : BitVec 12
  /-- `SPLEN`, data length of the last sub-packet. -/
  splen : Byte
  /-- `SPOFF`, offset in FRM of its first data byte. -/
  spoff : BitVec 12
  /-- `FRM`, the frame buffer; its length is `FLEN`. -/
  frm : Bytes
  /-- `RXB`, the receive queue; its head is the oldest byte. -/
  rxb : Bytes
  /-- `SR`: `CODE` in 7:0, `FV` in 8, 15:9 zero (R26). -/
  sr : BitVec 16
  /-- `EINFO`, the diagnostic of the last `E_DECODE` (R30). -/
  einfo : BitVec 32
  /-- THE MODEL'S OWN FIELD, no storage of the block: the byte strings the host will present, in the order in which
  it presents them (the host agent of R10; DESIGN CHOICE, log entry 1). -/
  host : List Bytes
  deriving DecidableEq, Repr

/-- Why the machine stops. The block's own faults are not here: they are status codes, and the machine goes on
(R217). -/
inductive Fault where
  /-- Raised by SPNEXT alone, when it would read FRM at or past `FLEN`, which R16 leaves undefined. SAFE: R57 and
  R184 say it never happens, and in no state that keeps R36 does it (log entry 5). -/
  | frameReadPastEnd
  deriving DecidableEq, Repr

/-- Why a command has no meaning. -/
inductive Refusal where
  /-- Raised by `exec` for a command that has no meaning yet, by its mnemonic. SAFE. No arm raises it. -/
  | notModelled (mnemonic : String)
  deriving DecidableEq, Repr

/-- The machine right after reset (R20, R37, R240): every register zero, `W` zero, both buffers empty. The host has
nothing listed to present (DESIGN CHOICE, log entry 3). -/
def State.reset : State where
  w := #v[0, 0, 0, 0, 0, 0, 0, 0]
  wn := 0
  v := 0
  id := 0
  kind := 0
  coord := 0
  prec := 0
  sz := 0
  mid := 0
  poff := 0
  plen := 0
  cur := 0
  splen := 0
  spoff := 0
  frm := []
  rxb := []
  sr := 0
  einfo := 0
  host := []

/-- What a meaning answers. -/
abbrev Result := Host.Outcome State Fault Refusal

end Sys2Proof.Machine
end

