-- ==== Sys2Proof/Machine/Flags.lean ====
section
/-! DEFINITION. The status codes (R211) and the fields of the status register (R26 to R29). There are no arithmetic
flags (R29). -/

namespace Sys2Proof.Machine

/-- The status codes (R211): five outcomes, then twelve faults. -/
inductive Status where
  /-- `OK`: the command completed. -/
  | ok
  /-- `NEEDMORE`: no complete token, more bytes may come. -/
  | needMore
  /-- `ENDOFSTREAM`: no complete token, no more bytes will come. -/
  | endOfStream
  /-- `NOMORE`: the cursor is at the payload end. -/
  | noMore
  /-- `NOMORE_MALFORMED`: the payload ends inside a sub-packet. -/
  | noMoreMalformed
  /-- `E_SHORT`: too few bytes for a frame. -/
  | eShort
  /-- `E_PREAMBLE`: byte 0 is not the preamble. -/
  | ePreamble
  /-- `E_BUSADDR`: byte 1 is not the bus address. -/
  | eBusAddr
  /-- `E_EXTLEN`: the extended length is out of bounds. -/
  | eExtLen
  /-- `E_LENGTH`: more bytes than the length field says. -/
  | eLength
  /-- `E_CHECKSUM`: the checksum invariant fails. -/
  | eChecksum
  /-- `E_DECODE`: `WN` is not the width of the precision. -/
  | eDecode
  /-- `E_OPERAND`: an operand outside what the command accepts. -/
  | eOperand
  /-- `E_RANGE`: a value that a fixed-point format cannot hold. -/
  | eRange
  /-- `E_STATE`: no validated measurement frame to walk. -/
  | eState
  /-- `E_ILLEGAL`: an unknown opcode or a truncated command. -/
  | eIllegal
  /-- `E_FULL`: RXB cannot take the bytes. -/
  | eFull
  deriving DecidableEq, Repr

/-- The 8-bit code of a status (R211). -/
def Status.byte : Status → Byte
  | .ok => 0x00
  | .needMore => 0x01
  | .endOfStream => 0x02
  | .noMore => 0x03
  | .noMoreMalformed => 0x04
  | .eShort => 0x10
  | .ePreamble => 0x11
  | .eBusAddr => 0x12
  | .eExtLen => 0x13
  | .eLength => 0x14
  | .eChecksum => 0x15
  | .eDecode => 0x20
  | .eOperand => 0x30
  | .eRange => 0x31
  | .eState => 0x32
  | .eIllegal => 0x33
  | .eFull => 0x34

/-- A code of `0x10` or above is a fault, a code below is an outcome (R210). -/
def codeIsFault (c : Byte) : Bool := 0x10 ≤ c.toNat

/-- `SR.CODE`, bits 7:0 (R26). -/
def State.code (s : State) : Byte := s.sr.extractLsb' 0 8

/-- `SR.FV`, bit 8 (R26, R28). -/
def State.fv (s : State) : Bool := s.sr.getLsbD 8

/-- `SR[15:9]`, which read as zero (R26). -/
def State.srReserved (s : State) : BitVec 7 := s.sr.extractLsb' 9 7

/-- `SR` from its three fields (R26). -/
def srOf (reserved : BitVec 7) (fv : Bool) (code : Byte) : BitVec 16 :=
  (reserved ++ BitVec.ofBool fv ++ code : BitVec (7 + 1 + 8))

/-- Writes `SR.CODE` and no other bit (R26, R27). -/
def State.withCode (c : Status) (s : State) : State := { s with sr := srOf s.srReserved s.fv c.byte }

/-- Writes `SR.FV` and no other bit (R26, R28). -/
def State.withFv (b : Bool) (s : State) : State := { s with sr := srOf s.srReserved b s.code }

end Sys2Proof.Machine
end

