-- ==== Sys2Proof/Machine/Operands.lean ====
section
/-! DEFINITION. The operand forms (R202): the wire operand, the precision operand, the frame buffer's bytes. -/

namespace Sys2Proof.Machine

/-- The four numeric wire encodings (R77, R101). -/
inductive Precision where
  /-- Float32. -/
  | float32
  /-- FixedPoint12_20. -/
  | fp1220
  /-- FixedPoint16_32. -/
  | fp1632
  /-- Float64. -/
  | float64
  deriving DecidableEq, Repr

/-- The precision code (R77, R101). -/
def Precision.code : Precision → BitVec 2
  | .float32 => 0
  | .fp1220 => 1
  | .fp1632 => 2
  | .float64 => 3

/-- `WIDTH[p]` (R11, R101). -/
def Precision.width : Precision → Nat
  | .float32 => 4
  | .fp1220 => 4
  | .fp1632 => 6
  | .float64 => 8

/-- The precision a 16-bit `PREC` selects; only 0..3 are precisions (R112, R118, R137). -/
def precisionOf (prec : Half) : Option Precision :=
  match prec.toNat with
  | 0 => some .float32
  | 1 => some .fp1220
  | 2 => some .fp1632
  | 3 => some .float64
  | _ => none

/-- `FLEN`, which is `len(FRM)` (R20). -/
def State.flen (s : State) : Nat := s.frm.length

/-- `W[0..n)` (R100). -/
def State.wire (s : State) (n : Nat) : Bytes := s.w.toList.take n

/-- Eight bytes of `W` from at most eight: zero beyond the count (R191, R193, D27). -/
def wireOf (data : Bytes) : Vector Byte 8 :=
  #v[byteAt data 0, byteAt data 1, byteAt data 2, byteAt data 3, byteAt data 4, byteAt data 5, byteAt data 6, byteAt data 7]

/-- Every write of the wire operand: all eight bytes of `W` and `WN` (R191, R193, R113 to R117). -/
def State.loadWire (data : Bytes) (s : State) : State :=
  { s with w := wireOf data, wn := BitVec.ofNat 4 data.length }

/-- `FRM[off..off+n)`; every caller checks `off + n <= FLEN` first (R16, R57). -/
def State.frameSlice (s : State) (off n : Nat) : Bytes := (s.frm.drop off).take n

end Sys2Proof.Machine
end

