-- ==== Sys2Proof/Machine/Ops.lean ====
section
/-! DEFINITION. How a command ends (R16, R210, R217), and the named writes of registers and buffers. -/

namespace Sys2Proof.Machine

/-! ### Ending a command; taking a fault -/

/-- `done CODE`: the command ends with this status and keeps the writes made (R16, R210). -/
def done (c : Status) (s : State) : Result := .next (s.withCode c)

/-- TAKING A FAULT (R217, R222): the code goes to `SR.CODE` and nothing else changes. There is no handler, saved
state or mode, and nothing the fault is delegated to: leaving the code for the host is the whole of it (R224). The
block goes on with the next command. There is no return from a fault either (R218): the host's
next command overwrites the code. -/
def takeFault (c : Status) (s : State) : State := s.withCode c

/-- `EINFO`: `{0[9:0], WN[3:0], p[1:0], ID[15:0]}` (R30, R102, R220). -/
def einfoOf (p : Precision) (wn : BitVec 4) (id : Half) : BitVec 32 := 0#10 ++ wn ++ p.code ++ id

/-- Taking `E_DECODE` (R102, R217, R220): `EINFO` records the identifier, the precision and the byte count. -/
def takeDecodeFault (p : Precision) (s : State) : State :=
  takeFault .eDecode { s with einfo := einfoOf p s.wn s.id }

/-- `fail CODE`: the command ends with a fault and writes nothing but `SR.CODE` (R16, R222). -/
def fail (c : Status) (s : State) : Result := .next (takeFault c s)

/-- `fail E_DECODE` (R16, R102). -/
def failDecode (p : Precision) (s : State) : Result := .next (takeDecodeFault p s)

/-! ### Buffers -/

/-- FRM is only ever replaced whole, and every replacement clears `FV` (R28, R33, R150). -/
def State.replaceFrame (f : Bytes) (s : State) : State := { s with frm := f }.withFv false

/-- The registers a successful VALIDATE writes (R158). -/
def State.acceptFrame (mid : Byte) (hdr plen : Nat) (s : State) : State :=
  { s with mid := mid, poff := BitVec.ofNat 3 hdr, plen := BitVec.ofNat 12 plen, cur := 0 }.withFv true

/-- The registers an `OK` SPNEXT writes (R181): the identifier, the length and offset of the data, and the cursor
past it. -/
def State.advanceWalk (id : Half) (len : Byte) (s : State) : State :=
  { s with
    id := id
    splen := len
    spoff := BitVec.ofNat 12 (s.poff.toNat + s.cur.toNat + 3)
    cur := BitVec.ofNat 12 (s.cur.toNat + 3 + len.toNat) }

/-- The two buffers are within their capacities (R36). A buffer is a byte list of its own length, so equal buffers
are equal lists and there is no other form to keep (log entry 6). -/
def Memory.wf (s : State) : Bool := s.frm.length ≤ Config.frmCap && s.rxb.length ≤ Config.rxCap

/-- Do `n` bytes fit RXB, that is `n <= RXCAP` (R151)? The first test is implied by R12's `RXCAP >= 65542`; it lets
the answer be computed where no choice of `RXCAP` matters. -/
def fitsReceive (n : Nat) : Bool := n ≤ Config.minCapacity || n ≤ Config.rxCap

end Sys2Proof.Machine
end

