-- ==== Sys2Proof/Machine/Frame.lean ====
section
/-! DEFINITION. The five commands of the frame layer (R150 to R168) and the frame format they share (R70 to R74). -/

namespace Sys2Proof.Machine

/-! ### Receiving -/

/-- PUSH (R151): all of the bytes, or `E_FULL` and none. -/
def execPush (data : Bytes) (s : State) : Result :=
  if fitsReceive (s.rxb.length + data.length) then done .ok { s with rxb := s.rxb ++ data }
  else fail .eFull s

/-- The bytes from the first marker `FA FF` on, if there is one (R152, R153). -/
def fromMarker : Bytes → Option Bytes
  | [] => none
  | a :: rest =>
    if a = Config.preamble ∧ rest.head? = some Config.busAddress then some (a :: rest)
    else fromMarker rest

/-- What is kept of a buffer with no marker: a last byte that could be half of one (R152). -/
def halfMarker (b : Bytes) : Bytes :=
  if b.getLast? = some Config.preamble then [Config.preamble] else []

/-- The first `total` bytes as a token, if there are so many. -/
def cutAt (b : Bytes) (total : Nat) : Option (Bytes × Bytes) :=
  if b.length < total then none else some (b.take total, b.drop total)

/-- The token and the bytes after it, of a buffer that begins with a marker (R72, R152, R155). Nothing but the
length is looked at (R154). -/
def cutToken (b : Bytes) : Option (Bytes × Bytes) :=
  if b.length < 4 then none
  else if byteAt b 3 ≠ Config.extSentinel then cutAt b (4 + (byteAt b 3).toNat + 1)
  else if b.length < 6 then none
  else cutAt b (6 + wordAt b 4 + 1)

/-- The outcome when no token is complete (R152, R157). -/
def moreStatus (f : Byte) : Status := if f = 0 then .needMore else .endOfStream

/-- SPLIT (R152). A token leaves the bytes after it as they are, garbage or not, as R152's code and example do, against
R34, R153 and R156 (a) (DEDUCED, log entry 10). -/
def execSplit (f : Byte) (s : State) : Result :=
  if 1 < f.toNat then fail .eOperand s
  else
    match fromMarker s.rxb with
    | none => done (moreStatus f) { s with rxb := halfMarker s.rxb }
    | some b =>
      match cutToken b with
      | none => done (moreStatus f) { s with rxb := b }
      | some (token, rest) => done .ok ({ s with rxb := rest }.replaceFrame token)

/-! ### Checking -/

/-- The checks after the header (R158): enough bytes, not too many, the checksum over all but the preamble (R73). -/
def checkBody (f : Bytes) (hdr plen : Nat) : Except Status (Nat × Nat) :=
  if f.length < hdr + plen + 1 then .error .eShort
  else if hdr + plen + 1 < f.length then .error .eLength
  else if sumBytes (f.drop 1) % 256 ≠ 0 then .error .eChecksum
  else .ok (hdr, plen)

/-- The checks of VALIDATE in their order (R158 to R160): the first that fails, or the header size and the payload
length. -/
def checkFrame (f : Bytes) : Except Status (Nat × Nat) :=
  if f.length < Config.minFrame then .error .eShort
  else if byteAt f 0 ≠ Config.preamble then .error .ePreamble
  else if byteAt f 1 ≠ Config.busAddress then .error .eBusAddr
  else if byteAt f 3 = Config.extSentinel then
    if f.length < 7 then .error .eShort
    else if wordAt f 4 < Config.extMin ∨ Config.extMax < wordAt f 4 then .error .eExtLen
    else checkBody f 6 (wordAt f 4)
  else checkBody f 4 (byteAt f 3).toNat

/-- VALIDATE (R158). -/
def execValidate (s : State) : Result :=
  match checkFrame s.frm with
  | .error c => fail c s
  | .ok (hdr, plen) => done .ok (s.acceptFrame (byteAt s.frm 2) hdr plen)

/-! ### Building -/

/-- The checksum byte of the frame bytes before it: `(0x100 - sum mod 256) mod 256`, preamble left out (R73). -/
def checksumOf (h : Bytes) : Byte := BitVec.ofNat 8 ((0x100 - sumBytes (h.drop 1) % 256) % 256)

/-- The header and payload of a standard frame (R70, R164). -/
def standardBody (mid : Byte) (payload : Bytes) : Bytes :=
  [Config.preamble, Config.busAddress, mid, BitVec.ofNat 8 payload.length] ++ payload

/-- A standard frame with its checksum (R70, R164). -/
def standardFrame (mid : Byte) (payload : Bytes) : Bytes :=
  standardBody mid payload ++ [checksumOf (standardBody mid payload)]

/-- CONSTRUCT (R164): a standard frame, or `E_OPERAND` for more than 254 payload bytes. -/
def execConstruct (mid : Byte) (payload : Bytes) (s : State) : Result :=
  if Config.maxStandard < payload.length then fail .eOperand s
  else done .ok (s.replaceFrame (standardFrame mid payload))

/-- LDF (R167). -/
def execLdf (data : Bytes) (s : State) : Result := done .ok (s.replaceFrame data)

end Sys2Proof.Machine
end

