-- ==== Sys2Proof/Machine/Ident.lean ====
section
/-! DEFINITION. The three commands of the data-identifier codec (R130 to R138). -/

namespace Sys2Proof.Machine

/-- DIDDEC (R131): the three subfields, in place; bits 10:8 go nowhere. -/
def execDiddec (s : State) : Result :=
  done .ok { s with
    kind := s.id &&& Config.kindMask
    coord := s.id &&& Config.coordMask
    prec := s.id &&& Config.precMask }

/-- Does each subfield register lie inside its own mask (R133)? -/
def subfieldsInRange (kind coord prec : Half) : Bool :=
  kind &&& ~~~Config.kindMask == 0 && coord &&& ~~~Config.coordMask == 0 && prec &&& ~~~Config.precMask == 0

/-- DIDENC (R133): the OR of the three subfields, `E_OPERAND` if one is outside its mask. -/
def execDidenc (s : State) : Result :=
  if subfieldsInRange s.kind s.coord s.prec then done .ok { s with id := s.kind ||| s.coord ||| s.prec }
  else fail .eOperand s

/-- The DataSize lookup (R135, R137); an unknown kind sizes as 0. -/
def dataSize (tab : KindTable) (kind : Half) (p : Precision) : Nat :=
  match tab.lookup kind with
  | none => 0
  | some (.mult m) => m * p.width
  | some (.fixed n) => n

/-- DSIZE (R137). -/
def execDsize (s : State) : Result :=
  match precisionOf s.prec with
  | none => fail .eOperand s
  | some p => done .ok { s with sz := BitVec.ofNat 16 (dataSize Config.kindTab s.kind p) }

end Sys2Proof.Machine
end

