-- ==== Sys2Proof/Machine/Loads.lean ====
section
/-! DEFINITION. The five load commands (R190 to R195). -/

namespace Sys2Proof.Machine

/-- LDW (R191). -/
def execLdw (data : Bytes) (s : State) : Result :=
  if 8 < data.length then fail .eOperand s else done .ok (s.loadWire data)

/-- LDV (R192). -/
def execLdv (v : Double) (s : State) : Result := done .ok { s with v := v }

/-- LDWF (R193): `off + n` is a natural number and does not wrap; `FV` is not looked at. R193's code, which checks
`off + n <= FLEN` and no more, is followed (as R53, R57 and R202 have it too) where R193's prose and R250 say that offsets
above 65535 are out of reach: `LDWF 0xFFFF, 7` reads the bytes 65535 to 65541 of a 65542-byte token (DEDUCED, log
entry 13). -/
def execLdwf (off : Half) (n : Byte) (s : State) : Result :=
  if 8 < n.toNat then fail .eOperand s
  else if s.flen < off.toNat + n.toNat then fail .eOperand s
  else done .ok (s.loadWire (s.frameSlice off.toNat n.toNat))

/-- LDID (R194). -/
def execLdid (id : Half) (s : State) : Result := done .ok { s with id := id }

/-- LDSUB (R195): nothing is checked here. -/
def execLdsub (k c p : Half) (s : State) : Result := done .ok { s with kind := k, coord := c, prec := p }

end Sys2Proof.Machine
end

