-- ==== Sys2Proof/Machine/Float.lean ====
section
/-! DEFINITION. The four numeric formats: IEEE-754 patterns (R17, R79), widening and narrowing (R106, R114), the
fixed-point formats (R80, R81, R108) and their rounding (R119). All arithmetic is exact on integers. -/

namespace Sys2Proof.Machine

/-! ### Fields of the two IEEE-754 formats (R17) -/

/-- Sign bit of a binary32 pattern. -/
def sign32 (b : BitVec 32) : Bool := b.msb
/-- Exponent field of a binary32 pattern, `b[30:23]`. -/
def exp32 (b : BitVec 32) : Nat := bits b.toNat 30 23
/-- Fraction field of a binary32 pattern, `b[22:0]`. -/
def frac32 (b : BitVec 32) : Nat := bits b.toNat 22 0
/-- Sign bit of a binary64 pattern. -/
def sign64 (v : Double) : Bool := v.msb
/-- Exponent field of a binary64 pattern, `v[62:52]`. -/
def exp64 (v : Double) : Nat := bits v.toNat 62 52
/-- Fraction field of a binary64 pattern, `v[51:0]`. -/
def frac64 (v : Double) : Nat := bits v.toNat 51 0

/-- `{s, E, F}` of 1, 8 and 23 bits (R114). -/
def pack32 (s : Bool) (e f : Nat) : BitVec 32 :=
  BitVec.ofNat 32 (s.toNat * 2 ^ 31 + e % 2 ^ 8 * 2 ^ 23 + f % 2 ^ 23)

/-- `{s, E, F}` of 1, 11 and 52 bits (R106). -/
def pack64 (s : Bool) (e f : Nat) : Double :=
  BitVec.ofNat 64 (s.toNat * 2 ^ 63 + e % 2 ^ 11 * 2 ^ 52 + f % 2 ^ 52)

/-- The bit length of a positive number: `2^(k-1) <= m < 2^k` (R106, R108). -/
def bitLength (m : Nat) : Nat := Nat.log2 m + 1

/-! ### Exact non-negative rationals and their roundings -/

/-- An exact non-negative rational, numerator over a positive denominator. -/
structure Frac where
  num : Nat
  den : Nat
  deriving DecidableEq, Repr

/-- `m * 2^k`, exactly. -/
def Frac.scaled (m : Nat) (k : Int) : Frac := ⟨m * 2 ^ k.toNat, 2 ^ (-k).toNat⟩

/-- `rne(t)`: the nearest integer, a tie to the even one (R114). -/
def Frac.rne (t : Frac) : Nat :=
  let q := t.num / t.den
  let r := t.num % t.den
  if 2 * r < t.den then q
  else if t.den < 2 * r then q + 1
  else q + q % 2

/-- `floor(t + 1/2)`: the nearest integer, a tie away from zero (R119, for the magnitude). -/
def Frac.roundHalfUp (t : Frac) : Nat := (2 * t.num + t.den) / (2 * t.den)

/-- `1 <= t`. -/
def Frac.geOne (t : Frac) : Bool := t.den ≤ t.num

/-- The significand of a finite binary64 pattern: its magnitude is `significand64 * 2^scale64` (R17). -/
def significand64 (v : Double) : Nat := if exp64 v = 0 then frac64 v else 2 ^ 52 + frac64 v

/-- The exponent of the significand's unit: `-1074` for a subnormal or zero, `e - 1075` otherwise (R17). -/
def scale64 (v : Double) : Int := if exp64 v = 0 then -1074 else (exp64 v : Int) - 1075

/-! ### Float32: widening and narrowing -/

/-- `widen32(b)` (R106): exact on every non-NaN, and a NaN keeps its sign and its 23 fraction bits. -/
def widen32 (b : BitVec 32) : Double :=
  let s := sign32 b
  let e := exp32 b
  let f := frac32 b
  if e = 255 then pack64 s 0x7FF (f * 2 ^ 29)
  else if e = 0 then
    if f = 0 then pack64 s 0 0
    else
      let k := bitLength f
      pack64 s (k + 873) ((f - 2 ^ (k - 1)) * 2 ^ (53 - k))
  else pack64 s (e + 896) (f * 2 ^ 29)

/-- The finite branch of `narrow64` (R114) for the magnitude `m * 2^x`, `m > 0`: round to nearest, ties to even,
with gradual underflow and overflow to infinity. `q` is the exponent of one unit in the last place. -/
def narrowFinite (s : Bool) (m : Nat) (x : Int) : BitVec 32 :=
  let q : Int := max ((Nat.log2 m : Int) + x) (-126) - 23
  let n := (Frac.scaled m (x - q)).rne
  if (Frac.scaled n (q - 128)).geOne then pack32 s 0xFF 0
  else if n = 0 then pack32 s 0 0
  else if !(Frac.scaled n (q + 126)).geOne then pack32 s 0 n
  else if n = 2 ^ 24 then pack32 s (q + 1 + 150).toNat 0
  else pack32 s (q + 150).toNat (n - 2 ^ 23)

/-- `narrow64(v)` (R114). A NaN keeps its sign and its top 23 fraction bits, or the quiet bit if they are zero. -/
def narrow64 (v : Double) : BitVec 32 :=
  let s := sign64 v
  let e := exp64 v
  let f := frac64 v
  if e = 0x7FF then
    if f = 0 then pack32 s 0xFF 0
    else
      let g := bits f 51 29
      if g = 0 then pack32 s 0xFF 0x400000 else pack32 s 0xFF g
  else if e = 0 ∧ f = 0 then pack32 s 0 0
  else narrowFinite s (significand64 v) (scale64 v)

/-! ### Fixed point -/

/-- `f64_exact(s, q)` (R108): the binary64 pattern equal to `s / 2^q`. -/
def f64Exact (s : Int) (q : Nat) : Double :=
  if s = 0 then 0
  else
    let m := s.natAbs
    let k := bitLength m
    pack64 (s < 0) (1023 + (k - 1) - q) ((m - 2 ^ (k - 1)) * 2 ^ (53 - k))

/-- `round_half_away(val64(V) * 2^q)` of a finite pattern (R119): the only rounding of a fixed-point encode. -/
def roundScaled (v : Double) (q : Nat) : Int :=
  let r := (Frac.scaled (significand64 v) (scale64 v + q)).roundHalfUp
  if sign64 v then -(r : Int) else r

/-- The rounded integer, if `V` is finite and the integer fits `n` signed bits (R115, R116, R121). -/
def fixedOf (v : Double) (q n : Nat) : Option Int :=
  if exp64 v = 0x7FF then none
  else
    let r := roundScaled v q
    if r < -(2 ^ (n - 1)) ∨ 2 ^ (n - 1) - 1 < r then none else some r

/-! ### The codec -/

/-- The value of exactly `WIDTH[p]` wire bytes (R105, R107, R109, R111). FixedPoint16_32 has its fraction first and
its integer part second (R51, R109). -/
def decodeValue (p : Precision) (b : Bytes) : Double :=
  match p with
  | .float32 => widen32 (BitVec.ofNat 32 (be b))
  | .fp1220 => f64Exact (sint 32 (be b)) 20
  | .fp1632 => f64Exact (sint 48 (be (b.drop 4 ++ b.take 4))) 32
  | .float64 => BitVec.ofNat 64 (be b)

/-- The wire bytes of a value, or none where the format cannot hold it (R113, R115, R116, R117, R121). -/
def encodeValue (p : Precision) (v : Double) : Option Bytes :=
  match p with
  | .float32 => some (bytesBe 4 (narrow64 v).toNat)
  | .fp1220 => (fixedOf v 20 32).map (fun r => bytesBe 4 (uint 32 r))
  | .fp1632 => (fixedOf v 32 48).map (fun r => bytesBe 4 (bits (uint 48 r) 31 0) ++ bytesBe 2 (bits (uint 48 r) 47 32))
  | .float64 => some (bytesBe 8 v.toNat)

end Sys2Proof.Machine
end

