-- ==== Sys2Proof/Machine/Numeric.lean ====
section
/-! DEFINITION. The ten commands of the numeric codec (R100 to R123). -/

namespace Sys2Proof.Machine

/-- Decode by a precision: the byte-count check, then `V` (R102, R105 to R111). -/
def decodeAs (p : Precision) (s : State) : Result :=
  if s.wn.toNat = p.width then done .ok { s with v := decodeValue p (s.wire p.width) }
  else failDecode p s

/-- Encode by a precision: the range check, then `W` and `WN` (R113 to R117, R121). -/
def encodeAs (p : Precision) (s : State) : Result :=
  match encodeValue p s.v with
  | none => fail .eRange s
  | some b => done .ok (s.loadWire b)

/-- DECF32 (R105). -/
def execDecf32 (s : State) : Result := decodeAs .float32 s
/-- DECFP1220 (R107). -/
def execDecfp1220 (s : State) : Result := decodeAs .fp1220 s
/-- DECFP1632 (R109). -/
def execDecfp1632 (s : State) : Result := decodeAs .fp1632 s
/-- DECF64 (R111). -/
def execDecf64 (s : State) : Result := decodeAs .float64 s

/-- DECP (R112): `E_OPERAND` for a `PREC` above 3, checked first, else the decode it selects. -/
def execDecp (s : State) : Result :=
  match precisionOf s.prec with
  | none => fail .eOperand s
  | some p => decodeAs p s

/-- ENCF32 (R113). -/
def execEncf32 (s : State) : Result := encodeAs .float32 s
/-- ENCFP1220 (R115). -/
def execEncfp1220 (s : State) : Result := encodeAs .fp1220 s
/-- ENCFP1632 (R116). -/
def execEncfp1632 (s : State) : Result := encodeAs .fp1632 s
/-- ENCF64 (R117). -/
def execEncf64 (s : State) : Result := encodeAs .float64 s

/-- ENCP (R118): `E_OPERAND` for a `PREC` above 3, checked first, else the encode it selects. -/
def execEncp (s : State) : Result :=
  match precisionOf s.prec with
  | none => fail .eOperand s
  | some p => encodeAs p s

end Sys2Proof.Machine
end

