-- ==== Sys2Proof/Machine/System.lean ====
section
/-! DEFINITION. The two system commands (R198, R199). -/

namespace Sys2Proof.Machine

/-- NOP (R198): the status alone. -/
def execNop (s : State) : Result := done .ok s

/-- RESET (R199, R240): every piece of the block's state at its reset value, `SR = 0x0000` being also its status
`OK`. What the host has still to present is the host's (R242). -/
def execReset (s : State) : Result := .next { State.reset with host := s.host }

end Sys2Proof.Machine
end

