-- ==== Sys2Proof/Machine/Walk.lean ====
section
/-! DEFINITION. The sub-packet walk (R180 to R187). -/

namespace Sys2Proof.Machine

/-- One step of the walk over a validated frame (R181). `PLEN - CUR` is compared without subtraction, so a CUR past
PLEN, which no run reaches, counts as malformed (log entry 7). -/
def walkStep (s : State) : Result :=
  let cur := s.cur.toNat
  let plen := s.plen.toNat
  let h := s.poff.toNat + cur
  if plen = cur then done .noMore s
  else if plen < cur + 3 then done .noMoreMalformed s
  else if s.flen ≤ h + 2 then .fault .frameReadPastEnd
  else
    let l := byteAt s.frm (h + 2)
    if plen < cur + 3 + l.toNat then done .noMoreMalformed s
    else done .ok (s.advanceWalk (BitVec.ofNat 16 (wordAt s.frm h)) l)

/-- SPNEXT (R181, R186): `E_STATE` unless a measurement frame was validated and is still in FRM. -/
def execSpnext (s : State) : Result :=
  if !s.fv then fail .eState s
  else if s.mid ≠ Config.midMtData2 then fail .eState s
  else walkStep s

end Sys2Proof.Machine
end

