-- ==== Sys2Proof/Syntax.lean ====
section
/-! DEFINITION. The commands of XCB: one constructor per row of `spec/opcode_table.json` (R86). -/

namespace Sys2Proof

/-- A command with its operands (R86, R87). A count operand is the length of the byte list it counts (log entry 9);
the pseudo-instructions CLRW, PUSHB and LDVF (R93) are `ldw []`, `push [b]` and `ldv x`. -/
inductive Instr where
  /-- NOP, R198. -/
  | nop
  /-- RESET, R199. -/
  | reset
  /-- LDW {data}, R191. -/
  | ldw (data : Bytes)
  /-- LDV v, R192. -/
  | ldv (v : Double)
  /-- LDWF off, n, R193. -/
  | ldwf (off : Half) (n : Byte)
  /-- LDID id, R194. -/
  | ldid (id : Half)
  /-- LDSUB k, c, p, R195. -/
  | ldsub (k c p : Half)
  /-- DECF32, R105. -/
  | decf32
  /-- DECFP1220, R107. -/
  | decfp1220
  /-- DECFP1632, R109. -/
  | decfp1632
  /-- DECF64, R111. -/
  | decf64
  /-- DECP, R112. -/
  | decp
  /-- ENCF32, R113. -/
  | encf32
  /-- ENCFP1220, R115. -/
  | encfp1220
  /-- ENCFP1632, R116. -/
  | encfp1632
  /-- ENCF64, R117. -/
  | encf64
  /-- ENCP, R118. -/
  | encp
  /-- DIDDEC, R131. -/
  | diddec
  /-- DIDENC, R133. -/
  | didenc
  /-- DSIZE, R137. -/
  | dsize
  /-- PUSH {data}, R151. -/
  | push (data : Bytes)
  /-- SPLIT f, R152. -/
  | split (f : Byte)
  /-- VALIDATE, R158. -/
  | validate
  /-- CONSTRUCT mid, {payload}, R164. -/
  | construct (mid : Byte) (payload : Bytes)
  /-- LDF {data}, R167. -/
  | ldf (data : Bytes)
  /-- SPNEXT, R181. -/
  | spnext
  deriving DecidableEq, Repr

end Sys2Proof
end

