-- ==== Sys2Proof/Machine/Dispatch.lean ====
section
/-! DEFINITION. One arm per command (R86). -/

namespace Sys2Proof.Machine

/-- The meaning of a command, in the state in which the host's presentation of it has been taken. -/
def exec (i : Instr) (s : State) : Host.Outcome State Fault Refusal :=
  match i with
  | .nop => Sys2Proof.Machine.execNop s
  | .reset => Sys2Proof.Machine.execReset s
  | .ldw data => Sys2Proof.Machine.execLdw data s
  | .ldv v => Sys2Proof.Machine.execLdv v s
  | .ldwf off n => Sys2Proof.Machine.execLdwf off n s
  | .ldid id => Sys2Proof.Machine.execLdid id s
  | .ldsub k c p => Sys2Proof.Machine.execLdsub k c p s
  | .decf32 => Sys2Proof.Machine.execDecf32 s
  | .decfp1220 => Sys2Proof.Machine.execDecfp1220 s
  | .decfp1632 => Sys2Proof.Machine.execDecfp1632 s
  | .decf64 => Sys2Proof.Machine.execDecf64 s
  | .decp => Sys2Proof.Machine.execDecp s
  | .encf32 => Sys2Proof.Machine.execEncf32 s
  | .encfp1220 => Sys2Proof.Machine.execEncfp1220 s
  | .encfp1632 => Sys2Proof.Machine.execEncfp1632 s
  | .encf64 => Sys2Proof.Machine.execEncf64 s
  | .encp => Sys2Proof.Machine.execEncp s
  | .diddec => Sys2Proof.Machine.execDiddec s
  | .didenc => Sys2Proof.Machine.execDidenc s
  | .dsize => Sys2Proof.Machine.execDsize s
  | .push data => Sys2Proof.Machine.execPush data s
  | .split f => Sys2Proof.Machine.execSplit f s
  | .validate => Sys2Proof.Machine.execValidate s
  | .construct mid payload => Sys2Proof.Machine.execConstruct mid payload s
  | .ldf data => Sys2Proof.Machine.execLdf data s
  | .spnext => Sys2Proof.Machine.execSpnext s

end Sys2Proof.Machine
end

