-- ==== Sys2Proof/WellFormed.lean ====
section
/-! DEFINITION. Which command terms have an encoding: the data of a variable-format command must be as long as its
count operand can say (R85). A count that makes the command fault is still well-formed (R88). -/

namespace Sys2Proof

/-- Does the command have an encoding (R85)? The one-byte counts of formats V8 and C reach 255, the two-byte count
of V16 reaches 65535; every other operand is a bit vector of its operand's width. -/
def Instr.wellFormed : Instr → Bool
  | .ldw data => data.length ≤ 255
  | .push data => data.length ≤ 65535
  | .construct _ payload => payload.length ≤ 255
  | .ldf data => data.length ≤ 65535
  | .nop | .reset | .ldv _ | .ldwf _ _ | .ldid _ | .ldsub _ _ _ => true
  | .decf32 | .decfp1220 | .decfp1632 | .decf64 | .decp => true
  | .encf32 | .encfp1220 | .encfp1632 | .encf64 | .encp => true
  | .diddec | .didenc | .dsize | .split _ | .validate | .spnext => true

end Sys2Proof
end

