-- ==== Sys2Proof/Decode.lean ====
section
/-! DEFINITION. The command decoder over any bytes (R85 to R90), and the encoder (R85, R92). -/

namespace Sys2Proof

/-- The five command formats (R85). -/
inductive Format where
  /-- `[op]`. -/
  | z
  /-- `[op]` and `k` operand bytes. -/
  | i (k : Nat)
  /-- `[op][n]` and `n` data bytes. -/
  | v8
  /-- `[op][n_hi][n_lo]` and `n` data bytes. -/
  | v16
  /-- `[op][mid][n]` and `n` payload bytes. -/
  | c
  deriving DecidableEq, Repr

/-- Why a command is illegal (R89). -/
inductive IllegalReason where
  /-- The first byte is not an opcode of R86. -/
  | unknownOpcode (op : Byte)
  /-- The bytes end before the length that the opcode's format gives. -/
  | truncated (op : Byte)
  deriving DecidableEq, Repr

/-- What the decoder finds at the front of a byte sequence (R89). -/
inductive Decoded where
  /-- The sequence is empty: there is no command. -/
  | noCommand
  /-- An illegal command, and the bytes after it. -/
  | illegal (why : IllegalReason) (rest : Bytes)
  /-- A command, and the bytes after it. -/
  | command (i : Instr) (rest : Bytes)
  deriving DecidableEq, Repr

/-- The opcode map (R86): the 26 opcode bytes, each with its format. -/
def opcodeTable : List (Byte × Format) :=
  [(0x00, .z), (0x01, .z),
   (0x10, .v8), (0x11, .i 8), (0x12, .i 3), (0x13, .i 2), (0x14, .i 6),
   (0x20, .z), (0x21, .z), (0x22, .z), (0x23, .z), (0x24, .z),
   (0x28, .z), (0x29, .z), (0x2A, .z), (0x2B, .z), (0x2C, .z),
   (0x30, .z), (0x31, .z), (0x32, .z),
   (0x40, .v16), (0x42, .i 1), (0x43, .z), (0x44, .c), (0x45, .v16),
   (0x50, .z)]

/-- The format of an opcode byte, if it is one of the 26 (R86, R90). -/
def formatOf (op : Byte) : Option Format := opcodeTable.lookup op

/-- How many bytes follow the opcode (R88), if the count operand is there to be read. -/
def operandCount : Format → Bytes → Option Nat
  | .z, _ => some 0
  | .i k, _ => some k
  | .v8, n :: _ => some (1 + n.toNat)
  | .v16, hi :: lo :: _ => some (2 + be [hi, lo])
  | .c, _ :: n :: _ => some (2 + n.toNat)
  | .v8, _ => none
  | .v16, _ => none
  | .c, _ => none

/-- The command of an opcode and exactly its operand bytes (R87). It answers none only for an opcode that is not
in the table or a wrong number of operand bytes, neither of which `decode` gives it. -/
def assemble (op : Byte) (a : Bytes) : Option Instr :=
  match op.toNat, a with
  | 0x00, [] => some .nop
  | 0x01, [] => some .reset
  | 0x10, _ :: data => some (.ldw data)
  | 0x11, [b0, b1, b2, b3, b4, b5, b6, b7] => some (.ldv (BitVec.ofNat 64 (be [b0, b1, b2, b3, b4, b5, b6, b7])))
  | 0x12, [hi, lo, n] => some (.ldwf (BitVec.ofNat 16 (be [hi, lo])) n)
  | 0x13, [hi, lo] => some (.ldid (BitVec.ofNat 16 (be [hi, lo])))
  | 0x14, [kh, kl, ch, cl, ph, pl] =>
    some (.ldsub (BitVec.ofNat 16 (be [kh, kl])) (BitVec.ofNat 16 (be [ch, cl])) (BitVec.ofNat 16 (be [ph, pl])))
  | 0x20, [] => some .decf32
  | 0x21, [] => some .decfp1220
  | 0x22, [] => some .decfp1632
  | 0x23, [] => some .decf64
  | 0x24, [] => some .decp
  | 0x28, [] => some .encf32
  | 0x29, [] => some .encfp1220
  | 0x2A, [] => some .encfp1632
  | 0x2B, [] => some .encf64
  | 0x2C, [] => some .encp
  | 0x30, [] => some .diddec
  | 0x31, [] => some .didenc
  | 0x32, [] => some .dsize
  | 0x40, _ :: _ :: data => some (.push data)
  | 0x42, [f] => some (.split f)
  | 0x43, [] => some .validate
  | 0x44, mid :: _ :: payload => some (.construct mid payload)
  | 0x45, _ :: _ :: data => some (.ldf data)
  | 0x50, [] => some .spnext
  | _, _ => none

/-- The decoder over any byte sequence (R89): no command, the one-byte illegal command of an unknown opcode, the
illegal command of all the bytes when they are too few, or the command and the bytes after it. -/
def decode : Bytes → Decoded
  | [] => .noCommand
  | op :: rest =>
    match formatOf op with
    | none => .illegal (.unknownOpcode op) rest
    | some fmt =>
      match (operandCount fmt rest).bind (fun n => splitExact n rest) with
      | none => .illegal (.truncated op) []
      | some (operands, later) =>
        match assemble op operands with
        | some i => .command i later
        | none => .illegal (.truncated op) []

/-- The bytes of a command (R85, R92). -/
def encode : Instr → Bytes
  | .nop => [0x00]
  | .reset => [0x01]
  | .ldw data => 0x10 :: bytesBe 1 data.length ++ data
  | .ldv v => 0x11 :: bytesBe 8 v.toNat
  | .ldwf off n => 0x12 :: bytesBe 2 off.toNat ++ [n]
  | .ldid id => 0x13 :: bytesBe 2 id.toNat
  | .ldsub k c p => 0x14 :: bytesBe 2 k.toNat ++ bytesBe 2 c.toNat ++ bytesBe 2 p.toNat
  | .decf32 => [0x20]
  | .decfp1220 => [0x21]
  | .decfp1632 => [0x22]
  | .decf64 => [0x23]
  | .decp => [0x24]
  | .encf32 => [0x28]
  | .encfp1220 => [0x29]
  | .encfp1632 => [0x2A]
  | .encf64 => [0x2B]
  | .encp => [0x2C]
  | .diddec => [0x30]
  | .didenc => [0x31]
  | .dsize => [0x32]
  | .push data => 0x40 :: bytesBe 2 data.length ++ data
  | .split f => [0x42, f]
  | .validate => [0x43]
  | .construct mid payload => 0x44 :: mid :: bytesBe 1 payload.length ++ payload
  | .ldf data => 0x45 :: bytesBe 2 data.length ++ data
  | .spnext => [0x50]

/-- The command bytes that a row's bits stand for: `nbits / 8` bytes of `w`, the first in the low bits, and then
zero bytes up to the length that R88 gives the command. -/
def tableBytes (nbits w : Nat) : Bytes :=
  match bytesLe (nbits / 8) w with
  | [] => []
  | op :: args =>
    match (formatOf op).bind (fun fmt => operandCount fmt (args ++ [0, 0])) with
    | none => op :: args
    | some n => op :: args ++ List.replicate (n - args.length) 0

/-- The command the decoder reads from a row's bits, if it reads one. -/
def decodeTableWord (nbits w : Nat) : Option Instr :=
  match decode (tableBytes nbits w) with
  | .command i _ => some i
  | .noCommand => none
  | .illegal _ _ => none

end Sys2Proof
end

