-- ==== Sys2Proof/Machine/Fetch.lean ====
section
/-! DEFINITION. Taking the next command from the host (R10, R89). -/

namespace Sys2Proof.Machine

/-- The host's list after the front string has been decoded: the string's remaining bytes, if any, come next (R89:
decoding continues after them). -/
def keepRest (rest : Bytes) (later : List Bytes) : List Bytes := if rest = [] then later else rest :: later

/-- The next command the host presents, and the state with its bytes taken (R89). An empty list, or an empty
string at its front, holds no command (log entry 2). -/
def fetch (s : State) : Decoded × State :=
  match s.host with
  | [] => (.noCommand, s)
  | bytes :: later =>
    match decode bytes with
    | .noCommand => (.noCommand, { s with host := later })
    | .illegal why rest => (.illegal why rest, { s with host := keepRest rest later })
    | .command i rest => (.command i rest, { s with host := keepRest rest later })

/-- The host presents one more string, before all the others. -/
def State.present (bytes : Bytes) (s : State) : State := { s with host := bytes :: s.host }

/-- An illegal command (R90, R219): `E_ILLEGAL` and nothing else. -/
def takeIllegal (s : State) : Result := fail .eIllegal s

end Sys2Proof.Machine
end

