-- ==== Sys2Proof/Machine/Step.lean ====
section
/-! DEFINITION. One step: one command of the host's, performed completely (R9, R59). -/

namespace Sys2Proof.Machine

/-- One step of the block (R9). With nothing presented it is idle and unchanged (R10; log entry 2); an illegal
command ends with `E_ILLEGAL` (R90); a command is performed. -/
def step (s : State) : Host.Outcome State Fault Refusal :=
  match fetch s with
  | (.noCommand, s') => .next s'
  | (.illegal _ _, s') => takeIllegal s'
  | (.command i _, s') => exec i s'

/-- The state in which the host presents the command of a row's bits next: its bytes, zero-extended to the length
R88 gives the command, before all the host has listed. -/
def State.withFetchWord (s : State) (nbits w : Nat) : State := s.present (tableBytes nbits w)

end Sys2Proof.Machine
end

