-- ==== Sys2Proof/Safety.lean ====
section
/-! DEFINITION. What the rest of the model may rely on (the invariants of R36 with the ranges of R20; a step that does
not stop), and the terms in which claims are stated: how a command ends, the rational value of a pattern, what a
frame is on the wire, which command writes what. None of these terms is used by the machine. -/

namespace Sys2Proof.Machine

/-! ### Frames on the wire -/

/-- The marker `FA FF` stands at offset `i` (R152). -/
def markerAt (b : Bytes) (i : Nat) : Prop := b[i]? = some 0xFA ∧ b[i + 1]? = some 0xFF

/-- The header size and payload length that byte 3, and for an extended header bytes 4 and 5, give (R72). -/
def headerSays (b : Bytes) (hdr plen : Nat) : Prop :=
  (∃ len : Byte, b[3]? = some len ∧ len ≠ 0xFF ∧ hdr = 4 ∧ plen = len.toNat) ∨
    (b[3]? = some 0xFF ∧ ∃ hi lo : Byte, b[4]? = some hi ∧ b[5]? = some lo ∧ hdr = 6 ∧ plen = hi.toNat * 256 + lo.toNat)

/-- A standard frame (R70) with its checksum invariant (R73). -/
def standardWire (mid : Byte) (payload f : Bytes) : Prop :=
  payload.length ≤ 254 ∧ sumBytes (f.drop 1) % 256 = 0 ∧
    ∃ checksum : Byte, f = [0xFA, 0xFF, mid, BitVec.ofNat 8 payload.length] ++ payload ++ [checksum]

/-- An extended frame (R71) with its checksum invariant (R73). -/
def extendedWire (mid : Byte) (payload f : Bytes) : Prop :=
  255 ≤ payload.length ∧ payload.length ≤ 2048 ∧ sumBytes (f.drop 1) % 256 = 0 ∧
    ∃ checksum : Byte, f = [0xFA, 0xFF, mid, 0xFF, BitVec.ofNat 8 (payload.length / 256), BitVec.ofNat 8 payload.length]
      ++ payload ++ [checksum]

/-- A valid frame (R74). -/
def wireFrame (mid : Byte) (payload f : Bytes) : Prop := standardWire mid payload f ∨ extendedWire mid payload f

/-- A sub-packet (R82). -/
def subPacket (id : Half) (data : Bytes) : Bytes :=
  [BitVec.ofNat 8 (id.toNat / 256), BitVec.ofNat 8 id.toNat, BitVec.ofNat 8 data.length] ++ data

/-! ### The invariants -/

/-- What `FV = 1` promises of FRM and the frame registers: R36's list, and that `POFF` and `PLEN` are what the length
field says, within the extended bounds, so that FRM is a frame that VALIDATE passes (R28, R158). -/
structure State.FrameHolds (s : State) : Prop where
  poff : s.poff.toNat = 4 ∨ s.poff.toNat = 6
  header : headerSays s.frm s.poff.toNat s.plen.toNat
  extended : s.poff.toNat = 6 → 255 ≤ s.plen.toNat
  plen_le : s.plen.toNat ≤ 2048
  flen : s.flen = s.poff.toNat + s.plen.toNat + 1
  preamble : s.frm[0]? = some 0xFA
  address : s.frm[1]? = some 0xFF
  identifier : s.frm[2]? = some s.mid
  checksum : sumBytes (s.frm.drop 1) % 256 = 0

/-- R36, with the ranges that R20, R26, R30 and R211 give the registers. -/
structure State.Inv (s : State) : Prop where
  wn_le : s.wn.toNat ≤ 8
  w_zero : ∀ (i : Nat) (h : i < 8), s.wn.toNat ≤ i → s.w[i] = 0
  buffers : Memory.wf s = true
  flen_le : s.flen ≤ 65542
  sr_reserved : s.srReserved = 0
  code_listed : ∃ c : Status, s.code = c.byte
  einfo_high : s.einfo.extractLsb' 22 10 = 0
  poff_cases : s.poff.toNat = 0 ∨ s.poff.toNat = 4 ∨ s.poff.toNat = 6
  plen_le : s.plen.toNat ≤ 2048
  cur_le : s.cur.toNat ≤ s.plen.toNat
  spoff_le : s.spoff.toNat ≤ 2054
  frame : s.fv = true → s.FrameHolds

/-- The step goes on: it neither faults nor refuses. -/
def stepsOn (s : State) : Prop := ∃ t, step s = .next t

/-! ### How a command ends -/

/-- `t` is `s` but for `SR`, where `CODE` is the code of `c`, `FV` is `fv` and the reserved bits are those of `s`. -/
def ends (c : Status) (fv : Bool) (s t : State) : Prop :=
  t.code = c.byte ∧ t.fv = fv ∧ t.srReserved = s.srReserved ∧ t = { s with sr := t.sr }

/-- `t` is `s` but for `SR.CODE`, which is the code of `c`. -/
def endsWith (c : Status) (s t : State) : Prop := ends c s.fv s t

/-- The command goes on to a state that is `s'` but for `SR.CODE`, the code of `c`. -/
def goesTo (i : Instr) (s : State) (c : Status) (s' : State) : Prop := ∃ t, exec i s = .next t ∧ endsWith c s' t

/-! ### IEEE-754 values (R17) -/

/-- Neither an infinity nor a NaN. -/
abbrev finite32 (b : BitVec 32) : Prop := exp32 b ≠ 0xFF
/-- Neither an infinity nor a NaN. -/
abbrev finite64 (v : Double) : Prop := exp64 v ≠ 0x7FF
/-- A NaN. -/
abbrev nan32 (b : BitVec 32) : Prop := exp32 b = 0xFF ∧ frac32 b ≠ 0
/-- A NaN. -/
abbrev nan64 (v : Double) : Prop := exp64 v = 0x7FF ∧ frac64 v ≠ 0

/-- `val32(b)`: the exact rational value of a finite binary32 pattern (R17). -/
def val32 (b : BitVec 32) : ℚ :=
  (if sign32 b then -1 else 1) *
    (if exp32 b = 0 then (frac32 b : ℚ) / 2 ^ 23 * 2 ^ (-126 : ℤ)
     else (1 + (frac32 b : ℚ) / 2 ^ 23) * 2 ^ ((exp32 b : ℤ) - 127))

/-- `val64(v)`: the exact rational value of a finite binary64 pattern (R17). -/
def val64 (v : Double) : ℚ :=
  (if sign64 v then -1 else 1) *
    (if exp64 v = 0 then (frac64 v : ℚ) / 2 ^ 52 * 2 ^ (-1022 : ℤ)
     else (1 + (frac64 v : ℚ) / 2 ^ 52) * 2 ^ ((exp64 v : ℤ) - 1023))

/-- `round_half_away(t) = sign(t) * floor(|t| + 1/2)` (R119). -/
def roundHalfAway (t : ℚ) : ℤ := (if t < 0 then -1 else 1) * ⌊|t| + 1 / 2⌋

/-- The DEC command of a precision (R86). -/
def Precision.decodeCommand : Precision → Instr
  | .float32 => .decf32
  | .fp1220 => .decfp1220
  | .fp1632 => .decfp1632
  | .float64 => .decf64

/-- The ENC command of a precision (R86). -/
def Precision.encodeCommand : Precision → Instr
  | .float32 => .encf32
  | .fp1220 => .encfp1220
  | .fp1632 => .encfp1632
  | .float64 => .encf64

/-! ### Which command writes what (R22, R28, R30, R32), RESET left out, and which codes it ends with (R213) -/

/-- Writes `W` and `WN` (R22). -/
def writesWire : Instr → Bool
  | .ldw _ | .ldwf _ _ | .encf32 | .encfp1220 | .encfp1632 | .encf64 | .encp => true
  | _ => false

/-- Writes `V` (R22). -/
def writesValue : Instr → Bool
  | .ldv _ | .decf32 | .decfp1220 | .decfp1632 | .decf64 | .decp => true
  | _ => false

/-- Writes `ID` (R22). -/
def writesId : Instr → Bool
  | .ldid _ | .didenc | .spnext => true
  | _ => false

/-- Writes `KIND`, `COORD` and `PREC` (R22). -/
def writesSubfields : Instr → Bool
  | .ldsub _ _ _ | .diddec => true
  | _ => false

/-- Replaces FRM and clears `FV` (R28, R32). -/
def replacesFrame : Instr → Bool
  | .split _ | .construct _ _ | .ldf _ => true
  | _ => false

/-- Writes RXB (R32). -/
def writesReceive : Instr → Bool
  | .push _ | .split _ => true
  | _ => false

/-- Can end with `E_DECODE`, which writes `EINFO` (R30). -/
def decodes : Instr → Bool
  | .decf32 | .decfp1220 | .decfp1632 | .decf64 | .decp => true
  | _ => false

/-- The codes a command can end with (R213). -/
def statuses : Instr → List Status
  | .nop | .reset | .ldv _ | .ldid _ | .ldsub _ _ _ | .ldf _ | .diddec | .encf32 | .encf64 => [.ok]
  | .ldw _ | .ldwf _ _ | .construct _ _ | .didenc | .dsize => [.ok, .eOperand]
  | .decf32 | .decfp1220 | .decfp1632 | .decf64 => [.ok, .eDecode]
  | .decp => [.ok, .eOperand, .eDecode]
  | .encfp1220 | .encfp1632 => [.ok, .eRange]
  | .encp => [.ok, .eOperand, .eRange]
  | .push _ => [.ok, .eFull]
  | .split _ => [.ok, .needMore, .endOfStream, .eOperand]
  | .validate => [.ok, .eShort, .ePreamble, .eBusAddr, .eExtLen, .eLength, .eChecksum]
  | .spnext => [.ok, .noMore, .noMoreMalformed, .eState]

end Sys2Proof.Machine
end

