-- ==== Sys2Proof/Certificates/Slice0/Obligations.lean ====
section
/-! DEFINITION. The statements for the provers. `goesTo i s c s'` says that `exec i s` answers a next state that is `s'`
but for `SR.CODE`, the code of `c`: every field not named in `s'` is as in `s`, so each such statement holds the
command's result, its completion and its frame. -/

open Sys2Proof Sys2Proof.Machine

/-! ### Commands as bytes -/

/-- Decoding the encoding of a well-formed command gives it back, whatever bytes follow. -/
def Obligations.DecodeOfEncodeIsIdentity : Prop :=
  ∀ (i : Instr) (rest : Bytes), i.wellFormed = true → decode (encode i ++ rest) = .command i rest

/-- The other direction: bytes that decode to a command are its encoding and the bytes after it. -/
def Obligations.EncodeOfDecodeIsIdentity : Prop :=
  ∀ (b rest : Bytes) (i : Instr), decode b = .command i rest → i.wellFormed = true ∧ b = encode i ++ rest

/-- A well-formed command cut short is the illegal command of all its bytes. -/
def Obligations.TruncatedCommandIsIllegal : Prop :=
  ∀ (i : Instr) (k : Nat), i.wellFormed = true → 0 < k → k < (encode i).length →
    ∃ op : Byte, decode ((encode i).take k) = .illegal (.truncated op) []

/-- R90: the 230 opcode bytes outside R86 are illegal, and an illegal command writes `E_ILLEGAL` and nothing else (what
the host still has to present is no state of the block and is left open here). -/
def Obligations.IllegalCommandChangesOnlyCode : Prop :=
  (∀ (op : Byte) (rest : Bytes),
    op ∉ ([0x00, 0x01, 0x10, 0x11, 0x12, 0x13, 0x14, 0x20, 0x21, 0x22, 0x23, 0x24, 0x28, 0x29, 0x2A, 0x2B, 0x2C,
      0x30, 0x31, 0x32, 0x40, 0x42, 0x43, 0x44, 0x45, 0x50] : List Byte) ↔
    decode (op :: rest) = .illegal (.unknownOpcode op) rest) ∧
  ((List.range 256).countP (fun n => (formatOf (BitVec.ofNat 8 n)).isNone) = 230) ∧
  (∀ (s : State) (b rest : Bytes) (later : List Bytes) (why : IllegalReason),
    s.host = b :: later → decode b = .illegal why rest →
    ∃ t, step s = .next t ∧ endsWith .eIllegal { s with host := t.host } t)

/-- Words written out from R92's table decode to the commands they stand for. -/
def Obligations.WrittenOutWordsDecode : Prop :=
  decode [0x00] = .command .nop [] ∧
  decode [0x10, 0x04, 0x03, 0x9A, 0xDF, 0x03] = .command (.ldw [0x03, 0x9A, 0xDF, 0x03]) [] ∧
  decode [0x12, 0x01, 0x02, 0x03] = .command (.ldwf 0x0102 0x03) [] ∧
  decode [0x14, 0x20, 0x10, 0x00, 0x08, 0x00, 0x03] = .command (.ldsub 0x2010 0x0008 0x0003) [] ∧
  decode [0x22] = .command .decfp1632 [] ∧
  decode [0x2C] = .command .encp [] ∧
  decode [0x31] = .command .didenc [] ∧
  decode [0x40, 0x00, 0x03, 0xFA, 0xFF, 0x30] = .command (.push [0xFA, 0xFF, 0x30]) [] ∧
  decode [0x44, 0x42, 0x01, 0x04] = .command (.construct 0x42 [0x04]) [] ∧
  decode [0x50, 0x43] = .command .spnext [0x43]

/-! ### The step -/

/-- When the bytes the host presents decode to a command, the step runs that command in the state in which its bytes
have been taken; an illegal command's bytes are taken alike (which bytes stay for later is the model's, log entries 1
and 8). -/
def Obligations.StepRunsDecodedCommand : Prop :=
  ∀ (s : State) (b rest : Bytes) (later : List Bytes), s.host = b :: later →
    (∀ i : Instr, decode b = .command i rest →
      step s = exec i { s with host := if rest = [] then later else rest :: later }) ∧
    (∀ why : IllegalReason, decode b = .illegal why rest →
      ∃ t, step s = .next t ∧ t.code = Status.eIllegal.byte ∧ t.host = if rest = [] then later else rest :: later)

/-- A well-formed command that the host presents whole is the command the step runs, in the state as it stands. -/
def Obligations.PresentedCommandRuns : Prop :=
  ∀ (s : State) (i : Instr), i.wellFormed = true → step (s.present (encode i)) = exec i s

/-- With nothing presented the block does nothing (the model's choice for the step of an idle block, log entry 2). -/
def Obligations.IdleStepChangesNothing : Prop :=
  (∀ s : State, s.host = [] → step s = .next s) ∧
  (∀ (s : State) (later : List Bytes), s.host = [] :: later → step s = .next { s with host := later })

/-- R36: from every state that meets the invariants, a step gives a state that meets them. -/
def Obligations.StepKeepsInvariants : Prop := ∀ s t : State, s.Inv → step s = .next t → t.Inv

/-- R36: the reset state meets the invariants. -/
def Obligations.ResetMeetsInvariants : Prop := State.reset.Inv

/-- From every state that meets the invariants the step goes on: no fault and no refusal of the model is reached. -/
def Obligations.StepGoesOn : Prop := ∀ s : State, s.Inv → stepsOn s

/-! ### Reset and the system commands -/

/-- R37: every piece of state after reset, and what the first SPLIT and the first SPNEXT do. -/
def Obligations.ResetStateIsZero : Prop :=
  (∀ (i : Nat) (h : i < 8), State.reset.w[i] = 0) ∧ State.reset.wn = 0 ∧ State.reset.v = 0 ∧ State.reset.id = 0 ∧
  State.reset.kind = 0 ∧ State.reset.coord = 0 ∧ State.reset.prec = 0 ∧ State.reset.sz = 0 ∧ State.reset.mid = 0 ∧
  State.reset.poff = 0 ∧ State.reset.plen = 0 ∧ State.reset.cur = 0 ∧ State.reset.splen = 0 ∧ State.reset.spoff = 0 ∧
  State.reset.frm = [] ∧ State.reset.flen = 0 ∧ State.reset.rxb = [] ∧ State.reset.sr = 0 ∧
  State.reset.code = Status.ok.byte ∧ State.reset.fv = false ∧ State.reset.einfo = 0 ∧
  goesTo (.split 0) State.reset .needMore State.reset ∧ goesTo .spnext State.reset .eState State.reset

/-- R199: RESET, byte `01`, gives the reset state from any state (the host's own list is not the block's, log entry 1). -/
def Obligations.ResetCommandGivesResetState : Prop :=
  encode .reset = [0x01] ∧
  (∀ s : State, ∃ t, exec .reset s = .next t ∧ t = { State.reset with host := t.host }) ∧
  (∀ s : State, ∃ t, exec .reset s = .next t ∧ t.code = Status.ok.byte ∧ goesTo (.split 0) t .needMore t)

/-- R243: what every command does as the first after reset, with every operand a command can carry. -/
def Obligations.FirstCommandAfterReset : Prop :=
  let r := State.reset
  goesTo .nop r .ok r ∧ goesTo .diddec r .ok r ∧ goesTo .didenc r .ok r ∧
  goesTo .reset r .ok r ∧ (∀ v, goesTo (.ldv v) r .ok { r with v := v }) ∧ (∀ x, goesTo (.ldid x) r .ok { r with id := x }) ∧
  (∀ k c p, goesTo (.ldsub k c p) r .ok { r with kind := k, coord := c, prec := p }) ∧
  goesTo .encf32 r .ok { r with wn := 4 } ∧ goesTo .encfp1220 r .ok { r with wn := 4 } ∧
  goesTo .encfp1632 r .ok { r with wn := 6 } ∧ goesTo .encf64 r .ok { r with wn := 8 } ∧
  goesTo .encp r .ok { r with wn := 4 } ∧
  (∃ sz : Half, goesTo .dsize r .ok { r with sz := sz } ∧ (Config.kindTab.lookup 0 = none → sz = 0)) ∧
  goesTo (.construct 0x00 []) r .ok { r with frm := [0xFA, 0xFF, 0x00, 0x00, 0x01] } ∧
  (∀ (mid : Byte) (payload : Bytes),
    (payload.length ≤ 254 → ∃ c : Byte,
      goesTo (.construct mid payload) r .ok
        { r with frm := [0xFA, 0xFF, mid, BitVec.ofNat 8 payload.length] ++ payload ++ [c] } ∧
      c.toNat = (0x100 - (0xFF + mid.toNat + payload.length + sumBytes payload) % 256) % 256) ∧
    (254 < payload.length → goesTo (.construct mid payload) r .eOperand r)) ∧
  (∀ data : Bytes, data.length ≤ 65535 →
    goesTo (.ldf data) r .ok { r with frm := data } ∧ goesTo (.push data) r .ok { r with rxb := data }) ∧
  (∀ data : Bytes,
    (data.length ≤ 8 → ∃ (w : Vector Byte 8) (wn : BitVec 4), goesTo (.ldw data) r .ok { r with w := w, wn := wn } ∧
      wn.toNat = data.length ∧ ∀ (i : Nat) (h : i < 8), w[i] = if hi : i < data.length then data[i] else 0) ∧
    (8 < data.length → goesTo (.ldw data) r .eOperand r)) ∧
  goesTo (.ldf []) r .ok r ∧ goesTo (.push []) r .ok r ∧ goesTo (.ldw []) r .ok r ∧ goesTo (.ldwf 0 0) r .ok r ∧
  (∀ (off : Half) (n : Byte), off ≠ 0 ∨ n ≠ 0 → goesTo (.ldwf off n) r .eOperand r) ∧
  goesTo (.split 0) r .needMore r ∧ goesTo (.split 1) r .endOfStream r ∧
  (∀ f : Byte, 1 < f.toNat → goesTo (.split f) r .eOperand r) ∧
  goesTo .validate r .eShort r ∧ goesTo .spnext r .eState r ∧
  goesTo .decf32 r .eDecode r ∧ goesTo .decfp1220 r .eDecode { r with einfo := 0x00010000 } ∧
  goesTo .decfp1632 r .eDecode { r with einfo := 0x00020000 } ∧ goesTo .decf64 r .eDecode { r with einfo := 0x00030000 } ∧
  goesTo .decp r .eDecode r

/-- R198: NOP, byte `00`, writes `SR.CODE` and nothing else. -/
def Obligations.NopWritesOnlyCode : Prop := encode .nop = [0x00] ∧ ∀ s : State, goesTo .nop s .ok s

/-! ### Loads -/

/-- R191: LDW, bytes `10 n` and the data, fills `W` from its data and zeros the rest, or faults above 8 bytes. -/
def Obligations.LdwLoadsWire : Prop :=
  ∀ (s : State) (data : Bytes),
    encode (.ldw data) = 0x10 :: BitVec.ofNat 8 data.length :: data ∧
    (data.length ≤ 8 → ∃ (t : State) (w : Vector Byte 8) (wn : BitVec 4),
      exec (.ldw data) s = .next t ∧ endsWith .ok { s with w := w, wn := wn } t ∧ wn.toNat = data.length ∧
      ∀ (i : Nat) (h : i < 8), w[i] = if hi : i < data.length then data[i] else 0) ∧
    (8 < data.length → goesTo (.ldw data) s .eOperand s)

/-- R192, R194, R195: LDV, LDID and LDSUB put their big-endian operand bytes in their registers, unchecked. -/
def Obligations.ImmediateLoadsAreBigEndian : Prop :=
  (∀ (s : State) (b rest : Bytes), b.length = 8 → ∃ v : Double, v.toNat = be b ∧
    decode (0x11 :: b ++ rest) = .command (.ldv v) rest ∧ goesTo (.ldv v) s .ok { s with v := v }) ∧
  (∀ (s : State) (b1 b2 : Byte) (rest : Bytes), ∃ x : Half, x.toNat = b1.toNat * 256 + b2.toNat ∧
    decode (0x13 :: b1 :: b2 :: rest) = .command (.ldid x) rest ∧ goesTo (.ldid x) s .ok { s with id := x }) ∧
  (∀ (s : State) (b1 b2 b3 b4 b5 b6 : Byte) (rest : Bytes), ∃ k c p : Half,
    k.toNat = b1.toNat * 256 + b2.toNat ∧ c.toNat = b3.toNat * 256 + b4.toNat ∧ p.toNat = b5.toNat * 256 + b6.toNat ∧
    decode (0x14 :: b1 :: b2 :: b3 :: b4 :: b5 :: b6 :: rest) = .command (.ldsub k c p) rest ∧
    goesTo (.ldsub k c p) s .ok { s with kind := k, coord := c, prec := p })

/-- LDWF copies `n` bytes of FRM from offset `off`, validated or not, and faults past `FLEN` or above 8 (R193's code, R57,
R202; that bytes at offsets above 65535 are reached from an `off` below them, against R193's prose and R250, is the
model's reading, log entry 13). -/
def Obligations.LdwfLoadsFrameBytes : Prop :=
  ∀ (s : State) (off : Half) (n : Byte),
    (∃ hi lo : Byte, encode (.ldwf off n) = [0x12, hi, lo, n] ∧ hi.toNat * 256 + lo.toNat = off.toNat) ∧
    (n.toNat ≤ 8 → off.toNat + n.toNat ≤ s.flen → ∃ (t : State) (w : Vector Byte 8) (wn : BitVec 4),
      exec (.ldwf off n) s = .next t ∧ endsWith .ok { s with w := w, wn := wn } t ∧ wn.toNat = n.toNat ∧
      ∀ (i : Nat) (h : i < 8), (i < n.toNat → s.frm[off.toNat + i]? = some w[i]) ∧ (n.toNat ≤ i → w[i] = 0)) ∧
    (8 < n.toNat ∨ s.flen < off.toNat + n.toNat → goesTo (.ldwf off n) s .eOperand s)

/-! ### Numeric codec: decode -/

/-- R102, R220: a decode whose byte count is not its width writes `EINFO` and `SR.CODE` and nothing else; one whose
byte count is its width never faults. -/
def Obligations.DecodeFaultsOnWrongByteCount : Prop :=
  ∀ (s : State) (p : Precision),
    (s.wn.toNat ≠ p.width →
      ∃ e : BitVec 32, e.toNat = s.wn.toNat * 2 ^ 18 + p.code.toNat * 2 ^ 16 + s.id.toNat ∧
        goesTo p.decodeCommand s .eDecode { s with einfo := e } ∧
        (s.prec.toNat = p.code.toNat → goesTo .decp s .eDecode { s with einfo := e })) ∧
    (s.wn.toNat = p.width → ∃ v, goesTo p.decodeCommand s .ok { s with v := v } ∧
      (s.prec.toNat = p.code.toNat → goesTo .decp s .ok { s with v := v }))

/-- R106: the four cases of widening, field by field, and its exactness on every finite pattern. -/
def Obligations.WideningIsExact : Prop :=
  ∀ b : BitVec 32,
    sign64 (widen32 b) = sign32 b ∧
    (exp32 b = 255 → exp64 (widen32 b) = 0x7FF ∧ frac64 (widen32 b) = frac32 b * 2 ^ 29) ∧
    (exp32 b = 0 → frac32 b = 0 → exp64 (widen32 b) = 0 ∧ frac64 (widen32 b) = 0) ∧
    (∀ k, exp32 b = 0 → 0 < k → 2 ^ (k - 1) ≤ frac32 b → frac32 b < 2 ^ k →
      exp64 (widen32 b) = k + 873 ∧ frac64 (widen32 b) = (frac32 b - 2 ^ (k - 1)) * 2 ^ (53 - k)) ∧
    (exp32 b ≠ 255 → exp32 b ≠ 0 → exp64 (widen32 b) = exp32 b + 896 ∧ frac64 (widen32 b) = frac32 b * 2 ^ 29) ∧
    (finite32 b → finite64 (widen32 b) ∧ val64 (widen32 b) = val32 b)

/-- R105: DECF32, byte `20`, widens the four wire bytes. -/
def Obligations.Decf32Widens : Prop :=
  encode .decf32 = [0x20] ∧ ∀ s : State,
    (s.wn.toNat = 4 →
      goesTo .decf32 s .ok { s with v := widen32 (BitVec.ofNat 32 (be [s.w[0], s.w[1], s.w[2], s.w[3]])) }) ∧
    (s.wn.toNat ≠ 4 → ∃ e : BitVec 32, e.toNat = s.wn.toNat * 2 ^ 18 + s.id.toNat ∧
      goesTo .decf32 s .eDecode { s with einfo := e })

/-- R107: DECFP1220, byte `21`, gives the binary64 equal to the signed 32-bit integer over `2^20`, and `+0.0` for 0. -/
def Obligations.Decfp1220IsExact : Prop :=
  encode .decfp1220 = [0x21] ∧ ∀ s : State,
    (s.wn.toNat = 4 → ∃ v : Double, goesTo .decfp1220 s .ok { s with v := v } ∧ finite64 v ∧
      val64 v = (sint 32 (be [s.w[0], s.w[1], s.w[2], s.w[3]]) : ℚ) / 2 ^ 20 ∧ (val64 v = 0 → v = 0)) ∧
    (s.wn.toNat ≠ 4 → ∃ e : BitVec 32, e.toNat = s.wn.toNat * 2 ^ 18 + 2 ^ 16 + s.id.toNat ∧
      goesTo .decfp1220 s .eDecode { s with einfo := e })

/-- R109: DECFP1632, byte `22`, reassembles `[x, x, W4, W5, W0, W1, W2, W3]`, `x` the sign extension of `W4`, and gives the
binary64 equal to that signed integer over `2^32`. -/
def Obligations.Decfp1632IsExact : Prop :=
  encode .decfp1632 = [0x22] ∧ ∀ s : State,
    (s.wn.toNat = 6 → ∃ (v : Double) (x : Byte), goesTo .decfp1632 s .ok { s with v := v } ∧ finite64 v ∧
      x = (if s.w[4].msb then 0xFF else 0x00) ∧
      val64 v = (sint 64 (be [x, x, s.w[4], s.w[5], s.w[0], s.w[1], s.w[2], s.w[3]]) : ℚ) / 2 ^ 32 ∧
      sint 64 (be [x, x, s.w[4], s.w[5], s.w[0], s.w[1], s.w[2], s.w[3]])
        = sint 48 (be [s.w[4], s.w[5]] * 2 ^ 32 + be [s.w[0], s.w[1], s.w[2], s.w[3]]) ∧
      (val64 v = 0 → v = 0)) ∧
    (s.wn.toNat ≠ 6 → ∃ e : BitVec 32, e.toNat = s.wn.toNat * 2 ^ 18 + 2 * 2 ^ 16 + s.id.toNat ∧
      goesTo .decfp1632 s .eDecode { s with einfo := e })

/-- R111: DECF64, byte `23`, copies the eight wire bytes. -/
def Obligations.Decf64Copies : Prop :=
  encode .decf64 = [0x23] ∧ ∀ s : State,
    (s.wn.toNat = 8 → ∃ v : Double, goesTo .decf64 s .ok { s with v := v } ∧
      v.toNat = be [s.w[0], s.w[1], s.w[2], s.w[3], s.w[4], s.w[5], s.w[6], s.w[7]]) ∧
    (s.wn.toNat ≠ 8 → ∃ e : BitVec 32, e.toNat = s.wn.toNat * 2 ^ 18 + 3 * 2 ^ 16 + s.id.toNat ∧
      goesTo .decf64 s .eDecode { s with einfo := e })

/-- R112: DECP, byte `24`, faults on a `PREC` above 3, and else does what the command of that precision does; on the right byte
count that is an `OK` decode that writes `V` alone. -/
def Obligations.DecpSelectsByPrecision : Prop :=
  encode .decp = [0x24] ∧ ∀ s : State,
    (3 < s.prec.toNat → goesTo .decp s .eOperand s) ∧
    (∀ p : Precision, s.prec.toNat = p.code.toNat → exec .decp s = exec p.decodeCommand s ∧
      (s.wn.toNat = p.width → ∃ v, goesTo .decp s .ok { s with v := v } ∧ goesTo p.decodeCommand s .ok { s with v := v }))

/-! ### Numeric codec: encode -/

/-- R113: ENCF32, byte `28`, writes the narrowed pattern's four bytes, zeros after them, and never faults. -/
def Obligations.Encf32Narrows : Prop :=
  encode .encf32 = [0x28] ∧ ∀ s : State, ∃ w : Vector Byte 8, goesTo .encf32 s .ok { s with w := w, wn := 4 } ∧
    be [w[0], w[1], w[2], w[3]] = (narrow64 s.v).toNat ∧ ∀ (i : Nat) (h : i < 8), 4 ≤ i → w[i] = 0

/-- R114: narrowing, branch by branch: infinities, NaNs, zeros, and for a finite non-zero value the nearest integer
`n` of `|v| / 2^q` with `q` the exponent of one unit in the last place, ties to even. -/
def Obligations.NarrowingRoundsToNearestEven : Prop :=
  ∀ v : Double,
    sign32 (narrow64 v) = sign64 v ∧
    (exp64 v = 0x7FF → frac64 v = 0 → exp32 (narrow64 v) = 0xFF ∧ frac32 (narrow64 v) = 0) ∧
    (nan64 v → exp32 (narrow64 v) = 0xFF ∧
      frac32 (narrow64 v) = if frac64 v / 2 ^ 29 = 0 then 0x400000 else frac64 v / 2 ^ 29) ∧
    (exp64 v = 0 → frac64 v = 0 → exp32 (narrow64 v) = 0 ∧ frac32 (narrow64 v) = 0) ∧
    (finite64 v → val64 v ≠ 0 → ∃ (l q : ℤ) (n : ℕ),
      (2 : ℚ) ^ l ≤ |val64 v| ∧ |val64 v| < (2 : ℚ) ^ (l + 1) ∧ q = max l (-126) - 23 ∧
      |(|val64 v| / (2 : ℚ) ^ q - n)| ≤ 1 / 2 ∧ (|(|val64 v| / (2 : ℚ) ^ q - n)| = 1 / 2 → n % 2 = 0) ∧
      ((2 : ℚ) ^ (128 : ℤ) ≤ n * (2 : ℚ) ^ q → exp32 (narrow64 v) = 0xFF ∧ frac32 (narrow64 v) = 0) ∧
      (n = 0 → exp32 (narrow64 v) = 0 ∧ frac32 (narrow64 v) = 0) ∧
      (n * (2 : ℚ) ^ q < (2 : ℚ) ^ (-126 : ℤ) → q = -149 ∧ n < 2 ^ 23 ∧ exp32 (narrow64 v) = 0 ∧ frac32 (narrow64 v) = n) ∧
      ((2 : ℚ) ^ (-126 : ℤ) ≤ n * (2 : ℚ) ^ q → n * (2 : ℚ) ^ q < (2 : ℚ) ^ (128 : ℤ) → n ≤ 2 ^ 24 ∧
        if n = 2 ^ 24 then (exp32 (narrow64 v) : ℤ) = q + 1 + 150 ∧ frac32 (narrow64 v) = 0
        else (exp32 (narrow64 v) : ℤ) = q + 150 ∧ frac32 (narrow64 v) = n - 2 ^ 23))

/-- R114's bit recipe for results that are normal numbers (derived there from the finite branch). -/
def Obligations.NarrowingBitRecipe : Prop :=
  ∀ v : Double, 897 ≤ exp64 v → exp64 v ≤ 1150 →
    ∀ t r st : ℕ, t = (exp64 v - 896) * 2 ^ 23 + frac64 v / 2 ^ 29 → r = frac64 v / 2 ^ 28 % 2 →
      st = frac64 v % 2 ^ 28 →
      (narrow64 v).toNat = (if sign64 v then 2 ^ 31 else 0) +
        (if r = 1 ∧ (st ≠ 0 ∨ t % 2 = 1) then t + 1 else t)

/-- R115: ENCFP1220, byte `29`, writes the rounded `V * 2^20` as four bytes, or faults where it does not fit. -/
def Obligations.Encfp1220Rounds : Prop :=
  encode .encfp1220 = [0x29] ∧ ∀ (s : State) (r : ℤ), r = roundHalfAway (val64 s.v * 2 ^ 20) →
    (finite64 s.v → -2 ^ 31 ≤ r → r ≤ 2 ^ 31 - 1 → ∃ w : Vector Byte 8,
      goesTo .encfp1220 s .ok { s with w := w, wn := 4 } ∧ sint 32 (be [w[0], w[1], w[2], w[3]]) = r ∧
      ∀ (i : Nat) (h : i < 8), 4 ≤ i → w[i] = 0) ∧
    (¬ finite64 s.v ∨ r < -2 ^ 31 ∨ 2 ^ 31 - 1 < r → goesTo .encfp1220 s .eRange s)

/-- R116: ENCFP1632, byte `2A`, writes the rounded `V * 2^32` as six bytes, fraction first, or faults. -/
def Obligations.Encfp1632Rounds : Prop :=
  encode .encfp1632 = [0x2A] ∧ ∀ (s : State) (r : ℤ), r = roundHalfAway (val64 s.v * 2 ^ 32) →
    (finite64 s.v → -2 ^ 47 ≤ r → r ≤ 2 ^ 47 - 1 → ∃ w : Vector Byte 8,
      goesTo .encfp1632 s .ok { s with w := w, wn := 6 } ∧
      sint 48 (be [w[4], w[5]] * 2 ^ 32 + be [w[0], w[1], w[2], w[3]]) = r ∧
      ∀ (i : Nat) (h : i < 8), 6 ≤ i → w[i] = 0) ∧
    (¬ finite64 s.v ∨ r < -2 ^ 47 ∨ 2 ^ 47 - 1 < r → goesTo .encfp1632 s .eRange s)

/-- R117: ENCF64, byte `2B`, copies `V`. -/
def Obligations.Encf64Copies : Prop :=
  encode .encf64 = [0x2B] ∧ ∀ s : State, ∃ w : Vector Byte 8, goesTo .encf64 s .ok { s with w := w, wn := 8 } ∧
    be [w[0], w[1], w[2], w[3], w[4], w[5], w[6], w[7]] = s.v.toNat

/-- R118: ENCP, byte `2C`, faults on a `PREC` above 3, and else does what the command of that precision does; with 0 or 3 it
always ends `OK`, and with 1 or 2 it does wherever the rounded value fits. -/
def Obligations.EncpSelectsByPrecision : Prop :=
  encode .encp = [0x2C] ∧ ∀ s : State,
    (3 < s.prec.toNat → goesTo .encp s .eOperand s) ∧
    (∀ p : Precision, s.prec.toNat = p.code.toNat → exec .encp s = exec p.encodeCommand s) ∧
    (s.prec.toNat = 0 ∨ s.prec.toNat = 3 → ∃ w wn, goesTo .encp s .ok { s with w := w, wn := wn }) ∧
    (s.prec.toNat = 1 → finite64 s.v → |val64 s.v| ≤ 2047 → ∃ w, goesTo .encp s .ok { s with w := w, wn := 4 }) ∧
    (s.prec.toNat = 2 → finite64 s.v → |val64 s.v| ≤ 32767 → ∃ w, goesTo .encp s .ok { s with w := w, wn := 6 })

/-! ### The codec's contract -/

/-- R120: decoding and then encoding gives back every wire pattern bit for bit, in all four precisions. -/
def Obligations.EncodeOfDecodeReproducesWire : Prop :=
  ∀ (p : Precision) (s : State), s.wn.toNat = p.width → ∃ t u : State,
    exec p.decodeCommand s = .next t ∧ t.code = Status.ok.byte ∧
    exec p.encodeCommand t = .next u ∧ u.code = Status.ok.byte ∧
    u.wn = s.wn ∧ ∀ (i : Nat) (h : i < 8), i < p.width → u.w[i] = s.w[i]

/-- R122, for the formats it gives an equation for: Float64 comes back unchanged; a fixed-point value comes back as the
rounded value, within half a step, and unchanged exactly when it was a multiple of the step and not `-0.0`. -/
def Obligations.DecodeOfEncodeLosesOnlyRounding : Prop :=
  (∀ s t u : State, exec .encf64 s = .next t → exec .decf64 t = .next u → u.v = s.v) ∧
  (∀ (p : Precision) (q : ℕ) (s t u : State), (p = .fp1220 ∧ q = 20) ∨ (p = .fp1632 ∧ q = 32) →
    exec p.encodeCommand s = .next t → t.code = Status.ok.byte → exec p.decodeCommand t = .next u →
    u.code = Status.ok.byte ∧ val64 u.v = roundHalfAway (val64 s.v * 2 ^ q) / 2 ^ q ∧
    |val64 u.v - val64 s.v| ≤ 1 / 2 ^ (q + 1) ∧
    (u.v = s.v ↔ (∃ k : ℤ, val64 s.v * 2 ^ q = k) ∧ s.v ≠ 0x8000000000000000))

/-! ### Data identifiers -/

/-- R131: DIDDEC, byte `30`, takes the three subfields out of `ID`, in place, and leaves `ID` alone. -/
def Obligations.DiddecMasksSubfields : Prop :=
  encode .diddec = [0x30] ∧ ∀ s : State, goesTo .diddec s .ok
    { s with kind := s.id &&& 0xF8F0, coord := s.id &&& 0x000C, prec := s.id &&& 0x0003 }

/-- R132: after DIDDEC the subfields are in range, and no later command can fault `E_OPERAND` on them. -/
def Obligations.SubfieldsInRangeAfterDiddec : Prop :=
  ∀ s t : State, exec .diddec s = .next t →
    t.kind &&& ~~~(0xF8F0 : Half) = 0 ∧ t.coord &&& ~~~(0x000C : Half) = 0 ∧ t.prec.toNat ≤ 3 ∧
    ∀ (i : Instr) (u : State), i = .didenc ∨ i = .dsize ∨ i = .decp ∨ i = .encp → exec i t = .next u →
      u.code ≠ Status.eOperand.byte

/-- R133: DIDENC, byte `31`, joins the three subfields, or faults when one has a bit outside its own mask. -/
def Obligations.DidencJoinsSubfields : Prop :=
  encode .didenc = [0x31] ∧ ∀ s : State,
    (s.kind &&& ~~~(0xF8F0 : Half) = 0 → s.coord &&& ~~~(0x000C : Half) = 0 → s.prec &&& ~~~(0x0003 : Half) = 0 →
      goesTo .didenc s .ok { s with id := s.kind ||| s.coord ||| s.prec }) ∧
    (s.kind &&& ~~~(0xF8F0 : Half) ≠ 0 ∨ s.coord &&& ~~~(0x000C : Half) ≠ 0 ∨ s.prec &&& ~~~(0x0003 : Half) ≠ 0 →
      goesTo .didenc s .eOperand s)

/-- R134: both round trips of the identifier codec. -/
def Obligations.IdentifierRoundTrips : Prop :=
  (∀ s t u : State, exec .didenc s = .next t → t.code = Status.ok.byte → exec .diddec t = .next u →
    u.kind = s.kind ∧ u.coord = s.coord ∧ u.prec = s.prec) ∧
  (∀ s t : State, exec .diddec s = .next t → goesTo .didenc t .ok { t with id := s.id &&& 0xF8FF })

/-- R137: DSIZE, byte `32`, by the class that `KINDTAB` gives the kind; for every table R136 allows the size fits the
16 bits of `SZ`; the Quaternion row, which every such table has, gives 4 widths. -/
def Obligations.DsizeLooksUpKind : Prop :=
  encode .dsize = [0x32] ∧
  (∀ (tab : KindTable) (kind : Half) (p : Precision), Config.tableLegal tab = true →
    (tab.lookup kind = none → dataSize tab kind p = 0) ∧
    (∀ m, tab.lookup kind = some (.mult m) → dataSize tab kind p = m * p.width) ∧
    (∀ n, tab.lookup kind = some (.fixed n) → dataSize tab kind p = n) ∧
    dataSize tab kind p < 65536) ∧
  Config.tableLegal Config.kindTab = true ∧
  ∀ s : State,
    (3 < s.prec.toNat → goesTo .dsize s .eOperand s) ∧
    (∀ p : Precision, s.prec.toNat = p.code.toNat → ∃ sz : Half, goesTo .dsize s .ok { s with sz := sz } ∧
      sz.toNat = dataSize Config.kindTab s.kind p ∧
      (s.kind = 0x2010 → sz.toNat = 4 * p.width) ∧
      (s.kind &&& ~~~(0xF8F0 : Half) ≠ 0 → sz.toNat = 0))

/-! ### Frames -/

/-- R151: PUSH, bytes `40`, the 16-bit count and the data, appends all its bytes, or none and `E_FULL`. -/
def Obligations.PushAppendsOrFaults : Prop :=
  ∀ (s : State) (data : Bytes),
    (data.length ≤ 65535 → ∃ hi lo : Byte, encode (.push data) = 0x40 :: hi :: lo :: data ∧
      hi.toNat * 256 + lo.toNat = data.length) ∧
    (s.rxb.length + data.length ≤ Config.rxCap → goesTo (.push data) s .ok { s with rxb := s.rxb ++ data }) ∧
    (Config.rxCap < s.rxb.length + data.length → goesTo (.push data) s .eFull s)

/-- R152, R155: SPLIT, bytes `42 f`, finds the first marker, waits while the header or the frame is not all there, and else emits the
header, payload and checksum bytes as the token and clears `FV`. -/
def Obligations.SplitCutsFirstFrame : Prop :=
  ∀ (s : State) (f : Byte),
    encode (.split f) = [0x42, f] ∧
    (1 < f.toNat → goesTo (.split f) s .eOperand s) ∧
    (f.toNat ≤ 1 → (∀ i, ¬ markerAt s.rxb i) →
      goesTo (.split f) s (if f = 0 then .needMore else .endOfStream)
        { s with rxb := if s.rxb.getLast? = some 0xFA then [0xFA] else [] }) ∧
    (f.toNat ≤ 1 → ∀ (i : Nat) (b : Bytes), markerAt s.rxb i → (∀ j, j < i → ¬ markerAt s.rxb j) → b = s.rxb.drop i →
      (b.length < 4 ∨ (b[3]? = some 0xFF ∧ b.length < 6) →
        goesTo (.split f) s (if f = 0 then .needMore else .endOfStream) { s with rxb := b }) ∧
      (∀ hdr plen, headerSays b hdr plen → b.length < hdr + plen + 1 →
        goesTo (.split f) s (if f = 0 then .needMore else .endOfStream) { s with rxb := b }) ∧
      (∀ hdr plen, headerSays b hdr plen → hdr + plen + 1 ≤ b.length →
        ∃ t, exec (.split f) s = .next t ∧
          ends .ok false { s with frm := b.take (hdr + plen + 1), rxb := b.drop (hdr + plen + 1) } t))

/-- R156 (a), (b), (d), as R152 makes them true: a SPLIT that waits leaves RXB in one of three shapes and, repeated,
changes nothing; a token begins with `FA FF`. -/
def Obligations.WaitingSplitIsIdempotent : Prop :=
  ∀ (s t : State) (f : Byte), exec (.split f) s = .next t →
    (t.code = Status.needMore.byte ∨ t.code = Status.endOfStream.byte →
      (t.rxb = [] ∨ t.rxb = [0xFA] ∨ ∃ rest, t.rxb = 0xFA :: 0xFF :: rest) ∧ exec (.split f) t = .next t ∧ t.frm = s.frm) ∧
    (t.code = Status.ok.byte → ∃ rest, t.frm = 0xFA :: 0xFF :: rest ∧ 5 ≤ t.flen ∧ t.flen ≤ 65542)

/-- R152's own example: after a token, RXB may begin with garbage (so the three shapes that R34 and R156 (a) claim
after any SPLIT hold only after one that waits; log entry 10). -/
def Obligations.TokenMayLeaveGarbage : Prop :=
  ∀ s : State, s.rxb = [0x11, 0xFA, 0x22, 0x33, 0xFA, 0xFF, 0x30, 0x00, 0xD1, 0xFA, 0x01, 0x44] →
    ∃ t, exec (.split 0) s = .next t ∧
      ends .ok false { s with frm := [0xFA, 0xFF, 0x30, 0x00, 0xD1], rxb := [0xFA, 0x01, 0x44] } t ∧
      goesTo (.split 0) t .needMore { t with rxb := [] }

/-- R157: the end-of-stream flag changes the code where no token is complete, and nothing else. -/
def Obligations.EndOfStreamChangesOnlyCode : Prop :=
  ∀ s t u : State, exec (.split 0) s = .next t → exec (.split 1) s = .next u →
    (t.code = Status.ok.byte → u = t) ∧
    (t.code ≠ Status.ok.byte → t.code = Status.needMore.byte ∧ endsWith .endOfStream t u)

/-- R158, R159: the checks of VALIDATE, byte `43`, in their order, and the registers it writes when all pass. -/
def Obligations.ValidateChecksInOrder : Prop :=
  encode .validate = [0x43] ∧ ∀ s : State,
    (s.flen < 5 → goesTo .validate s .eShort s) ∧
    (5 ≤ s.flen → s.frm[0]? ≠ some 0xFA → goesTo .validate s .ePreamble s) ∧
    (5 ≤ s.flen → s.frm[0]? = some 0xFA → s.frm[1]? ≠ some 0xFF → goesTo .validate s .eBusAddr s) ∧
    (5 ≤ s.flen → markerAt s.frm 0 →
      (s.frm[3]? = some 0xFF → s.flen < 7 → goesTo .validate s .eShort s) ∧
      (∀ plen, headerSays s.frm 6 plen → 7 ≤ s.flen → plen < 255 ∨ 2048 < plen → goesTo .validate s .eExtLen s) ∧
      (∀ hdr plen, headerSays s.frm hdr plen → (hdr = 6 → 7 ≤ s.flen ∧ 255 ≤ plen ∧ plen ≤ 2048) →
        (s.flen < hdr + plen + 1 → goesTo .validate s .eShort s) ∧
        (hdr + plen + 1 < s.flen → goesTo .validate s .eLength s) ∧
        (s.flen = hdr + plen + 1 → sumBytes (s.frm.drop 1) % 256 ≠ 0 → goesTo .validate s .eChecksum s) ∧
        (s.flen = hdr + plen + 1 → sumBytes (s.frm.drop 1) % 256 = 0 →
          ∃ (t : State) (mid : Byte) (poff : BitVec 3) (pl : BitVec 12),
            exec .validate s = .next t ∧ s.frm[2]? = some mid ∧ poff.toNat = hdr ∧ pl.toNat = plen ∧
            ends .ok true { s with mid := mid, poff := poff, plen := pl, cur := 0 } t)))

/-- R74, R70, R71: VALIDATE ends `OK` exactly on the frames of the wire format, standard or extended. -/
def Obligations.ValidateAcceptsExactlyWireFrames : Prop :=
  ∀ s : State,
    (∃ t, exec .validate s = .next t ∧ t.code = Status.ok.byte) ↔ ∃ (mid : Byte) (payload : Bytes), wireFrame mid payload s.frm

/-- R162: changing MID, one payload byte or the checksum byte of a frame that passed makes VALIDATE end `E_CHECKSUM`;
changing the length byte makes it fault before the checksum. -/
def Obligations.MutatedFrameFailsValidate : Prop :=
  ∀ (s t : State) (k : Nat) (b : Byte), exec .validate s = .next t → t.code = Status.ok.byte →
    k < s.flen → s.frm[k]? ≠ some b →
    (k = 2 ∨ t.poff.toNat ≤ k → goesTo .validate { s with frm := s.frm.set k b } .eChecksum { s with frm := s.frm.set k b }) ∧
    (k = 3 → ∃ c, (c = .eShort ∨ c = .eLength ∨ c = .eExtLen) ∧
      goesTo .validate { s with frm := s.frm.set k b } c { s with frm := s.frm.set k b })

/-- R164: CONSTRUCT, bytes `44 mid n` and the payload, builds the standard frame of its operands with the checksum that makes the sum zero, clears `FV`,
and faults above 254 payload bytes. -/
def Obligations.ConstructBuildsFrame : Prop :=
  ∀ (s : State) (mid : Byte) (payload : Bytes),
    encode (.construct mid payload) = 0x44 :: mid :: BitVec.ofNat 8 payload.length :: payload ∧
    (payload.length ≤ 254 → ∃ (t : State) (c : Byte), exec (.construct mid payload) s = .next t ∧
      ends .ok false { s with frm := [0xFA, 0xFF, mid, BitVec.ofNat 8 payload.length] ++ payload ++ [c] } t ∧
      c.toNat = (0x100 - (0xFF + mid.toNat + payload.length + sumBytes payload) % 256) % 256) ∧
    (254 < payload.length → goesTo (.construct mid payload) s .eOperand s)

/-- R165: every frame CONSTRUCT builds passes VALIDATE, which reads back its identifier and payload length. -/
def Obligations.ConstructedFrameValidates : Prop :=
  ∀ (s t : State) (mid : Byte) (payload : Bytes), payload.length ≤ 254 → exec (.construct mid payload) s = .next t →
    ∃ u, exec .validate t = .next u ∧ u.code = Status.ok.byte ∧ u.fv = true ∧ u.mid = mid ∧ u.poff.toNat = 4 ∧
      u.plen.toNat = payload.length ∧ u.frm = t.frm

/-- R167: LDF, bytes `45`, the 16-bit count and the data, replaces FRM with its bytes and clears `FV`. -/
def Obligations.LdfReplacesFrame : Prop :=
  ∀ (s : State) (data : Bytes),
    (data.length ≤ 65535 → ∃ hi lo : Byte, encode (.ldf data) = 0x45 :: hi :: lo :: data ∧
      hi.toNat * 256 + lo.toNat = data.length) ∧
    ∃ t, exec (.ldf data) s = .next t ∧ ends .ok false { s with frm := data } t

/-- R156 (e): from a stream of garbage, a well-formed frame, garbage and a second well-formed frame, two SPLITs cut
out exactly the two frames, in order, and each passes VALIDATE, provided no garbage run holds a marker. -/
def Obligations.SplitResynchronises : Prop :=
  ∀ (s : State) (g1 f1 g2 f2 : Bytes) (m1 m2 : Byte) (p1 p2 : Bytes),
    (∀ i, ¬ markerAt g1 i) → (∀ i, ¬ markerAt g2 i) → wireFrame m1 p1 f1 → wireFrame m2 p2 f2 →
    s.rxb = g1 ++ f1 ++ g2 ++ f2 →
    ∃ t1 t2 u1 u2 : State,
      exec (.split 0) s = .next t1 ∧ t1.code = Status.ok.byte ∧ t1.frm = f1 ∧ t1.rxb = g2 ++ f2 ∧
      exec .validate t1 = .next u1 ∧ u1.code = Status.ok.byte ∧ u1.mid = m1 ∧ u1.plen.toNat = p1.length ∧
      exec (.split 0) u1 = .next t2 ∧ t2.code = Status.ok.byte ∧ t2.frm = f2 ∧ t2.rxb = [] ∧
      exec .validate t2 = .next u2 ∧ u2.code = Status.ok.byte ∧ u2.mid = m2 ∧ u2.plen.toNat = p2.length

/-! ### The sub-packet walk -/

/-- R181: SPNEXT, byte `50`, in its cases, in every state that meets R36. -/
def Obligations.SpnextStepsTheWalk : Prop :=
  encode .spnext = [0x50] ∧ ∀ s : State, s.Inv →
    (s.fv = false → goesTo .spnext s .eState s) ∧
    (s.fv = true → s.mid ≠ Config.midMtData2 → goesTo .spnext s .eState s) ∧
    (s.fv = true → s.mid = Config.midMtData2 →
      ∀ (rem : ℤ) (h : Nat), rem = s.plen.toNat - s.cur.toNat → h = s.poff.toNat + s.cur.toNat →
      (rem = 0 → goesTo .spnext s .noMore s) ∧
      (rem ≠ 0 → rem < 3 → goesTo .spnext s .noMoreMalformed s) ∧
      (3 ≤ rem → ∃ hi lo l : Byte, s.frm[h]? = some hi ∧ s.frm[h + 1]? = some lo ∧ s.frm[h + 2]? = some l ∧
        (rem < 3 + l.toNat → goesTo .spnext s .noMoreMalformed s) ∧
        (3 + l.toNat ≤ rem → ∃ (id : Half) (spoff cur : BitVec 12),
          id.toNat = hi.toNat * 256 + lo.toNat ∧ spoff.toNat = h + 3 ∧ cur.toNat = s.cur.toNat + 3 + l.toNat ∧
          goesTo .spnext s .ok { s with id := id, splen := l, spoff := spoff, cur := cur })))

/-- R184: in every state that meets R36, SPNEXT never reads outside FRM; what it returns lies inside the payload and the
cursor moves forward and never passes `PLEN`. -/
def Obligations.SpnextStaysInsidePayload : Prop :=
  ∀ s : State, s.Inv → ∃ t, exec .spnext s = .next t ∧
    (t.code = Status.ok.byte → s.poff.toNat + s.cur.toNat + 3 = t.spoff.toNat ∧
      t.spoff.toNat + t.splen.toNat ≤ s.poff.toNat + s.plen.toNat ∧ s.poff.toNat + s.plen.toNat < s.flen ∧
      s.cur.toNat + 3 ≤ t.cur.toNat ∧ t.cur.toNat ≤ t.plen.toNat)

/-- R180, R185: where a sub-packet stands at the cursor, whatever its identifier, SPNEXT returns it and moves the cursor
past it; at the end of the payload it reports `NOMORE`. -/
def Obligations.SpnextReturnsSubPacket : Prop :=
  ∀ (s t : State) (before after : Bytes) (id : Half) (data : Bytes), data.length ≤ 255 →
    wireFrame Config.midMtData2 (before ++ subPacket id data ++ after) s.frm →
    exec .validate s = .next t →
    ∀ u : State, u = { t with cur := BitVec.ofNat 12 before.length } →
    ∃ r, exec .spnext u = .next r ∧ r.code = Status.ok.byte ∧ r.id = id ∧ r.splen.toNat = data.length ∧
      (r.frm.drop r.spoff.toNat).take r.splen.toNat = data ∧ r.cur.toNat = before.length + 3 + data.length ∧
      (after = [] → goesTo .spnext r .noMore r)

/-! ### The whole machine -/

/-- R222: every fault is precise: but for `SR.CODE`, and `EINFO` when the code is `E_DECODE`, nothing changes; so it is
of every step, illegal commands among them (what the host still has to present is left open). -/
def Obligations.FaultsChangeNothingElse : Prop :=
  (∀ (i : Instr) (s t : State), exec i s = .next t → codeIsFault t.code = true →
    t.fv = s.fv ∧ t.srReserved = s.srReserved ∧
    (t = { s with sr := t.sr } ∨ (t.code = Status.eDecode.byte ∧ t = { s with sr := t.sr, einfo := t.einfo }))) ∧
  (∀ s t : State, step s = .next t → codeIsFault t.code = true →
    t.fv = s.fv ∧ t.srReserved = s.srReserved ∧
    (t = { s with sr := t.sr, host := t.host } ∨
      (t.code = Status.eDecode.byte ∧ t = { s with sr := t.sr, einfo := t.einfo, host := t.host })))

/-- R213: no command ends with a code its row does not list. -/
def Obligations.CodesOfEachCommand : Prop :=
  ∀ (i : Instr) (s t : State), exec i s = .next t → ∃ c ∈ statuses i, t.code = c.byte

/-- R22, R32: a register or buffer that R22 and R32 do not list as written by a command is unchanged by it; no command
but RESET writes `SR[15:9]`, and none touches what the host has still to present (the model's, log entry 1). -/
def Obligations.OnlyListedCommandsWriteRegisters : Prop :=
  ∀ (i : Instr) (s t : State), exec i s = .next t → t.host = s.host ∧ (i ≠ .reset →
    (writesWire i = false → t.w = s.w ∧ t.wn = s.wn) ∧
    (writesValue i = false → t.v = s.v) ∧
    (writesId i = false → t.id = s.id) ∧
    (writesSubfields i = false → t.kind = s.kind ∧ t.coord = s.coord ∧ t.prec = s.prec) ∧
    (i ≠ .dsize → t.sz = s.sz) ∧
    (i ≠ .validate → t.mid = s.mid ∧ t.poff = s.poff ∧ t.plen = s.plen) ∧
    (i ≠ .validate → i ≠ .spnext → t.cur = s.cur) ∧
    (i ≠ .spnext → t.splen = s.splen ∧ t.spoff = s.spoff) ∧
    (replacesFrame i = false → t.frm = s.frm) ∧
    (writesReceive i = false → t.rxb = s.rxb) ∧
    t.srReserved = s.srReserved)

/-- R28: `FV` is set by a VALIDATE that ends `OK` and by nothing else, and cleared by a SPLIT that emits a token, by
CONSTRUCT, by LDF and by RESET and by nothing else; FRM changes only where `FV` is cleared; so `FV = 1` keeps meaning
what R28 derives: FRM passes VALIDATE, which gives the `MID`, `POFF` and `PLEN` that are there. -/
def Obligations.FvFollowsTheFrame : Prop :=
  (∀ s : State, s.FrameHolds ↔ ∃ u, exec .validate s = .next u ∧ u.code = Status.ok.byte ∧
    u.mid = s.mid ∧ u.poff = s.poff ∧ u.plen = s.plen) ∧
  ∀ (i : Instr) (s t : State), exec i s = .next t →
    (t.code = Status.ok.byte → i = .validate → t.fv = true) ∧
    (t.code = Status.ok.byte → (replacesFrame i = true ∨ i = .reset) → t.fv = false) ∧
    (t.fv ≠ s.fv → t.code = Status.ok.byte ∧ (i = .validate ∨ replacesFrame i = true ∨ i = .reset)) ∧
    (t.frm ≠ s.frm → t.fv = false) ∧
    ((s.fv = true → s.FrameHolds) → t.fv = true → t.FrameHolds)

/-- R30: `EINFO` is written only by a command that ends with `E_DECODE`, with these four fields, or by RESET. -/
def Obligations.EinfoHoldsLastDecodeFault : Prop :=
  ∀ (i : Instr) (s t : State), exec i s = .next t → i ≠ .reset →
    (t.code ≠ Status.eDecode.byte → t.einfo = s.einfo) ∧
    (t.code = Status.eDecode.byte → decodes i = true ∧ t.einfo.extractLsb' 0 16 = s.id ∧
      t.einfo.extractLsb' 18 4 = s.wn ∧ t.einfo.extractLsb' 22 10 = 0 ∧
      ∃ p : Precision, t.einfo.extractLsb' 16 2 = p.code ∧ s.wn.toNat ≠ p.width ∧
        (i = p.decodeCommand ∨ (i = .decp ∧ s.prec.toNat = p.code.toNat)))
end

