-- ==== Sys2Proof/Laws/Bytes.lean ====
section
/-! SUPPORT. Big-endian values, two's complement, byte sums and the taking of exact byte counts. -/

namespace Sys2Proof

/-! ### Big-endian values -/

@[simp] theorem be_nil : be [] = 0 := rfl
@[simp] theorem be_cons (b : Byte) (rest : Bytes) : be (b :: rest) = b.toNat * 256 ^ rest.length + be rest := rfl

theorem be_lt (b : Bytes) : be b < 256 ^ b.length := by
  induction b with
  | nil => simp
  | cons a t ih =>
    have ha : a.toNat < 256 := a.isLt
    have h : (a.toNat + 1) * 256 ^ t.length ≤ 256 * 256 ^ t.length := Nat.mul_le_mul_right _ ha
    rw [be_cons, List.length_cons, Nat.pow_succ]
    linarith [Nat.add_mul a.toNat 1 (256 ^ t.length)]

theorem be_append (a b : Bytes) : be (a ++ b) = be a * 256 ^ b.length + be b := by
  induction a with
  | nil => simp
  | cons x t ih => simp only [List.cons_append, be_cons, ih, List.length_append]; ring

@[simp] theorem bytesBe_length (n v : Nat) : (bytesBe n v).length = n := by
  induction n with
  | zero => rfl
  | succ n ih => simp [bytesBe, ih]

theorem be_bytesBe_mod (n v : Nat) : be (bytesBe n v) = v % 256 ^ n := by
  induction n with
  | zero => simp [bytesBe, Nat.mod_one]
  | succ n ih =>
    rw [bytesBe, be_cons, ih, bytesBe_length, BitVec.toNat_ofNat, show (2 : Nat) ^ 8 = 256 from rfl, Nat.pow_succ,
      Nat.mod_mul (a := 256 ^ n), Nat.mul_comm, Nat.add_comm]

theorem be_bytesBe {n v : Nat} (h : v < 256 ^ n) : be (bytesBe n v) = v := by
  rw [be_bytesBe_mod, Nat.mod_eq_of_lt h]

theorem bytesBe_mod (n v k : Nat) (h : n ≤ k) : bytesBe n (v % 256 ^ k) = bytesBe n v := by
  induction n with
  | zero => rfl
  | succ n ih =>
    rw [bytesBe, bytesBe, ih (by omega)]
    congr 1
    apply BitVec.eq_of_toNat_eq
    rw [BitVec.toNat_ofNat, BitVec.toNat_ofNat]
    obtain ⟨j, rfl⟩ : ∃ j, k = n + 1 + j := ⟨k - (n + 1), by omega⟩
    have h1 : (256 : Nat) ^ (n + 1 + j) = 256 ^ n * (256 * 256 ^ j) := by ring
    rw [h1, Nat.mod_mul_right_div_self]
    exact Nat.mod_mul_right_mod _ _ _

theorem bytesBe_be (b : Bytes) : bytesBe b.length (be b) = b := by
  induction b with
  | nil => rfl
  | cons a t ih =>
    have hlt := be_lt t
    have hp : 0 < 256 ^ t.length := by positivity
    rw [List.length_cons, bytesBe, be_cons]
    have h1 : (a.toNat * 256 ^ t.length + be t) / 256 ^ t.length = a.toNat := by
      rw [Nat.add_comm, Nat.add_mul_div_right _ _ hp, Nat.div_eq_of_lt hlt, Nat.zero_add]
    have h2 : bytesBe t.length (a.toNat * 256 ^ t.length + be t) = t := by
      rw [← bytesBe_mod _ _ _ (le_refl _), Nat.mul_add_mod', Nat.mod_eq_of_lt hlt, ih]
    rw [h1, h2]
    simp
/-- Equal length and equal value make equal byte sequences. -/
theorem be_injective {a b : Bytes} (hl : a.length = b.length) (hv : be a = be b) : a = b := by
  rw [← bytesBe_be a, ← bytesBe_be b, hl, hv]

/-! ### Two's complement (R15) -/

theorem sint_range {n u : Nat} (hn : 0 < n) (h : u < 2 ^ n) : -(2 ^ (n - 1) : Int) ≤ sint n u ∧ sint n u < 2 ^ (n - 1) := by
  obtain ⟨m, rfl⟩ : ∃ m, n = m + 1 := ⟨n - 1, by omega⟩
  simp only [sint, Nat.add_sub_cancel]
  have h2 : (u : Int) < 2 ^ (m + 1) := by exact_mod_cast h
  rw [pow_succ] at h2
  have hp : (0 : Int) < 2 ^ m := by positivity
  split
  · rename_i h1
    have h1' : (u : Int) < 2 ^ m := by exact_mod_cast h1
    constructor <;> omega
  · rename_i h1
    have h1' : (2 : Int) ^ m ≤ u := by exact_mod_cast (Nat.le_of_not_lt h1)
    rw [pow_succ]
    constructor <;> omega

theorem uint_sint {n u : Nat} (h : u < 2 ^ n) : uint n (sint n u) = u := by
  have h2 : (u : Int) < 2 ^ n := by exact_mod_cast h
  unfold uint sint
  split
  · rw [Int.emod_eq_of_lt (by omega) h2]; rfl
  · rw [Int.sub_emod_right, Int.emod_eq_of_lt (by omega) h2]; rfl

theorem uint_lt (n : Nat) (s : Int) : uint n s < 2 ^ n := by
  have hp : (0 : Int) < 2 ^ n := by positivity
  have h := Int.emod_lt_of_pos s hp
  have h0 := Int.emod_nonneg s (ne_of_gt hp)
  unfold uint
  zify
  rwa [Int.toNat_of_nonneg h0]

theorem sint_uint {n : Nat} {s : Int} (hn : 0 < n) (h1 : -(2 ^ (n - 1) : Int) ≤ s) (h2 : s < 2 ^ (n - 1)) :
    sint n (uint n s) = s := by
  obtain ⟨m, rfl⟩ : ∃ m, n = m + 1 := ⟨n - 1, by omega⟩
  simp only [Nat.add_sub_cancel] at h1 h2
  have hp : (0 : Int) < 2 ^ m := by positivity
  have hpow : (2 : Int) ^ (m + 1) = 2 * 2 ^ m := by ring
  unfold sint uint
  simp only [Nat.add_sub_cancel]
  by_cases hs : 0 ≤ s
  · have he : s % 2 ^ (m + 1) = s := Int.emod_eq_of_lt hs (by omega)
    rw [he, if_pos (by zify; rw [Int.toNat_of_nonneg hs]; exact h2), Int.toNat_of_nonneg hs]
  · have he : s % 2 ^ (m + 1) = s + 2 ^ (m + 1) := by
      rw [← Int.add_emod_right, Int.emod_eq_of_lt (by omega) (by omega)]
    have h0 : 0 ≤ s + 2 ^ (m + 1) := by omega
    rw [he, if_neg (by zify; rw [Int.toNat_of_nonneg h0]; omega), Int.toNat_of_nonneg h0]
    omega

/-! ### Byte sums (R73) -/

@[simp] theorem sumBytes_nil : sumBytes [] = 0 := rfl
@[simp] theorem sumBytes_cons (b : Byte) (rest : Bytes) : sumBytes (b :: rest) = b.toNat + sumBytes rest := rfl

@[simp] theorem sumBytes_append (a b : Bytes) : sumBytes (a ++ b) = sumBytes a + sumBytes b := by
  induction a with
  | nil => simp
  | cons x t ih => simp [ih]; omega

/-- Replacing one byte moves the sum by the difference of the two. -/
theorem sumBytes_set {b : Bytes} {k : Nat} (h : k < b.length) (x : Byte) :
    sumBytes (b.set k x) + b[k].toNat = sumBytes b + x.toNat := by
  induction b generalizing k with
  | nil => simp at h
  | cons a t ih =>
    cases k with
    | zero => simp; omega
    | succ k =>
      simp only [List.length_cons, Nat.add_lt_add_iff_right] at h
      have := ih h
      simp only [List.set_cons_succ, sumBytes_cons, List.getElem_cons_succ]
      omega

/-! ### Bytes at offsets -/

theorem byteAt_eq_getElem {b : Bytes} {i : Nat} (h : i < b.length) : byteAt b i = b[i] := by
  simp [byteAt, h]

theorem byteAt_of_getElem? {b : Bytes} {i : Nat} {x : Byte} (h : b[i]? = some x) : byteAt b i = x := by
  simp [byteAt, h]

theorem getElem?_of_byteAt {b : Bytes} {i : Nat} (h : i < b.length) : b[i]? = some (byteAt b i) := by
  simp [byteAt, h]

theorem wordAt_lt (b : Bytes) (i : Nat) : wordAt b i < 65536 := by
  have h1 : (byteAt b i).toNat < 256 := (byteAt b i).isLt
  have h2 : (byteAt b (i + 1)).toNat < 256 := (byteAt b (i + 1)).isLt
  unfold wordAt; omega

/-! ### Taking an exact count -/

theorem splitExact_eq_some_iff {n : Nat} {b taken rest : Bytes} :
    splitExact n b = some (taken, rest) ↔ b = taken ++ rest ∧ taken.length = n := by
  induction n generalizing b taken rest with
  | zero => cases taken <;> simp [splitExact, eq_comm]
  | succ n ih =>
    cases b with
    | nil =>
      simp only [splitExact, reduceCtorEq, false_iff]
      rintro ⟨h, hl⟩
      cases taken <;> simp_all
    | cons x t =>
      simp only [splitExact]
      cases hs : splitExact n t with
      | none =>
        simp only [reduceCtorEq, false_iff]
        rintro ⟨h, hl⟩
        cases taken with
        | nil => simp at hl
        | cons y u =>
          have h' : splitExact n t = some (u, rest) := ih.2 ⟨by simp_all, by simpa using hl⟩
          rw [hs] at h'; simp at h'
      | some pr =>
        obtain ⟨a, r⟩ := pr
        have h' := ih.1 hs
        constructor
        · intro h
          simp only [Option.some.injEq, Prod.mk.injEq] at h
          obtain ⟨rfl, rfl⟩ := h
          simp [h'.1, h'.2]
        · rintro ⟨h, hl⟩
          cases taken with
          | nil => simp at hl
          | cons y u =>
            have h2 : splitExact n t = some (u, rest) := ih.2 ⟨by simp_all, by simpa using hl⟩
            rw [hs] at h2
            simp only [Option.some.injEq, Prod.mk.injEq] at h2
            simp_all

theorem splitExact_eq_none_iff {n : Nat} {b : Bytes} : splitExact n b = none ↔ b.length < n := by
  induction n generalizing b with
  | zero => simp [splitExact]
  | succ n ih =>
    cases b with
    | nil => simp [splitExact]
    | cons x t =>
      simp only [splitExact, List.length_cons, Nat.add_lt_add_iff_right, ← ih]
      cases splitExact n t <;> simp

theorem splitExact_append (a b : Bytes) : splitExact a.length (a ++ b) = some (a, b) :=
  splitExact_eq_some_iff.2 ⟨rfl, rfl⟩

end Sys2Proof
end

