-- ==== Sys2Proof/Laws/Decode.lean ====
section
/-! SUPPORT. The decoder and the encoder: what each can answer, said once. -/

namespace Sys2Proof

/-- A 16-bit operand read back from its two bytes. -/
theorem half_of_bytes (x : Half) (rest : Bytes) (hrest : bytesBe 2 x.toNat = rest) : BitVec.ofNat 16 (be rest) = x := by
  subst hrest
  rw [be_bytesBe (by have := x.isLt; omega), BitVec.ofNat_toNat, BitVec.setWidth_eq]

/-- A 64-bit operand read back from its eight bytes. -/
theorem double_of_bytes (x : Double) : BitVec.ofNat 64 (be (bytesBe 8 x.toNat)) = x := by
  rw [be_bytesBe (by have := x.isLt; omega), BitVec.ofNat_toNat, BitVec.setWidth_eq]

/-- The two count bytes of format V16 say the count. -/
theorem be_count {n : Nat} (h : n ≤ 65535) : be (bytesBe 2 n) = n := be_bytesBe (by omega)

/-- Everything the decoder can answer for bytes that begin with `op` (R89). -/
theorem decode_cases (op : Byte) (rest : Bytes) :
    (formatOf op = none ∧ decode (op :: rest) = .illegal (.unknownOpcode op) rest) ∨
    (∃ fmt, formatOf op = some fmt ∧ decode (op :: rest) = .illegal (.truncated op) []) ∨
    (∃ fmt n operands later i, formatOf op = some fmt ∧ operandCount fmt rest = some n ∧ rest = operands ++ later ∧
      operands.length = n ∧ assemble op operands = some i ∧ decode (op :: rest) = .command i later) := by
  cases hf : formatOf op with
  | none => exact .inl ⟨rfl, by simp [decode, hf]⟩
  | some fmt =>
    right
    cases hn : operandCount fmt rest with
    | none => exact .inl ⟨fmt, rfl, by simp [decode, hf, hn]⟩
    | some n =>
      cases hs : splitExact n rest with
      | none => exact .inl ⟨fmt, rfl, by simp [decode, hf, hn, hs]⟩
      | some pr =>
        obtain ⟨operands, later⟩ := pr
        cases hi : assemble op operands with
        | none => exact .inl ⟨fmt, rfl, by simp [decode, hf, hn, hs, hi]⟩
        | some i =>
          obtain ⟨h1, h2⟩ := splitExact_eq_some_iff.1 hs
          exact .inr ⟨fmt, n, operands, later, i, rfl, hn, h1, h2, hi, by simp [decode, hf, hn, hs, hi]⟩

/-- A known opcode with all its operand bytes decodes to what the bytes assemble to. -/
theorem decode_of_operands {op : Byte} {fmt : Format} {operands later : Bytes} {i : Instr} (hf : formatOf op = some fmt)
    (hn : operandCount fmt (operands ++ later) = some operands.length) (hi : assemble op operands = some i) :
    decode (op :: (operands ++ later)) = .command i later := by
  simp [decode, hf, hn, splitExact_append, hi]

/-- A known opcode with too few operand bytes is truncated. -/
theorem decode_of_short {op : Byte} {fmt : Format} {rest : Bytes} (hf : formatOf op = some fmt)
    (hn : ∀ n, operandCount fmt rest = some n → rest.length < n) : decode (op :: rest) = .illegal (.truncated op) [] := by
  cases hc : operandCount fmt rest with
  | none => simp [decode, hf, hc]
  | some n => simp [decode, hf, hc, splitExact_eq_none_iff.2 (hn n hc)]

end Sys2Proof
end

