-- ==== Sys2Proof/Laws/State.lean ====
section
/-! SUPPORT. One lemma per field per named update of the state, and the fields of `SR` under the updates that write it. -/

namespace Sys2Proof.Machine

section
variable (s : State) (c : Status)
@[simp] theorem State.withCode_w : (s.withCode c).w = s.w := rfl
@[simp] theorem State.withCode_wn : (s.withCode c).wn = s.wn := rfl
@[simp] theorem State.withCode_v : (s.withCode c).v = s.v := rfl
@[simp] theorem State.withCode_id : (s.withCode c).id = s.id := rfl
@[simp] theorem State.withCode_kind : (s.withCode c).kind = s.kind := rfl
@[simp] theorem State.withCode_coord : (s.withCode c).coord = s.coord := rfl
@[simp] theorem State.withCode_prec : (s.withCode c).prec = s.prec := rfl
@[simp] theorem State.withCode_sz : (s.withCode c).sz = s.sz := rfl
@[simp] theorem State.withCode_mid : (s.withCode c).mid = s.mid := rfl
@[simp] theorem State.withCode_poff : (s.withCode c).poff = s.poff := rfl
@[simp] theorem State.withCode_plen : (s.withCode c).plen = s.plen := rfl
@[simp] theorem State.withCode_cur : (s.withCode c).cur = s.cur := rfl
@[simp] theorem State.withCode_splen : (s.withCode c).splen = s.splen := rfl
@[simp] theorem State.withCode_spoff : (s.withCode c).spoff = s.spoff := rfl
@[simp] theorem State.withCode_frm : (s.withCode c).frm = s.frm := rfl
@[simp] theorem State.withCode_rxb : (s.withCode c).rxb = s.rxb := rfl
@[simp] theorem State.withCode_einfo : (s.withCode c).einfo = s.einfo := rfl
@[simp] theorem State.withCode_host : (s.withCode c).host = s.host := rfl
@[simp] theorem State.withCode_flen : (s.withCode c).flen = s.flen := rfl
end

section
variable (s : State) (b : Bool)
@[simp] theorem State.withFv_w : (s.withFv b).w = s.w := rfl
@[simp] theorem State.withFv_wn : (s.withFv b).wn = s.wn := rfl
@[simp] theorem State.withFv_v : (s.withFv b).v = s.v := rfl
@[simp] theorem State.withFv_id : (s.withFv b).id = s.id := rfl
@[simp] theorem State.withFv_kind : (s.withFv b).kind = s.kind := rfl
@[simp] theorem State.withFv_coord : (s.withFv b).coord = s.coord := rfl
@[simp] theorem State.withFv_prec : (s.withFv b).prec = s.prec := rfl
@[simp] theorem State.withFv_sz : (s.withFv b).sz = s.sz := rfl
@[simp] theorem State.withFv_mid : (s.withFv b).mid = s.mid := rfl
@[simp] theorem State.withFv_poff : (s.withFv b).poff = s.poff := rfl
@[simp] theorem State.withFv_plen : (s.withFv b).plen = s.plen := rfl
@[simp] theorem State.withFv_cur : (s.withFv b).cur = s.cur := rfl
@[simp] theorem State.withFv_splen : (s.withFv b).splen = s.splen := rfl
@[simp] theorem State.withFv_spoff : (s.withFv b).spoff = s.spoff := rfl
@[simp] theorem State.withFv_frm : (s.withFv b).frm = s.frm := rfl
@[simp] theorem State.withFv_rxb : (s.withFv b).rxb = s.rxb := rfl
@[simp] theorem State.withFv_einfo : (s.withFv b).einfo = s.einfo := rfl
@[simp] theorem State.withFv_host : (s.withFv b).host = s.host := rfl
@[simp] theorem State.withFv_flen : (s.withFv b).flen = s.flen := rfl
end

section
variable (s : State) (data : Bytes)
@[simp] theorem State.loadWire_w : (s.loadWire data).w = wireOf data := rfl
@[simp] theorem State.loadWire_wn : (s.loadWire data).wn = BitVec.ofNat 4 data.length := rfl
@[simp] theorem State.loadWire_v : (s.loadWire data).v = s.v := rfl
@[simp] theorem State.loadWire_id : (s.loadWire data).id = s.id := rfl
@[simp] theorem State.loadWire_kind : (s.loadWire data).kind = s.kind := rfl
@[simp] theorem State.loadWire_coord : (s.loadWire data).coord = s.coord := rfl
@[simp] theorem State.loadWire_prec : (s.loadWire data).prec = s.prec := rfl
@[simp] theorem State.loadWire_sz : (s.loadWire data).sz = s.sz := rfl
@[simp] theorem State.loadWire_mid : (s.loadWire data).mid = s.mid := rfl
@[simp] theorem State.loadWire_poff : (s.loadWire data).poff = s.poff := rfl
@[simp] theorem State.loadWire_plen : (s.loadWire data).plen = s.plen := rfl
@[simp] theorem State.loadWire_cur : (s.loadWire data).cur = s.cur := rfl
@[simp] theorem State.loadWire_splen : (s.loadWire data).splen = s.splen := rfl
@[simp] theorem State.loadWire_spoff : (s.loadWire data).spoff = s.spoff := rfl
@[simp] theorem State.loadWire_frm : (s.loadWire data).frm = s.frm := rfl
@[simp] theorem State.loadWire_rxb : (s.loadWire data).rxb = s.rxb := rfl
@[simp] theorem State.loadWire_sr : (s.loadWire data).sr = s.sr := rfl
@[simp] theorem State.loadWire_einfo : (s.loadWire data).einfo = s.einfo := rfl
@[simp] theorem State.loadWire_host : (s.loadWire data).host = s.host := rfl
@[simp] theorem State.loadWire_flen : (s.loadWire data).flen = s.flen := rfl
end

section
variable (s : State) (f : Bytes)
@[simp] theorem State.replaceFrame_w : (s.replaceFrame f).w = s.w := rfl
@[simp] theorem State.replaceFrame_wn : (s.replaceFrame f).wn = s.wn := rfl
@[simp] theorem State.replaceFrame_v : (s.replaceFrame f).v = s.v := rfl
@[simp] theorem State.replaceFrame_id : (s.replaceFrame f).id = s.id := rfl
@[simp] theorem State.replaceFrame_kind : (s.replaceFrame f).kind = s.kind := rfl
@[simp] theorem State.replaceFrame_coord : (s.replaceFrame f).coord = s.coord := rfl
@[simp] theorem State.replaceFrame_prec : (s.replaceFrame f).prec = s.prec := rfl
@[simp] theorem State.replaceFrame_sz : (s.replaceFrame f).sz = s.sz := rfl
@[simp] theorem State.replaceFrame_mid : (s.replaceFrame f).mid = s.mid := rfl
@[simp] theorem State.replaceFrame_poff : (s.replaceFrame f).poff = s.poff := rfl
@[simp] theorem State.replaceFrame_plen : (s.replaceFrame f).plen = s.plen := rfl
@[simp] theorem State.replaceFrame_cur : (s.replaceFrame f).cur = s.cur := rfl
@[simp] theorem State.replaceFrame_splen : (s.replaceFrame f).splen = s.splen := rfl
@[simp] theorem State.replaceFrame_spoff : (s.replaceFrame f).spoff = s.spoff := rfl
@[simp] theorem State.replaceFrame_frm : (s.replaceFrame f).frm = f := rfl
@[simp] theorem State.replaceFrame_rxb : (s.replaceFrame f).rxb = s.rxb := rfl
@[simp] theorem State.replaceFrame_einfo : (s.replaceFrame f).einfo = s.einfo := rfl
@[simp] theorem State.replaceFrame_host : (s.replaceFrame f).host = s.host := rfl
@[simp] theorem State.replaceFrame_flen : (s.replaceFrame f).flen = f.length := rfl
end

section
variable (s : State) (m : Byte) (hdr len : Nat)
@[simp] theorem State.acceptFrame_w : (s.acceptFrame m hdr len).w = s.w := rfl
@[simp] theorem State.acceptFrame_wn : (s.acceptFrame m hdr len).wn = s.wn := rfl
@[simp] theorem State.acceptFrame_v : (s.acceptFrame m hdr len).v = s.v := rfl
@[simp] theorem State.acceptFrame_id : (s.acceptFrame m hdr len).id = s.id := rfl
@[simp] theorem State.acceptFrame_kind : (s.acceptFrame m hdr len).kind = s.kind := rfl
@[simp] theorem State.acceptFrame_coord : (s.acceptFrame m hdr len).coord = s.coord := rfl
@[simp] theorem State.acceptFrame_prec : (s.acceptFrame m hdr len).prec = s.prec := rfl
@[simp] theorem State.acceptFrame_sz : (s.acceptFrame m hdr len).sz = s.sz := rfl
@[simp] theorem State.acceptFrame_mid : (s.acceptFrame m hdr len).mid = m := rfl
@[simp] theorem State.acceptFrame_poff : (s.acceptFrame m hdr len).poff = BitVec.ofNat 3 hdr := rfl
@[simp] theorem State.acceptFrame_plen : (s.acceptFrame m hdr len).plen = BitVec.ofNat 12 len := rfl
@[simp] theorem State.acceptFrame_cur : (s.acceptFrame m hdr len).cur = 0 := rfl
@[simp] theorem State.acceptFrame_splen : (s.acceptFrame m hdr len).splen = s.splen := rfl
@[simp] theorem State.acceptFrame_spoff : (s.acceptFrame m hdr len).spoff = s.spoff := rfl
@[simp] theorem State.acceptFrame_frm : (s.acceptFrame m hdr len).frm = s.frm := rfl
@[simp] theorem State.acceptFrame_rxb : (s.acceptFrame m hdr len).rxb = s.rxb := rfl
@[simp] theorem State.acceptFrame_einfo : (s.acceptFrame m hdr len).einfo = s.einfo := rfl
@[simp] theorem State.acceptFrame_host : (s.acceptFrame m hdr len).host = s.host := rfl
@[simp] theorem State.acceptFrame_flen : (s.acceptFrame m hdr len).flen = s.flen := rfl
end

section
variable (s : State) (x : Half) (l : Byte)
@[simp] theorem State.advanceWalk_w : (s.advanceWalk x l).w = s.w := rfl
@[simp] theorem State.advanceWalk_wn : (s.advanceWalk x l).wn = s.wn := rfl
@[simp] theorem State.advanceWalk_v : (s.advanceWalk x l).v = s.v := rfl
@[simp] theorem State.advanceWalk_id : (s.advanceWalk x l).id = x := rfl
@[simp] theorem State.advanceWalk_kind : (s.advanceWalk x l).kind = s.kind := rfl
@[simp] theorem State.advanceWalk_coord : (s.advanceWalk x l).coord = s.coord := rfl
@[simp] theorem State.advanceWalk_prec : (s.advanceWalk x l).prec = s.prec := rfl
@[simp] theorem State.advanceWalk_sz : (s.advanceWalk x l).sz = s.sz := rfl
@[simp] theorem State.advanceWalk_mid : (s.advanceWalk x l).mid = s.mid := rfl
@[simp] theorem State.advanceWalk_poff : (s.advanceWalk x l).poff = s.poff := rfl
@[simp] theorem State.advanceWalk_plen : (s.advanceWalk x l).plen = s.plen := rfl
@[simp] theorem State.advanceWalk_cur : (s.advanceWalk x l).cur = BitVec.ofNat 12 (s.cur.toNat + 3 + l.toNat) := rfl
@[simp] theorem State.advanceWalk_splen : (s.advanceWalk x l).splen = l := rfl
@[simp] theorem State.advanceWalk_spoff : (s.advanceWalk x l).spoff = BitVec.ofNat 12 (s.poff.toNat + s.cur.toNat + 3) := rfl
@[simp] theorem State.advanceWalk_frm : (s.advanceWalk x l).frm = s.frm := rfl
@[simp] theorem State.advanceWalk_rxb : (s.advanceWalk x l).rxb = s.rxb := rfl
@[simp] theorem State.advanceWalk_sr : (s.advanceWalk x l).sr = s.sr := rfl
@[simp] theorem State.advanceWalk_einfo : (s.advanceWalk x l).einfo = s.einfo := rfl
@[simp] theorem State.advanceWalk_host : (s.advanceWalk x l).host = s.host := rfl
@[simp] theorem State.advanceWalk_flen : (s.advanceWalk x l).flen = s.flen := rfl
end

section
variable (s : State) (bytes : Bytes)
@[simp] theorem State.present_w : (s.present bytes).w = s.w := rfl
@[simp] theorem State.present_wn : (s.present bytes).wn = s.wn := rfl
@[simp] theorem State.present_v : (s.present bytes).v = s.v := rfl
@[simp] theorem State.present_id : (s.present bytes).id = s.id := rfl
@[simp] theorem State.present_kind : (s.present bytes).kind = s.kind := rfl
@[simp] theorem State.present_coord : (s.present bytes).coord = s.coord := rfl
@[simp] theorem State.present_prec : (s.present bytes).prec = s.prec := rfl
@[simp] theorem State.present_sz : (s.present bytes).sz = s.sz := rfl
@[simp] theorem State.present_mid : (s.present bytes).mid = s.mid := rfl
@[simp] theorem State.present_poff : (s.present bytes).poff = s.poff := rfl
@[simp] theorem State.present_plen : (s.present bytes).plen = s.plen := rfl
@[simp] theorem State.present_cur : (s.present bytes).cur = s.cur := rfl
@[simp] theorem State.present_splen : (s.present bytes).splen = s.splen := rfl
@[simp] theorem State.present_spoff : (s.present bytes).spoff = s.spoff := rfl
@[simp] theorem State.present_frm : (s.present bytes).frm = s.frm := rfl
@[simp] theorem State.present_rxb : (s.present bytes).rxb = s.rxb := rfl
@[simp] theorem State.present_sr : (s.present bytes).sr = s.sr := rfl
@[simp] theorem State.present_einfo : (s.present bytes).einfo = s.einfo := rfl
@[simp] theorem State.present_host : (s.present bytes).host = bytes :: s.host := rfl
@[simp] theorem State.present_flen : (s.present bytes).flen = s.flen := rfl
end

/-! ### The fields of `SR` -/

section
variable (r : BitVec 7) (b : Bool) (c : Byte)

theorem srOf_code : (srOf r b c).extractLsb' 0 8 = c := by
  have h : (r ++ BitVec.ofBool b ++ c : BitVec (7 + 1 + 8)).extractLsb' 0 8 = c := by
    ext i hi
    rw [BitVec.getElem_extractLsb', BitVec.getLsbD_append]
    simp [hi]
  exact h

theorem srOf_fv : (srOf r b c).getLsbD 8 = b := by
  have h : (r ++ BitVec.ofBool b ++ c : BitVec (7 + 1 + 8)).getLsbD 8 = b := by
    rw [BitVec.getLsbD_append, BitVec.getLsbD_append]; simp
  exact h

theorem srOf_reserved : (srOf r b c).extractLsb' 9 7 = r := by
  have h : (r ++ BitVec.ofBool b ++ c : BitVec (7 + 1 + 8)).extractLsb' 9 7 = r := by
    ext i hi
    rw [BitVec.getElem_extractLsb', BitVec.getLsbD_append, BitVec.getLsbD_append]
    simp [show ¬ 9 + i < 8 by omega, show 9 + i - 8 - 1 = i by omega, show 9 + i - 8 ≠ 0 by omega,
      BitVec.getLsbD_eq_getElem hi]
  exact h

/-- `SR` is its three fields. -/
theorem srOf_fields (x : BitVec 16) : srOf (x.extractLsb' 9 7) (x.getLsbD 8) (x.extractLsb' 0 8) = x := by
  apply BitVec.eq_of_getLsbD_eq
  intro i hi
  have h : (x.extractLsb' 9 7 ++ BitVec.ofBool (x.getLsbD 8) ++ x.extractLsb' 0 8 : BitVec (7 + 1 + 8)).getLsbD i
      = x.getLsbD i := by
    rw [BitVec.getLsbD_append, BitVec.getLsbD_append]
    by_cases h8 : i < 8
    · simp [h8]
    · by_cases h9 : i = 8
      · subst h9; simp
      · simp [h8, show ¬ i - 8 < 1 by omega, show i - 8 - 1 < 7 by omega, show 9 + (i - 8 - 1) = i by omega]
  exact h

end

section
variable (s : State) (c d : Status) (b : Bool)

@[simp] theorem State.withCode_code : (s.withCode c).code = c.byte := srOf_code _ _ _
@[simp] theorem State.withCode_fv : (s.withCode c).fv = s.fv := srOf_fv _ _ _
@[simp] theorem State.withCode_srReserved : (s.withCode c).srReserved = s.srReserved := srOf_reserved _ _ _
@[simp] theorem State.withFv_code : (s.withFv b).code = s.code := srOf_code _ _ _
@[simp] theorem State.withFv_fv : (s.withFv b).fv = b := srOf_fv _ _ _
@[simp] theorem State.withFv_srReserved : (s.withFv b).srReserved = s.srReserved := srOf_reserved _ _ _

/-- `SR` is its three fields. -/
theorem State.sr_eq_fields : s.sr = srOf s.srReserved s.fv s.code := (srOf_fields s.sr).symm

@[simp] theorem State.withCode_withCode : (s.withCode d).withCode c = s.withCode c := by
  show { s with sr := srOf (s.withCode d).srReserved (s.withCode d).fv c.byte } = s.withCode c
  rw [State.withCode_srReserved, State.withCode_fv]
  rfl

end

section
variable (s : State) (f : Bytes) (m : Byte) (hdr len : Nat)

@[simp] theorem State.replaceFrame_fv : (s.replaceFrame f).fv = false := State.withFv_fv _ _
@[simp] theorem State.replaceFrame_code : (s.replaceFrame f).code = s.code := State.withFv_code _ _
@[simp] theorem State.replaceFrame_srReserved : (s.replaceFrame f).srReserved = s.srReserved := State.withFv_srReserved _ _
@[simp] theorem State.acceptFrame_fv : (s.acceptFrame m hdr len).fv = true := State.withFv_fv _ _
@[simp] theorem State.acceptFrame_code : (s.acceptFrame m hdr len).code = s.code := State.withFv_code _ _
@[simp] theorem State.acceptFrame_srReserved : (s.acceptFrame m hdr len).srReserved = s.srReserved := State.withFv_srReserved _ _

/-- An update that leaves `sr` alone leaves its fields alone. -/
theorem State.fv_of_sr (t : State) (h : t.sr = s.sr) : t.fv = s.fv := by simp [State.fv, h]
theorem State.code_of_sr (t : State) (h : t.sr = s.sr) : t.code = s.code := by simp [State.code, h]
theorem State.srReserved_of_sr (t : State) (h : t.sr = s.sr) : t.srReserved = s.srReserved := by
  simp [State.srReserved, h]

end

end Sys2Proof.Machine
end

