-- ==== Sys2Proof/Laws/Ops.lean ====
section
/-! SUPPORT. What each shared operation can do, said once: how a command ends, the operand forms, the buffers and the
parameters. -/

namespace Sys2Proof.Machine

/-! ### Ending a command -/

@[simp] theorem done_eq_next {c : Status} {s t : State} : done c s = .next t ↔ t = s.withCode c := by
  simp [done, eq_comm]

@[simp] theorem fail_eq_next {c : Status} {s t : State} : fail c s = .next t ↔ t = s.withCode c := by
  simp [fail, takeFault, eq_comm]

@[simp] theorem failDecode_eq_next {p : Precision} {s t : State} :
    failDecode p s = .next t ↔ t = { s with einfo := einfoOf p s.wn s.id }.withCode .eDecode := by
  simp [failDecode, takeDecodeFault, takeFault, eq_comm]

theorem Status.byte_injective {c d : Status} (h : c.byte = d.byte) : c = d := by
  cases c <;> cases d <;> first | rfl | exact absurd h (by decide)

@[simp] theorem Status.byte_inj {c d : Status} : c.byte = d.byte ↔ c = d :=
  ⟨Status.byte_injective, fun h => h ▸ rfl⟩

/-- States that agree but for `SR` and agree on its three fields are equal. -/
theorem State.eq_of_srFields {s t : State} (h : t = { s with sr := t.sr }) (hc : t.code = s.code) (hf : t.fv = s.fv)
    (hr : t.srReserved = s.srReserved) : t = s := by
  rw [h, t.sr_eq_fields, hc, hf, hr, ← s.sr_eq_fields]

theorem ends_iff {c : Status} {b : Bool} {s t : State} : ends c b s t ↔ t = (s.withFv b).withCode c := by
  constructor
  · rintro ⟨hc, hf, hr, he⟩
    apply State.eq_of_srFields _ (by simp [hc]) (by simp [hf]) (by simp [hr])
    rw [he]; rfl
  · rintro rfl
    exact ⟨by simp, by simp, by simp, rfl⟩

theorem endsWith_iff {c : Status} {s t : State} : endsWith c s t ↔ t = s.withCode c := by
  constructor
  · rintro ⟨hc, hf, hr, he⟩
    apply State.eq_of_srFields _ (by simp [hc]) (by simp [hf]) (by simp [hr])
    rw [he]; rfl
  · rintro rfl
    exact ⟨by simp, by simp, by simp, rfl⟩

theorem goesTo_iff {i : Instr} {s s' : State} {c : Status} : goesTo i s c s' ↔ exec i s = .next (s'.withCode c) := by
  simp [goesTo, endsWith_iff]

theorem goesTo_of_done {i : Instr} {s s' : State} {c : Status} (h : exec i s = done c s') : goesTo i s c s' :=
  goesTo_iff.2 h

theorem goesTo_of_fail {i : Instr} {s : State} {c : Status} (h : exec i s = fail c s) : goesTo i s c s := goesTo_iff.2 h

/-! ### Operands -/

theorem Precision.width_cases (p : Precision) : p.width = 4 ∨ p.width = 6 ∨ p.width = 8 := by cases p <;> decide
theorem Precision.width_le (p : Precision) : p.width ≤ 8 := by cases p <;> decide

theorem precisionOf_eq_some_iff {x : Half} {p : Precision} : precisionOf x = some p ↔ x.toNat = p.code.toNat := by
  unfold precisionOf
  split <;> rename_i h <;> cases p <;> simp_all [Precision.code]

theorem precisionOf_eq_none_iff {x : Half} : precisionOf x = none ↔ 3 < x.toNat := by
  unfold precisionOf
  split <;> rename_i h <;> first | (simp [h]; done) | skip
  simp only [true_iff]
  by_contra hc
  interval_cases hx : x.toNat <;> simp_all

@[simp] theorem wireOf_getElem (data : Bytes) (i : Nat) (h : i < 8) : (wireOf data)[i] = byteAt data i := by
  simp only [wireOf]
  interval_cases i <;> rfl

theorem wire_eq (s : State) : s.wire 8 = [s.w[0], s.w[1], s.w[2], s.w[3], s.w[4], s.w[5], s.w[6], s.w[7]] := by
  apply List.ext_getElem
  · simp [State.wire]
  · intro i h1 h2
    simp only [State.wire, List.getElem_take, Vector.getElem_toList]
    simp only [List.length_cons, List.length_nil] at h2
    interval_cases i <;> rfl

theorem wire_eq_take (s : State) {n : Nat} (h : n ≤ 8) : s.wire n = (s.wire 8).take n := by
  simp [State.wire, List.take_take, Nat.min_eq_left h]

@[simp] theorem wire_length (s : State) (n : Nat) : (s.wire n).length = min n 8 := by simp [State.wire]

theorem wire_loadWire (s : State) (data : Bytes) (h : data.length ≤ 8) : (s.loadWire data).wire data.length = data := by
  apply List.ext_getElem
  · simp [h]
  · intro i h1 h2
    simp only [State.wire, List.getElem_take, Vector.getElem_toList, State.loadWire_w]
    rw [wireOf_getElem data i (by omega), byteAt_eq_getElem h2]

/-! ### Parameters and buffers -/

theorem rxCap_ge : 65542 ≤ Config.rxCap := Config.params.rxCap_ge
theorem frmCap_ge : 65542 ≤ Config.frmCap := Config.params.frmCap_ge
theorem kindTab_legal : Config.tableLegal Config.kindTab = true := Config.params.kindTab_legal

theorem kindTab_quaternion : Config.kindTab.lookup 0x2010 = some (.mult 4) := by
  have h := kindTab_legal
  simp only [Config.tableLegal, Bool.and_eq_true, beq_iff_eq] at h
  exact h.2

theorem mem_of_lookup {t : KindTable} {k : Half} {c : SizeClass} (h : t.lookup k = some c) : (k, c) ∈ t := by
  induction t with
  | nil => simp at h
  | cons row rest ih =>
    obtain ⟨a, b⟩ := row
    rw [List.lookup_cons] at h
    split at h
    · rename_i hk; simp only [beq_iff_eq] at hk; simp_all
    · exact List.mem_cons_of_mem _ (ih h)

theorem kindTab_row {k : Half} {c : SizeClass} (h : Config.kindTab.lookup k = some c) :
    k &&& ~~~Config.kindMask = 0 ∧ Config.classLegal c = true := by
  have hl := kindTab_legal
  simp only [Config.tableLegal, Bool.and_eq_true, List.all_eq_true, beq_iff_eq] at hl
  exact hl.1 _ (mem_of_lookup h)

theorem fitsReceive_iff {n : Nat} : fitsReceive n = true ↔ n ≤ Config.rxCap := by
  have := rxCap_ge
  simp only [fitsReceive, Config.minCapacity, Bool.or_eq_true, decide_eq_true_eq]
  omega

theorem memory_wf_iff {s : State} : Memory.wf s = true ↔ s.frm.length ≤ Config.frmCap ∧ s.rxb.length ≤ Config.rxCap := by
  simp [Memory.wf]

theorem reset_memory_wf : Memory.wf State.reset = true := by simp [memory_wf_iff, State.reset]

theorem withCode_memory_wf {s : State} {c : Status} (h : Memory.wf s = true) : Memory.wf (s.withCode c) = true := h

/-- Replacing FRM keeps the buffers within their capacities, for every length a frame source can have (R57). -/
theorem replaceFrame_memory_wf {s : State} {f : Bytes} (h : Memory.wf s = true) (hf : f.length ≤ 65542) :
    Memory.wf (s.replaceFrame f) = true := by
  have := frmCap_ge
  rw [memory_wf_iff] at h ⊢
  exact ⟨by simp; omega, h.2⟩

/-- Appending bytes that fit keeps the buffers within their capacities (R57, R151). -/
theorem push_memory_wf {s : State} {d : Bytes} (h : Memory.wf s = true) (hf : fitsReceive (s.rxb.length + d.length) = true) :
    Memory.wf { s with rxb := s.rxb ++ d } = true := by
  rw [memory_wf_iff] at h ⊢
  exact ⟨h.1, by simpa using fitsReceive_iff.1 hf⟩

/-- Dropping bytes of RXB keeps the buffers within their capacities. -/
theorem shrink_memory_wf {s : State} {d : Bytes} (h : Memory.wf s = true) (hd : d.length ≤ s.rxb.length) :
    Memory.wf { s with rxb := d } = true := by
  rw [memory_wf_iff] at h ⊢
  exact ⟨h.1, le_trans hd h.2⟩

/-! ### Decoding and encoding by a precision -/

theorem decodeAs_of_width {p : Precision} {s : State} (h : s.wn.toNat = p.width) :
    decodeAs p s = done .ok { s with v := decodeValue p (s.wire p.width) } := by simp [decodeAs, h]

theorem decodeAs_of_ne {p : Precision} {s : State} (h : s.wn.toNat ≠ p.width) : decodeAs p s = failDecode p s := by
  simp [decodeAs, h]

/-- Everything a decode by a precision can do. -/
theorem decodeAs_cases (p : Precision) (s : State) :
    (s.wn.toNat = p.width ∧ decodeAs p s = done .ok { s with v := decodeValue p (s.wire p.width) }) ∨
    (s.wn.toNat ≠ p.width ∧ decodeAs p s = failDecode p s) := by
  by_cases h : s.wn.toNat = p.width
  · exact .inl ⟨h, decodeAs_of_width h⟩
  · exact .inr ⟨h, decodeAs_of_ne h⟩

/-- Everything an encode by a precision can do. -/
theorem encodeAs_cases (p : Precision) (s : State) :
    (∃ b, encodeValue p s.v = some b ∧ encodeAs p s = done .ok (s.loadWire b)) ∨
    (encodeValue p s.v = none ∧ encodeAs p s = fail .eRange s) := by
  unfold encodeAs
  cases h : encodeValue p s.v with
  | none => exact .inr ⟨rfl, rfl⟩
  | some b => exact .inl ⟨b, rfl, rfl⟩

theorem exec_decodeCommand (p : Precision) (s : State) : exec p.decodeCommand s = decodeAs p s := by cases p <;> rfl
theorem exec_encodeCommand (p : Precision) (s : State) : exec p.encodeCommand s = encodeAs p s := by cases p <;> rfl

theorem encodeValue_length {p : Precision} {v : Double} {b : Bytes} (h : encodeValue p v = some b) : b.length = p.width := by
  cases p <;> simp only [encodeValue, Option.map_eq_some_iff, Option.some.injEq] at h
  · subst h; simp [Precision.width]
  · obtain ⟨r, _, rfl⟩ := h; simp [Precision.width]
  · obtain ⟨r, _, rfl⟩ := h; simp [Precision.width]
  · subst h; simp [Precision.width]

end Sys2Proof.Machine
end

