-- ==== Sys2Proof/Laws/Float.lean ====
section
/-! SUPPORT. The numeric formats: the fields of a packed pattern, the value of a pattern as a signed significand times a
power of two, and what each exact rounding answers. -/

namespace Sys2Proof.Machine

/-! ### Packing and its fields -/

theorem pack32_toNat (s : Bool) (e f : Nat) :
    (pack32 s e f).toNat = s.toNat * 2 ^ 31 + e % 2 ^ 8 * 2 ^ 23 + f % 2 ^ 23 := by
  rw [pack32, BitVec.toNat_ofNat]
  cases s <;> simp only [Bool.toNat_false, Bool.toNat_true] <;> omega

theorem pack64_toNat (s : Bool) (e f : Nat) :
    (pack64 s e f).toNat = s.toNat * 2 ^ 63 + e % 2 ^ 11 * 2 ^ 52 + f % 2 ^ 52 := by
  rw [pack64, BitVec.toNat_ofNat]
  cases s <;> simp only [Bool.toNat_false, Bool.toNat_true] <;> omega

theorem exp32_eq (b : BitVec 32) : exp32 b = b.toNat / 2 ^ 23 % 2 ^ 8 := rfl
theorem frac32_eq (b : BitVec 32) : frac32 b = b.toNat % 2 ^ 23 := by simp [frac32, bits]
theorem sign32_eq (b : BitVec 32) : sign32 b = decide (2 ^ 31 ≤ b.toNat) := BitVec.msb_eq_decide b
theorem exp64_eq (v : Double) : exp64 v = v.toNat / 2 ^ 52 % 2 ^ 11 := rfl
theorem frac64_eq (v : Double) : frac64 v = v.toNat % 2 ^ 52 := by simp [frac64, bits]
theorem sign64_eq (v : Double) : sign64 v = decide (2 ^ 63 ≤ v.toNat) := BitVec.msb_eq_decide v

theorem exp32_lt (b : BitVec 32) : exp32 b < 2 ^ 8 := by rw [exp32_eq]; omega
theorem frac32_lt (b : BitVec 32) : frac32 b < 2 ^ 23 := by rw [frac32_eq]; omega
theorem exp64_lt (v : Double) : exp64 v < 2 ^ 11 := by rw [exp64_eq]; omega
theorem frac64_lt (v : Double) : frac64 v < 2 ^ 52 := by rw [frac64_eq]; omega

@[simp] theorem sign32_pack32 (s : Bool) (e f : Nat) : sign32 (pack32 s e f) = s := by
  rw [sign32_eq, pack32_toNat]
  cases s <;> simp only [Bool.toNat_false, Bool.toNat_true, decide_eq_true_eq, decide_eq_false_iff_not] <;> omega
@[simp] theorem exp32_pack32 (s : Bool) (e f : Nat) : exp32 (pack32 s e f) = e % 2 ^ 8 := by
  rw [exp32_eq, pack32_toNat]
  cases s <;> simp only [Bool.toNat_false, Bool.toNat_true] <;> omega
@[simp] theorem frac32_pack32 (s : Bool) (e f : Nat) : frac32 (pack32 s e f) = f % 2 ^ 23 := by
  rw [frac32_eq, pack32_toNat]
  cases s <;> simp only [Bool.toNat_false, Bool.toNat_true] <;> omega
@[simp] theorem sign64_pack64 (s : Bool) (e f : Nat) : sign64 (pack64 s e f) = s := by
  rw [sign64_eq, pack64_toNat]
  cases s <;> simp only [Bool.toNat_false, Bool.toNat_true, decide_eq_true_eq, decide_eq_false_iff_not] <;> omega
@[simp] theorem exp64_pack64 (s : Bool) (e f : Nat) : exp64 (pack64 s e f) = e % 2 ^ 11 := by
  rw [exp64_eq, pack64_toNat]
  cases s <;> simp only [Bool.toNat_false, Bool.toNat_true] <;> omega
@[simp] theorem frac64_pack64 (s : Bool) (e f : Nat) : frac64 (pack64 s e f) = f % 2 ^ 52 := by
  rw [frac64_eq, pack64_toNat]
  cases s <;> simp only [Bool.toNat_false, Bool.toNat_true] <;> omega

/-- A binary32 pattern is its three fields. -/
theorem pack32_fields (b : BitVec 32) : pack32 (sign32 b) (exp32 b) (frac32 b) = b := by
  apply BitVec.eq_of_toNat_eq
  rw [pack32_toNat, sign32_eq, exp32_eq, frac32_eq]
  have := b.isLt
  by_cases h : 2 ^ 31 ≤ b.toNat
  · rw [decide_eq_true h, Bool.toNat_true]; omega
  · rw [decide_eq_false h, Bool.toNat_false]; omega

/-- A binary64 pattern is its three fields. -/
theorem pack64_fields (v : Double) : pack64 (sign64 v) (exp64 v) (frac64 v) = v := by
  apply BitVec.eq_of_toNat_eq
  rw [pack64_toNat, sign64_eq, exp64_eq, frac64_eq]
  have := v.isLt
  by_cases h : 2 ^ 63 ≤ v.toNat
  · rw [decide_eq_true h, Bool.toNat_true]; omega
  · rw [decide_eq_false h, Bool.toNat_false]; omega

/-- Patterns with the same fields are the same. -/
theorem eq_of_fields64 {v u : Double} (hs : sign64 v = sign64 u) (he : exp64 v = exp64 u) (hf : frac64 v = frac64 u) : v = u := by
  rw [← pack64_fields v, ← pack64_fields u, hs, he, hf]

/-- Patterns with the same fields are the same. -/
theorem eq_of_fields32 {v u : BitVec 32} (hs : sign32 v = sign32 u) (he : exp32 v = exp32 u) (hf : frac32 v = frac32 u) : v = u := by
  rw [← pack32_fields v, ← pack32_fields u, hs, he, hf]

/-! ### Values (R17) -/

/-- The value of a binary64 pattern is its signed significand times the power of two of its scale. -/
theorem val64_eq (v : Double) :
    val64 v = (if sign64 v then -1 else 1) * ((significand64 v : ℚ) * (2 : ℚ) ^ scale64 v) := by
  unfold val64 significand64 scale64
  congr 1
  by_cases h : exp64 v = 0
  · simp only [if_pos h]
    rw [show (-1074 : ℤ) = -1022 + -52 by norm_num, zpow_add₀ two_ne_zero, zpow_neg, zpow_neg]
    norm_num [zpow_ofNat]
    ring
  · simp only [if_neg h]
    rw [show (exp64 v : ℤ) - 1075 = (exp64 v : ℤ) - 1023 + -52 by ring, zpow_add₀ two_ne_zero (_ - _), zpow_neg]
    push_cast
    norm_num [zpow_ofNat]
    ring

/-- The magnitude of the value. -/
theorem abs_val64 (v : Double) : |val64 v| = (significand64 v : ℚ) * (2 : ℚ) ^ scale64 v := by
  have hp : (0 : ℚ) ≤ (significand64 v : ℚ) * (2 : ℚ) ^ scale64 v := by positivity
  rw [val64_eq]
  split
  · rw [neg_one_mul, abs_neg, abs_of_nonneg hp]
  · rw [one_mul, abs_of_nonneg hp]

theorem significand64_eq_zero_iff {v : Double} : significand64 v = 0 ↔ exp64 v = 0 ∧ frac64 v = 0 := by
  unfold significand64
  split <;> rename_i h
  · simp [h]
  · simp [h]

theorem val64_eq_zero_iff {v : Double} : val64 v = 0 ↔ exp64 v = 0 ∧ frac64 v = 0 := by
  rw [← abs_eq_zero, abs_val64, ← significand64_eq_zero_iff]
  have : (2 : ℚ) ^ scale64 v ≠ 0 := by positivity
  simp [this]

theorem significand64_lt (v : Double) : significand64 v < 2 ^ 53 := by
  have := frac64_lt v
  unfold significand64
  split <;> omega

/-! ### Exact rationals and their roundings -/

/-- The rational that a `Frac` stands for. -/
def Frac.value (t : Frac) : ℚ := (t.num : ℚ) / t.den

theorem Frac.scaled_den_pos (m : Nat) (k : Int) : 0 < (Frac.scaled m k).den := by
  simp only [Frac.scaled]; positivity

theorem Frac.scaled_value (m : Nat) (k : Int) : (Frac.scaled m k).value = (m : ℚ) * (2 : ℚ) ^ k := by
  simp only [Frac.value, Frac.scaled]
  push_cast
  rcases le_total 0 k with h | h
  · obtain ⟨n, rfl⟩ := Int.eq_ofNat_of_zero_le h
    simp
  · obtain ⟨n, hn⟩ := Int.eq_ofNat_of_zero_le (show 0 ≤ -k by omega)
    obtain rfl : k = -(n : ℤ) := by omega
    simp [div_eq_mul_inv]

theorem Frac.geOne_iff {t : Frac} (h : 0 < t.den) : t.geOne = true ↔ 1 ≤ t.value := by
  have hd : (0 : ℚ) < t.den := by exact_mod_cast h
  rw [Frac.geOne, decide_eq_true_eq, Frac.value, le_div_iff₀ hd, one_mul]
  norm_cast

/-- `rne` is at most half away, and even on a tie (R114). -/
theorem Frac.rne_spec {t : Frac} (h : 0 < t.den) :
    |t.value - t.rne| ≤ 1 / 2 ∧ (|t.value - t.rne| = 1 / 2 → t.rne % 2 = 0) := by
  obtain ⟨num, den⟩ := t
  simp only at h
  have hd : (0 : ℚ) < den := by exact_mod_cast h
  have hnum : (num : ℚ) = den * (num / den : ℕ) + (num % den : ℕ) := by exact_mod_cast (Nat.div_add_mod num den).symm
  have hv : Frac.value ⟨num, den⟩ = (num / den : ℕ) + ((num % den : ℕ) : ℚ) / den := by
    rw [Frac.value]
    simp only
    rw [hnum]
    field_simp
  have hr0 : (0 : ℚ) ≤ ((num % den : ℕ) : ℚ) / den := by positivity
  have hr1 : ((num % den : ℕ) : ℚ) / den < 1 := by
    rw [div_lt_one hd]; exact_mod_cast Nat.mod_lt _ h
  have hcmp1 : 2 * (num % den) < den ↔ ((num % den : ℕ) : ℚ) / den < 1 / 2 := by
    rw [div_lt_iff₀ hd]
    constructor
    · intro h; have : (2 : ℚ) * (num % den : ℕ) < den := by exact_mod_cast h
      linarith
    · intro h; have : (2 : ℚ) * (num % den : ℕ) < den := by linarith
      exact_mod_cast this
  have hcmp2 : den < 2 * (num % den) ↔ 1 / 2 < ((num % den : ℕ) : ℚ) / den := by
    rw [lt_div_iff₀ hd]
    constructor
    · intro h; have : (den : ℚ) < 2 * (num % den : ℕ) := by exact_mod_cast h
      linarith
    · intro h; have : (den : ℚ) < 2 * (num % den : ℕ) := by linarith
      exact_mod_cast this
  simp only [Frac.rne]
  rw [hv]
  generalize ((num % den : ℕ) : ℚ) / den = r at *
  by_cases h1 : 2 * (num % den) < den
  · rw [if_pos h1]
    have := hcmp1.1 h1
    rw [add_sub_cancel_left, abs_of_nonneg hr0]
    exact ⟨by linarith, fun h => by linarith⟩
  · by_cases h2 : den < 2 * (num % den)
    · rw [if_neg h1, if_pos h2]
      have := hcmp2.1 h2
      have he : ((num / den : ℕ) : ℚ) + r - ((num / den + 1 : ℕ) : ℚ) = -(1 - r) := by push_cast; ring
      rw [he, abs_neg, abs_of_pos (by linarith)]
      exact ⟨by linarith, fun h => by linarith⟩
    · rw [if_neg h1, if_neg h2]
      have hr : r = 1 / 2 := le_antisymm (not_lt.1 fun h => h2 (hcmp2.2 h)) (not_lt.1 fun h => h1 (hcmp1.2 h))
      rcases Nat.mod_two_eq_zero_or_one (num / den) with hq | hq
      · rw [hq, hr, Nat.add_zero, add_sub_cancel_left]
        exact ⟨by norm_num, fun _ => hq⟩
      · have he : ((num / den : ℕ) : ℚ) + r - ((num / den + num / den % 2 : ℕ) : ℚ) = -(1 / 2) := by
          rw [hq, hr]; push_cast; ring
        rw [he]
        exact ⟨by norm_num, fun _ => by omega⟩

/-- `roundHalfUp` is `floor(t + 1/2)` (R119). -/
theorem Frac.roundHalfUp_eq {t : Frac} (h : 0 < t.den) : (t.roundHalfUp : ℤ) = ⌊t.value + 1 / 2⌋ := by
  obtain ⟨num, den⟩ := t
  simp only at h
  have hd : (den : ℚ) ≠ 0 := by positivity
  have hv : Frac.value ⟨num, den⟩ + 1 / 2 = ((2 * num + den : ℕ) : ℚ) / ((2 * den : ℕ) : ℚ) := by
    rw [Frac.value]; push_cast; field_simp
  rw [hv, Rat.floor_natCast_div_natCast, Frac.roundHalfUp]
  simp

/-! ### Fixed point -/

/-- The rounding of a fixed-point encode is `round_half_away` of the value times the power (R119). -/
theorem roundScaled_eq (v : Double) (q : Nat) : roundScaled v q = roundHalfAway (val64 v * 2 ^ q) := by
  have hden := Frac.scaled_den_pos (significand64 v) (scale64 v + q)
  have hval : (Frac.scaled (significand64 v) (scale64 v + q)).value = |val64 v * 2 ^ q| := by
    rw [Frac.scaled_value, abs_mul, abs_val64, abs_of_pos (show (0 : ℚ) < 2 ^ q by positivity), zpow_add₀ two_ne_zero,
      zpow_natCast, mul_assoc]
  unfold roundScaled roundHalfAway
  rw [← hval, ← Frac.roundHalfUp_eq hden]
  have hpos : (0 : ℚ) < 2 ^ q := by positivity
  by_cases hs : sign64 v = true
  · simp only [hs, if_true]
    by_cases hz : val64 v * 2 ^ q < 0
    · rw [if_pos hz]; ring
    · have h0 : val64 v = 0 := by
        have h1 : val64 v ≤ 0 := by
          rw [val64_eq, if_pos hs]
          have : (0 : ℚ) ≤ (significand64 v : ℚ) * (2 : ℚ) ^ scale64 v := by positivity
          linarith
        by_contra hne
        exact hz (mul_neg_of_neg_of_pos (lt_of_le_of_ne h1 hne) hpos)
      have : significand64 v = 0 := significand64_eq_zero_iff.2 (val64_eq_zero_iff.1 h0)
      rw [if_neg hz, this]
      simp [Frac.scaled, Frac.roundHalfUp]
      have : (2 ^ (-(q : ℤ) + -scale64 v).toNat : ℤ) / (2 * 2 ^ (-(q : ℤ) + -scale64 v).toNat) = 0 :=
        Int.ediv_eq_zero_of_lt (by positivity) (by have : (0 : ℤ) < 2 ^ (-(q : ℤ) + -scale64 v).toNat := by positivity
                                                   linarith)
      simp [this]
  · have hnn : 0 ≤ val64 v := by
      rw [val64_eq, if_neg hs, one_mul]; positivity
    rw [if_neg (by simpa using hs), if_neg (by have := mul_nonneg hnn hpos.le; linarith), one_mul]

/-- What a fixed-point encode rounds to, or where it has no result (R115, R116, R121). -/
theorem fixedOf_eq (v : Double) (q n : Nat) : fixedOf v q n =
    if exp64 v = 0x7FF then none
    else if roundHalfAway (val64 v * 2 ^ q) < -(2 ^ (n - 1)) ∨ 2 ^ (n - 1) - 1 < roundHalfAway (val64 v * 2 ^ q) then none
    else some (roundHalfAway (val64 v * 2 ^ q)) := by
  simp only [fixedOf, roundScaled_eq]

theorem bitLength_spec {m : Nat} (h : 0 < m) : 2 ^ (bitLength m - 1) ≤ m ∧ m < 2 ^ bitLength m := by
  rw [bitLength, Nat.add_sub_cancel]
  exact ⟨Nat.log2_self_le (by omega), Nat.lt_log2_self⟩

theorem bitLength_eq {m k : Nat} (h0 : 0 < k) (h1 : 2 ^ (k - 1) ≤ m) (h2 : m < 2 ^ k) : bitLength m = k := by
  have hm : m ≠ 0 := by have : 0 < 2 ^ (k - 1) := by positivity
                        omega
  have : Nat.log2 m = k - 1 := by
    rw [Nat.log2_eq_iff hm]
    exact ⟨h1, by rwa [Nat.sub_add_cancel h0]⟩
  rw [bitLength, this]; omega

/-- The fields and the value of `f64_exact` (R108): exact wherever the integer has at most 53 bits. -/
theorem f64Exact_spec {s : Int} {q : Nat} (hs : s.natAbs < 2 ^ 53) (hq : q ≤ 1022) :
    finite64 (f64Exact s q) ∧ val64 (f64Exact s q) = (s : ℚ) / 2 ^ q ∧ (s ≠ 0 → exp64 (f64Exact s q) ≠ 0) ∧
      (s = 0 → f64Exact s q = 0) := by
  by_cases h0 : s = 0
  · subst h0
    have hz : val64 0 = 0 := val64_eq_zero_iff.2 (by decide)
    have he : f64Exact 0 q = 0 := rfl
    rw [he, hz]
    exact ⟨by decide, by simp, fun h => absurd rfl h, fun _ => rfl⟩
  · have hm : 0 < s.natAbs := Int.natAbs_pos.2 h0
    obtain ⟨hb1, hb2⟩ := bitLength_spec hm
    have hk : bitLength s.natAbs ≤ 53 := by
      by_contra hc
      have : 2 ^ 53 ≤ 2 ^ (bitLength s.natAbs - 1) := Nat.pow_le_pow_right (by norm_num) (by omega)
      omega
    have hk1 : 1 ≤ bitLength s.natAbs := by simp [bitLength]
    generalize hkk : bitLength s.natAbs = k at *
    have hfl : (s.natAbs - 2 ^ (k - 1)) * 2 ^ (53 - k) < 2 ^ 52 := by
      have h1 : s.natAbs - 2 ^ (k - 1) < 2 ^ (k - 1) := by
        have : 2 ^ k = 2 ^ (k - 1) + 2 ^ (k - 1) := by
          conv_lhs => rw [show k = k - 1 + 1 by omega, pow_succ]
          ring
        omega
      calc (s.natAbs - 2 ^ (k - 1)) * 2 ^ (53 - k) < 2 ^ (k - 1) * 2 ^ (53 - k) :=
            Nat.mul_lt_mul_of_pos_right h1 (by positivity)
        _ = 2 ^ 52 := by rw [← pow_add]; congr 1; omega
    have hform : f64Exact s q = pack64 (s < 0) (1023 + (k - 1) - q) ((s.natAbs - 2 ^ (k - 1)) * 2 ^ (53 - k)) := by
      simp only [f64Exact, if_neg h0, hkk]
    have he : exp64 (f64Exact s q) = 1023 + (k - 1) - q := by rw [hform, exp64_pack64, Nat.mod_eq_of_lt (by omega)]
    have hf : frac64 (f64Exact s q) = (s.natAbs - 2 ^ (k - 1)) * 2 ^ (53 - k) := by
      rw [hform, frac64_pack64, Nat.mod_eq_of_lt hfl]
    have hsg : sign64 (f64Exact s q) = decide (s < 0) := by rw [hform, sign64_pack64]
    have hne : exp64 (f64Exact s q) ≠ 0 := by omega
    refine ⟨by omega, ?_, fun _ => hne, fun h => absurd h h0⟩
    rw [val64_eq, hsg]
    have hsig : significand64 (f64Exact s q) = s.natAbs * 2 ^ (53 - k) := by
      rw [significand64, if_neg hne, hf, Nat.sub_mul, ← pow_add, show k - 1 + (53 - k) = 52 by omega]
      have : 2 ^ 52 ≤ s.natAbs * 2 ^ (53 - k) := by
        calc 2 ^ 52 = 2 ^ (k - 1) * 2 ^ (53 - k) := by rw [← pow_add]; congr 1; omega
          _ ≤ _ := Nat.mul_le_mul_right _ hb1
      omega
    have hsc : scale64 (f64Exact s q) = -((53 - k : ℕ) : ℤ) - (q : ℤ) := by rw [scale64, if_neg hne, he]; omega
    rw [hsig, hsc, sub_eq_add_neg, zpow_add₀ two_ne_zero, zpow_neg, zpow_neg, zpow_natCast, zpow_natCast]
    push_cast
    have habs : ((if decide (s < 0) = true then (-1 : ℚ) else 1)) * |(s : ℚ)| = s := by
      by_cases hn : s < 0
      · have : (s : ℚ) < 0 := by exact_mod_cast hn
        simp [hn, abs_of_neg this]
      · have : (0 : ℚ) ≤ s := by exact_mod_cast (not_lt.1 hn)
        simp [hn, abs_of_nonneg this]
    have hnat : ((s.natAbs : ℕ) : ℚ) = |(s : ℚ)| := by exact_mod_cast Nat.cast_natAbs (α := ℚ) s
    have h2 : (2 : ℚ) ^ (53 - k) ≠ 0 := by positivity
    rw [← habs]
    rw [hnat]
    field_simp

end Sys2Proof.Machine
end

