-- ==== Sys2Proof/Laws/Frame.lean ====
section
/-! SUPPORT. What each operation of the frame layer and of the walk can do, said once: the marker search, the cut of a
token, the checks of VALIDATE, the builder, and SPLIT, VALIDATE and SPNEXT as wholes. -/

namespace Sys2Proof.Machine

/-! ### Markers and headers -/

theorem markerAt_zero_cons {a : Byte} {b : Bytes} : markerAt (a :: b) 0 ↔ a = 0xFA ∧ b.head? = some 0xFF := by
  cases b <;> simp [markerAt]

theorem markerAt_succ_cons {a : Byte} {b : Bytes} {i : Nat} : markerAt (a :: b) (i + 1) ↔ markerAt b i := by
  simp [markerAt]

theorem markerAt_drop {b : Bytes} {i : Nat} : markerAt (b.drop i) 0 ↔ markerAt b i := by
  simp [markerAt, List.getElem?_drop]

/-- A buffer with a marker at its start, by its first two bytes. -/
theorem markerAt_zero_iff {b : Bytes} : markerAt b 0 ↔ ∃ rest, b = 0xFA :: 0xFF :: rest := by
  rcases b with _ | ⟨x, _ | ⟨y, rest⟩⟩ <;> simp [markerAt]

theorem fromMarker_eq_none_iff {b : Bytes} : fromMarker b = none ↔ ∀ i, ¬ markerAt b i := by
  induction b with
  | nil => simp [fromMarker, markerAt]
  | cons a t ih =>
    by_cases h : a = 0xFA ∧ t.head? = some 0xFF
    · simp only [fromMarker, if_pos h, reduceCtorEq, false_iff, not_forall, not_not]
      exact ⟨0, markerAt_zero_cons.2 h⟩
    · rw [fromMarker, if_neg h, ih]
      constructor
      · intro hn i
        cases i with
        | zero => exact fun hm => h (markerAt_zero_cons.1 hm)
        | succ i => exact fun hm => hn i (markerAt_succ_cons.1 hm)
      · exact fun hn i hm => hn (i + 1) (markerAt_succ_cons.2 hm)

/-- The bytes kept are those from the first marker on. -/
theorem fromMarker_eq_some_iff {b c : Bytes} :
    fromMarker b = some c ↔ ∃ i, markerAt b i ∧ (∀ j, j < i → ¬ markerAt b j) ∧ c = b.drop i := by
  induction b with
  | nil => simp [fromMarker, markerAt]
  | cons a t ih =>
    by_cases h : a = 0xFA ∧ t.head? = some 0xFF
    · simp only [fromMarker, if_pos h, Option.some.injEq]
      constructor
      · rintro rfl
        exact ⟨0, markerAt_zero_cons.2 h, by simp, rfl⟩
      · rintro ⟨i, _, hj, rfl⟩
        cases i with
        | zero => rfl
        | succ i => exact absurd (markerAt_zero_cons.2 h) (hj 0 (by omega))
    · rw [fromMarker, if_neg h, ih]
      constructor
      · rintro ⟨i, hi, hj, rfl⟩
        refine ⟨i + 1, markerAt_succ_cons.2 hi, fun j hlt => ?_, rfl⟩
        cases j with
        | zero => exact fun hm => h (markerAt_zero_cons.1 hm)
        | succ j => exact fun hm => hj j (by omega) (markerAt_succ_cons.1 hm)
      · rintro ⟨i, hi, hj, rfl⟩
        cases i with
        | zero => exact absurd (markerAt_zero_cons.1 hi) h
        | succ i =>
          exact ⟨i, markerAt_succ_cons.1 hi, fun j hlt hm => hj (j + 1) (by omega) (markerAt_succ_cons.2 hm), rfl⟩

/-- The bytes from the first marker on begin with it and are no more than there were. -/
theorem fromMarker_spec {b c : Bytes} (h : fromMarker b = some c) : markerAt c 0 ∧ c.length ≤ b.length := by
  obtain ⟨i, hi, _, rfl⟩ := fromMarker_eq_some_iff.1 h
  exact ⟨markerAt_drop.2 hi, by simp⟩

theorem fromMarker_of_marker {b : Bytes} (h : markerAt b 0) : fromMarker b = some b :=
  fromMarker_eq_some_iff.2 ⟨0, h, by simp, rfl⟩

/-- Bytes with no marker before a buffer that begins with one: the search finds the buffer. -/
theorem fromMarker_append {g f : Bytes} (hg : ∀ i, ¬ markerAt g i) (hf : markerAt f 0) : fromMarker (g ++ f) = some f := by
  induction g with
  | nil => exact fromMarker_of_marker hf
  | cons a t ih =>
    rw [List.cons_append, fromMarker, if_neg, ih fun i hm => hg (i + 1) (markerAt_succ_cons.2 hm)]
    rintro ⟨ha, hh⟩
    obtain ⟨rest, rfl⟩ := markerAt_zero_iff.1 hf
    cases t with
    | nil => simp at hh
    | cons b t => exact hg 0 (markerAt_zero_cons.2 ⟨ha, by simpa using hh⟩)

/-- What a header says: its size and the payload length are in range. -/
theorem headerSays_bounds {b : Bytes} {hdr plen : Nat} (h : headerSays b hdr plen) :
    (hdr = 4 ∧ plen ≤ 254 ∧ 4 ≤ b.length) ∨ (hdr = 6 ∧ plen ≤ 65535 ∧ 6 ≤ b.length) := by
  rcases h with ⟨len, h3, hne, rfl, rfl⟩ | ⟨h3, hi, lo, h4, h5, rfl, rfl⟩
  · left
    have hl := (List.getElem?_eq_some_iff.1 h3).1
    have : len.toNat ≠ 255 := fun hc => hne (BitVec.eq_of_toNat_eq hc)
    have := len.isLt
    omega
  · right
    have hl := (List.getElem?_eq_some_iff.1 h5).1
    have := hi.isLt
    have := lo.isLt
    omega

theorem headerSays_unique {b : Bytes} {h1 p1 h2 p2 : Nat} (ha : headerSays b h1 p1) (hb : headerSays b h2 p2) :
    h1 = h2 ∧ p1 = p2 := by
  rcases ha with ⟨l, a3, ane, rfl, rfl⟩ | ⟨a3, hi, lo, a4, a5, rfl, rfl⟩ <;>
    rcases hb with ⟨l', b3, bne, rfl, rfl⟩ | ⟨b3, hi', lo', b4, b5, rfl, rfl⟩ <;> simp_all

/-- A header, from the bytes at the offsets the machine reads. -/
theorem headerSays_iff {b : Bytes} {hdr plen : Nat} : headerSays b hdr plen ↔
    (4 ≤ b.length ∧ byteAt b 3 ≠ 0xFF ∧ hdr = 4 ∧ plen = (byteAt b 3).toNat) ∨
    (6 ≤ b.length ∧ byteAt b 3 = 0xFF ∧ hdr = 6 ∧ plen = wordAt b 4) := by
  constructor
  · rintro (⟨len, h3, hne, rfl, rfl⟩ | ⟨h3, hi, lo, h4, h5, rfl, rfl⟩)
    · have hl := (List.getElem?_eq_some_iff.1 h3).1
      rw [byteAt_of_getElem? h3]
      exact .inl ⟨by omega, hne, rfl, rfl⟩
    · have hl := (List.getElem?_eq_some_iff.1 h5).1
      rw [wordAt, byteAt_of_getElem? h3, byteAt_of_getElem? h4, byteAt_of_getElem? h5]
      exact .inr ⟨by omega, rfl, rfl, rfl⟩
  · rintro (⟨hl, hne, rfl, rfl⟩ | ⟨hl, h3, rfl, rfl⟩)
    · exact .inl ⟨_, getElem?_of_byteAt (by omega), hne, rfl, rfl⟩
    · exact .inr ⟨by rw [getElem?_of_byteAt (by omega), h3], _, _, getElem?_of_byteAt (by omega),
        getElem?_of_byteAt (by omega), rfl, rfl⟩

/-! ### Cutting a token -/

/-- A token is cut exactly where the header and all the bytes it says are there. -/
theorem cutToken_eq_some_iff {b t r : Bytes} : cutToken b = some (t, r) ↔
    ∃ hdr plen, headerSays b hdr plen ∧ hdr + plen + 1 ≤ b.length ∧ t = b.take (hdr + plen + 1) ∧
      r = b.drop (hdr + plen + 1) := by
  simp only [headerSays_iff]
  unfold cutToken cutAt
  constructor
  · intro h
    split at h
    · simp at h
    · split at h
      · split at h
        · simp at h
        · simp only [Option.some.injEq, Prod.mk.injEq] at h
          exact ⟨_, _, .inl ⟨by omega, by assumption, rfl, rfl⟩, by omega, h.1.symm, h.2.symm⟩
      · split at h
        · simp at h
        · split at h
          · simp at h
          · rename_i h3 _ _
            simp only [Option.some.injEq, Prod.mk.injEq] at h
            exact ⟨_, _, .inr ⟨by omega, by simpa using h3, rfl, rfl⟩, by omega, h.1.symm, h.2.symm⟩
  · rintro ⟨hdr, plen, ⟨hl, h3, rfl, rfl⟩ | ⟨hl, h3, rfl, rfl⟩, hle, rfl, rfl⟩
    · rw [if_neg (by omega), if_pos h3, if_neg (by omega)]
    · rw [if_neg (by omega), if_neg (by simpa using h3), if_neg (by omega), if_neg (by omega)]

/-- No token is cut where the header, or some of the bytes it says, is missing. -/
theorem cutToken_eq_none_iff {b : Bytes} : cutToken b = none ↔
    ∀ hdr plen, headerSays b hdr plen → b.length < hdr + plen + 1 := by
  constructor
  · intro h hdr plen hh
    by_contra hc
    rw [cutToken_eq_some_iff.2 ⟨hdr, plen, hh, by omega, rfl, rfl⟩] at h
    simp at h
  · intro h
    cases hc : cutToken b with
    | none => rfl
    | some pr =>
      obtain ⟨hdr, plen, hh, hle, _⟩ := cutToken_eq_some_iff.1 (show cutToken b = some (pr.1, pr.2) from hc)
      have := h hdr plen hh
      omega

/-- The two parts of a cut: between 5 and 65542 bytes for the token, the rest after it. -/
theorem cutToken_spec {b t r : Bytes} (h : cutToken b = some (t, r)) : b = t ++ r ∧ 5 ≤ t.length ∧ t.length ≤ 65542 := by
  obtain ⟨hdr, plen, hh, hle, rfl, rfl⟩ := cutToken_eq_some_iff.1 h
  have := headerSays_bounds hh
  refine ⟨(List.take_append_drop _ _).symm, ?_, ?_⟩ <;> rw [List.length_take] <;> omega

/-- What is kept of a buffer with no marker holds no marker and is no longer. -/
theorem halfMarker_cases (b : Bytes) :
    (b.getLast? = some 0xFA ∧ halfMarker b = [0xFA] ∧ 1 ≤ b.length) ∨ (b.getLast? ≠ some 0xFA ∧ halfMarker b = []) := by
  by_cases h : b.getLast? = some 0xFA
  · refine .inl ⟨h, if_pos h, ?_⟩
    cases b <;> simp_all
  · exact .inr ⟨h, if_neg h⟩

theorem fromMarker_halfMarker (b : Bytes) : fromMarker (halfMarker b) = none ∧ halfMarker (halfMarker b) = halfMarker b := by
  rcases halfMarker_cases b with ⟨_, h, _⟩ | ⟨_, h⟩ <;> rw [h] <;> simp [fromMarker, halfMarker]

/-- Everything SPLIT can do. -/
theorem execSplit_cases (f : Byte) (s : State) :
    (1 < f.toNat ∧ execSplit f s = fail .eOperand s) ∨
    (f.toNat ≤ 1 ∧ fromMarker s.rxb = none ∧ execSplit f s = done (moreStatus f) { s with rxb := halfMarker s.rxb }) ∨
    (∃ b, f.toNat ≤ 1 ∧ fromMarker s.rxb = some b ∧ cutToken b = none ∧
      execSplit f s = done (moreStatus f) { s with rxb := b }) ∨
    (∃ b token rest, f.toNat ≤ 1 ∧ fromMarker s.rxb = some b ∧ cutToken b = some (token, rest) ∧
      execSplit f s = done .ok ({ s with rxb := rest }.replaceFrame token)) := by
  unfold execSplit
  by_cases hf : 1 < f.toNat
  · exact .inl ⟨hf, if_pos hf⟩
  · rw [if_neg hf]
    cases hm : fromMarker s.rxb with
    | none => exact .inr (.inl ⟨by omega, rfl, rfl⟩)
    | some b =>
      cases hc : cutToken b with
      | none => exact .inr (.inr (.inl ⟨b, by omega, rfl, hc, by simp [hc]⟩))
      | some pr => exact .inr (.inr (.inr ⟨b, pr.1, pr.2, by omega, rfl, hc, by simp [hc]⟩))

theorem moreStatus_cases (f : Byte) : moreStatus f = .needMore ∨ moreStatus f = .endOfStream := by
  unfold moreStatus; split <;> simp

/-! ### The checks of VALIDATE -/

theorem checkBody_eq_ok_iff {f : Bytes} {h p hdr plen : Nat} : checkBody f h p = .ok (hdr, plen) ↔
    f.length = h + p + 1 ∧ sumBytes (f.drop 1) % 256 = 0 ∧ hdr = h ∧ plen = p := by
  unfold checkBody
  split
  · simp; omega
  · split
    · simp; omega
    · split
      · simp_all
      · simp only [Except.ok.injEq, Prod.mk.injEq]
        constructor
        · rintro ⟨rfl, rfl⟩; omega
        · rintro ⟨_, _, rfl, rfl⟩; simp

/-- The checks pass exactly on a marker, a header with its length in range, the length it says, and the checksum. -/
theorem checkFrame_eq_ok_iff {f : Bytes} {hdr plen : Nat} : checkFrame f = .ok (hdr, plen) ↔
    5 ≤ f.length ∧ markerAt f 0 ∧ headerSays f hdr plen ∧ (hdr = 6 → 255 ≤ plen ∧ plen ≤ 2048) ∧
      f.length = hdr + plen + 1 ∧ sumBytes (f.drop 1) % 256 = 0 := by
  unfold checkFrame
  rw [headerSays_iff]
  by_cases h5 : f.length < 5
  · rw [if_pos h5]; simp; omega
  rw [if_neg h5]
  have hm : markerAt f 0 ↔ byteAt f 0 = 0xFA ∧ byteAt f 1 = 0xFF := by
    rw [markerAt, getElem?_of_byteAt (by omega), getElem?_of_byteAt (by omega)]; simp
  rw [hm]
  by_cases h0 : byteAt f 0 = 0xFA
  swap
  · rw [if_pos (by simpa using h0)]
    exact ⟨fun h => by simp at h, fun h => absurd h.2.1.1 h0⟩
  rw [if_neg (by simpa using h0)]
  by_cases h1 : byteAt f 1 = 0xFF
  swap
  · rw [if_pos (by simpa using h1)]
    exact ⟨fun h => by simp at h, fun h => absurd h.2.1.2 h1⟩
  rw [if_neg (by simpa using h1)]
  by_cases h3 : byteAt f 3 = 0xFF
  · rw [if_pos h3]
    by_cases h7 : f.length < 7
    · rw [if_pos h7]
      simp only [reduceCtorEq, false_iff]
      rintro ⟨_, _, ⟨_, hc, _⟩ | ⟨_, _, rfl, _⟩, _, hl, _⟩
      · exact hc h3
      · omega
    · rw [if_neg h7]
      by_cases hr : wordAt f 4 < 255 ∨ 2048 < wordAt f 4
      · rw [if_pos hr]
        simp only [reduceCtorEq, false_iff]
        rintro ⟨_, _, ⟨_, hc, _⟩ | ⟨_, _, rfl, rfl⟩, hb, _⟩
        · exact hc h3
        · have := hb rfl; omega
      · rw [if_neg hr, checkBody_eq_ok_iff]
        constructor
        · rintro ⟨hl, hs, rfl, rfl⟩
          exact ⟨by omega, ⟨h0, h1⟩, .inr ⟨by omega, h3, rfl, rfl⟩, by omega, hl, hs⟩
        · rintro ⟨_, _, ⟨_, hc, _⟩ | ⟨_, _, rfl, rfl⟩, hb, hl, hs⟩
          · exact absurd h3 hc
          · exact ⟨hl, hs, rfl, rfl⟩
  · rw [if_neg h3, checkBody_eq_ok_iff]
    constructor
    · rintro ⟨hl, hs, rfl, rfl⟩
      exact ⟨by omega, ⟨h0, h1⟩, .inl ⟨by omega, h3, rfl, rfl⟩, by omega, hl, hs⟩
    · rintro ⟨_, _, ⟨_, _, rfl, rfl⟩ | ⟨_, hc, _⟩, hb, hl, hs⟩
      · exact ⟨hl, hs, rfl, rfl⟩
      · exact absurd hc h3

/-- Accepted header sizes and payload lengths fit the registers that hold them. -/
theorem checkFrame_bounds {f : Bytes} {hdr plen : Nat} (h : checkFrame f = .ok (hdr, plen)) :
    (hdr = 4 ∨ hdr = 6) ∧ plen ≤ 2048 ∧ f.length = hdr + plen + 1 := by
  obtain ⟨_, _, hh, hb, hl, _⟩ := checkFrame_eq_ok_iff.1 h
  rcases headerSays_bounds hh with ⟨rfl, hp, _⟩ | ⟨rfl, hp, _⟩
  · omega
  · have := hb rfl; omega

/-- What `FV = 1` promises is that VALIDATE's checks pass and give the registers that are there (R28, R36, R158). -/
theorem State.frameHolds_iff_checkFrame {s : State} : s.FrameHolds ↔
    checkFrame s.frm = .ok (s.poff.toNat, s.plen.toNat) ∧ s.frm[2]? = some s.mid := by
  constructor
  · rintro ⟨hpoff, hhead, hext, hplen, hlen, hpre, haddr, hid, hsum⟩
    rw [State.flen] at hlen
    exact ⟨checkFrame_eq_ok_iff.2 ⟨by omega, ⟨hpre, haddr⟩, hhead, fun h6 => ⟨hext h6, hplen⟩, hlen, hsum⟩, hid⟩
  · rintro ⟨hc, hid⟩
    obtain ⟨hpoff, hplen, hlen⟩ := checkFrame_bounds hc
    obtain ⟨_, hm, hhead, hb, _, hsum⟩ := checkFrame_eq_ok_iff.1 hc
    exact ⟨hpoff, hhead, fun h6 => (hb h6).1, hplen, hlen, hm.1, hm.2, hid, hsum⟩

/-- It depends on FRM and three registers only. -/
theorem State.FrameHolds.congr {s t : State} (h : s.FrameHolds) (hfrm : t.frm = s.frm) (hmid : t.mid = s.mid)
    (hpoff : t.poff = s.poff) (hplen : t.plen = s.plen) : t.FrameHolds := by
  rw [State.frameHolds_iff_checkFrame] at h ⊢
  rwa [hfrm, hmid, hpoff, hplen]

/-- The codes the checks can end with (R213). -/
theorem checkFrame_error_mem {f : Bytes} {c : Status} (h : checkFrame f = .error c) :
    c ∈ [Status.eShort, .ePreamble, .eBusAddr, .eExtLen, .eLength, .eChecksum] := by
  unfold checkFrame checkBody at h
  repeat' split at h
  all_goals simp_all

/-- Everything VALIDATE can do. -/
theorem execValidate_cases (s : State) :
    (∃ c, checkFrame s.frm = .error c ∧ execValidate s = fail c s) ∨
    (∃ hdr plen, checkFrame s.frm = .ok (hdr, plen) ∧
      execValidate s = done .ok (s.acceptFrame (byteAt s.frm 2) hdr plen)) := by
  unfold execValidate
  cases h : checkFrame s.frm with
  | error c => exact .inl ⟨c, rfl, rfl⟩
  | ok pr => exact .inr ⟨pr.1, pr.2, rfl, rfl⟩

/-! ### The frame builder -/

/-- The checksum byte makes the sum of all bytes after the preamble 0 modulo 256 (R73). -/
theorem sum_checksumOf (h : Bytes) : (sumBytes (h.drop 1) + (checksumOf h).toNat) % 256 = 0 := by
  unfold checksumOf
  rw [BitVec.toNat_ofNat]
  omega

theorem standardFrame_length (mid : Byte) (payload : Bytes) : (standardFrame mid payload).length = payload.length + 5 := by
  simp [standardFrame, standardBody]

/-- The builder's frame is a standard frame on the wire. -/
theorem standardFrame_wire {mid : Byte} {payload : Bytes} (h : payload.length ≤ 254) :
    standardWire mid payload (standardFrame mid payload) := by
  refine ⟨h, ?_, _, rfl⟩
  have := sum_checksumOf (standardBody mid payload)
  rw [standardFrame]
  simpa [standardBody, Nat.add_assoc] using this

/-! ### The walk -/

/-- Everything one step of the walk can do. -/
theorem walkStep_cases (s : State) :
    (s.plen.toNat = s.cur.toNat ∧ walkStep s = done .noMore s) ∨
    (s.plen.toNat ≠ s.cur.toNat ∧ s.plen.toNat < s.cur.toNat + 3 ∧ walkStep s = done .noMoreMalformed s) ∨
    (s.cur.toNat + 3 ≤ s.plen.toNat ∧ s.flen ≤ s.poff.toNat + s.cur.toNat + 2 ∧
      walkStep s = .fault .frameReadPastEnd) ∨
    (s.cur.toNat + 3 ≤ s.plen.toNat ∧ s.poff.toNat + s.cur.toNat + 2 < s.flen ∧
      s.plen.toNat < s.cur.toNat + 3 + (byteAt s.frm (s.poff.toNat + s.cur.toNat + 2)).toNat ∧
      walkStep s = done .noMoreMalformed s) ∨
    (s.poff.toNat + s.cur.toNat + 2 < s.flen ∧
      s.cur.toNat + 3 + (byteAt s.frm (s.poff.toNat + s.cur.toNat + 2)).toNat ≤ s.plen.toNat ∧
      walkStep s = done .ok (s.advanceWalk (BitVec.ofNat 16 (wordAt s.frm (s.poff.toNat + s.cur.toNat)))
        (byteAt s.frm (s.poff.toNat + s.cur.toNat + 2)))) := by
  unfold walkStep
  by_cases h0 : s.plen.toNat = s.cur.toNat
  · exact .inl ⟨h0, if_pos h0⟩
  by_cases h1 : s.plen.toNat < s.cur.toNat + 3
  · exact .inr (.inl ⟨h0, h1, by simp only [if_neg h0, if_pos h1]⟩)
  by_cases h2 : s.flen ≤ s.poff.toNat + s.cur.toNat + 2
  · exact .inr (.inr (.inl ⟨by omega, h2, by simp only [if_neg h0, if_neg h1, if_pos h2]⟩))
  by_cases h3 : s.plen.toNat < s.cur.toNat + 3 + (byteAt s.frm (s.poff.toNat + s.cur.toNat + 2)).toNat
  · exact .inr (.inr (.inr (.inl ⟨by omega, by omega, h3, by simp only [if_neg h0, if_neg h1, if_neg h2, if_pos h3]⟩)))
  · exact .inr (.inr (.inr (.inr ⟨by omega, by omega, by simp only [if_neg h0, if_neg h1, if_neg h2, if_neg h3]⟩)))

/-- Everything SPNEXT can do. -/
theorem execSpnext_cases (s : State) :
    ((s.fv = false ∨ s.mid ≠ Config.midMtData2) ∧ execSpnext s = fail .eState s) ∨
    (s.fv = true ∧ s.mid = Config.midMtData2 ∧ execSpnext s = walkStep s) := by
  unfold execSpnext
  by_cases h : s.fv = true
  · by_cases hm : s.mid = Config.midMtData2
    · exact .inr ⟨h, hm, by simp [h, hm]⟩
    · exact .inl ⟨.inr hm, by simp [h, hm]⟩
  · exact .inl ⟨.inl (by simpa using h), by simp [h]⟩

end Sys2Proof.Machine
end

