-- ==== Sys2Proof/Laws/PerInstr.lean ====
section
/-! SUPPORT. The family EncodeShape: the encoding of a command is a table opcode and as many operand bytes as R88 reads
off their front, and those bytes assemble to the command. -/

namespace Sys2Proof.Laws.EncodeShape

/-- The shape of one command's encoding (R85 to R88). -/
def Statement (i : Instr) : Prop :=
  i.wellFormed = true → ∃ (op : Byte) (operands : Bytes) (fmt : Format),
    encode i = op :: operands ∧ formatOf op = some fmt ∧
    (∀ later, operandCount fmt (operands ++ later) = some operands.length) ∧ assemble op operands = some i

theorem nop : Statement .nop := fun _ => ⟨0x00, [], .z, rfl, by decide, fun _ => rfl, rfl⟩
theorem reset : Statement .reset := fun _ => ⟨0x01, [], .z, rfl, by decide, fun _ => rfl, rfl⟩
theorem decf32 : Statement .decf32 := fun _ => ⟨0x20, [], .z, rfl, by decide, fun _ => rfl, rfl⟩
theorem decfp1220 : Statement .decfp1220 := fun _ => ⟨0x21, [], .z, rfl, by decide, fun _ => rfl, rfl⟩
theorem decfp1632 : Statement .decfp1632 := fun _ => ⟨0x22, [], .z, rfl, by decide, fun _ => rfl, rfl⟩
theorem decf64 : Statement .decf64 := fun _ => ⟨0x23, [], .z, rfl, by decide, fun _ => rfl, rfl⟩
theorem decp : Statement .decp := fun _ => ⟨0x24, [], .z, rfl, by decide, fun _ => rfl, rfl⟩
theorem encf32 : Statement .encf32 := fun _ => ⟨0x28, [], .z, rfl, by decide, fun _ => rfl, rfl⟩
theorem encfp1220 : Statement .encfp1220 := fun _ => ⟨0x29, [], .z, rfl, by decide, fun _ => rfl, rfl⟩
theorem encfp1632 : Statement .encfp1632 := fun _ => ⟨0x2A, [], .z, rfl, by decide, fun _ => rfl, rfl⟩
theorem encf64 : Statement .encf64 := fun _ => ⟨0x2B, [], .z, rfl, by decide, fun _ => rfl, rfl⟩
theorem encp : Statement .encp := fun _ => ⟨0x2C, [], .z, rfl, by decide, fun _ => rfl, rfl⟩
theorem diddec : Statement .diddec := fun _ => ⟨0x30, [], .z, rfl, by decide, fun _ => rfl, rfl⟩
theorem didenc : Statement .didenc := fun _ => ⟨0x31, [], .z, rfl, by decide, fun _ => rfl, rfl⟩
theorem dsize : Statement .dsize := fun _ => ⟨0x32, [], .z, rfl, by decide, fun _ => rfl, rfl⟩
theorem validate : Statement .validate := fun _ => ⟨0x43, [], .z, rfl, by decide, fun _ => rfl, rfl⟩
theorem spnext : Statement .spnext := fun _ => ⟨0x50, [], .z, rfl, by decide, fun _ => rfl, rfl⟩

theorem ldw (data : Bytes) : Statement (.ldw data) := fun h =>
  ⟨0x10, bytesBe 1 data.length ++ data, .v8, rfl, by decide, fun later => by
    have hl : data.length < 256 := by simp [Instr.wellFormed] at h; omega
    simp [bytesBe, operandCount, Nat.mod_eq_of_lt hl]; omega, rfl⟩

theorem ldv (v : Double) : Statement (.ldv v) := fun _ =>
  ⟨0x11, bytesBe 8 v.toNat, .i 8, rfl, by decide, fun later => by simp [operandCount], by
    show some (Instr.ldv (BitVec.ofNat 64 (be (bytesBe 8 v.toNat)))) = some (Instr.ldv v)
    rw [double_of_bytes]⟩

theorem ldwf (off : Half) (n : Byte) : Statement (.ldwf off n) := fun _ =>
  ⟨0x12, bytesBe 2 off.toNat ++ [n], .i 3, rfl, by decide, fun later => by simp [operandCount], by
    show some (Instr.ldwf (BitVec.ofNat 16 (be (bytesBe 2 off.toNat))) n) = some (Instr.ldwf off n)
    rw [half_of_bytes off _ rfl]⟩

theorem ldid (id : Half) : Statement (.ldid id) := fun _ =>
  ⟨0x13, bytesBe 2 id.toNat, .i 2, rfl, by decide, fun later => by simp [operandCount], by
    show some (Instr.ldid (BitVec.ofNat 16 (be (bytesBe 2 id.toNat)))) = some (Instr.ldid id)
    rw [half_of_bytes id _ rfl]⟩

theorem ldsub (k c p : Half) : Statement (.ldsub k c p) := fun _ =>
  ⟨0x14, bytesBe 2 k.toNat ++ bytesBe 2 c.toNat ++ bytesBe 2 p.toNat, .i 6, rfl, by decide,
    fun later => by simp [operandCount], by
    show some (Instr.ldsub (BitVec.ofNat 16 (be (bytesBe 2 k.toNat))) (BitVec.ofNat 16 (be (bytesBe 2 c.toNat)))
      (BitVec.ofNat 16 (be (bytesBe 2 p.toNat)))) = some (Instr.ldsub k c p)
    rw [half_of_bytes k _ rfl, half_of_bytes c _ rfl, half_of_bytes p _ rfl]⟩

theorem push (data : Bytes) : Statement (.push data) := fun h =>
  ⟨0x40, bytesBe 2 data.length ++ data, .v16, rfl, by decide, fun later => by
    have hl : data.length ≤ 65535 := by simpa [Instr.wellFormed] using h
    show some (2 + be (bytesBe 2 data.length)) = _
    rw [be_count hl]; simp, rfl⟩

theorem split (f : Byte) : Statement (.split f) := fun _ => ⟨0x42, [f], .i 1, rfl, by decide, fun _ => rfl, rfl⟩

theorem construct (mid : Byte) (payload : Bytes) : Statement (.construct mid payload) := fun h =>
  ⟨0x44, mid :: bytesBe 1 payload.length ++ payload, .c, rfl, by decide, fun later => by
    have hl : payload.length < 256 := by simp [Instr.wellFormed] at h; omega
    simp [bytesBe, operandCount, Nat.mod_eq_of_lt hl]; omega, rfl⟩

theorem ldf (data : Bytes) : Statement (.ldf data) := fun h =>
  ⟨0x45, bytesBe 2 data.length ++ data, .v16, rfl, by decide, fun later => by
    have hl : data.length ≤ 65535 := by simpa [Instr.wellFormed] using h
    show some (2 + be (bytesBe 2 data.length)) = _
    rw [be_count hl]; simp, rfl⟩

end Sys2Proof.Laws.EncodeShape
end

