-- ==== Sys2Proof/Laws/Step.lean ====
section
/-! SUPPORT. The fetch and the step: everything each can do, said once. -/

namespace Sys2Proof.Machine

/-- Everything the fetch can find: nothing, an empty string, an illegal command, a command (R89). -/
theorem fetch_cases (s : State) :
    (s.host = [] ∧ fetch s = (.noCommand, s)) ∨
    (∃ later, s.host = [] :: later ∧ fetch s = (.noCommand, { s with host := later })) ∨
    (∃ b later why rest, s.host = b :: later ∧ decode b = .illegal why rest ∧
      fetch s = (.illegal why rest, { s with host := keepRest rest later })) ∨
    (∃ b later i rest, s.host = b :: later ∧ decode b = .command i rest ∧
      fetch s = (.command i rest, { s with host := keepRest rest later })) := by
  unfold fetch
  cases hs : s.host with
  | nil => exact .inl ⟨rfl, rfl⟩
  | cons b later =>
    cases hd : decode b with
    | noCommand =>
      refine .inr (.inl ⟨later, ?_, by simp [hd]⟩)
      cases b with
      | nil => rfl
      | cons op rest =>
        rcases decode_cases op rest with ⟨_, h⟩ | ⟨_, _, h⟩ | ⟨_, _, _, _, _, _, _, _, _, _, h⟩ <;> rw [h] at hd <;> cases hd
    | illegal why rest => exact .inr (.inr (.inl ⟨b, later, why, rest, rfl, hd, by simp [hd]⟩))
    | command i rest => exact .inr (.inr (.inr ⟨b, later, i, rest, rfl, hd, by simp [hd]⟩))

/-- Everything the step can do: leave the block alone, take an illegal command, run a command. -/
theorem step_cases (s : State) :
    (∃ h, step s = .next { s with host := h }) ∨
    (∃ h, step s = .next ({ s with host := h }.withCode .eIllegal)) ∨
    (∃ b later i rest, s.host = b :: later ∧ decode b = .command i rest ∧
      step s = exec i { s with host := keepRest rest later }) := by
  unfold step
  rcases fetch_cases s with ⟨_, h⟩ | ⟨l, _, h⟩ | ⟨b, l, w, r, _, _, h⟩ | ⟨b, l, i, r, hb, hd, h⟩ <;> rw [h]
  · exact .inl ⟨s.host, rfl⟩
  · exact .inl ⟨l, rfl⟩
  · exact .inr (.inl ⟨_, rfl⟩)
  · exact .inr (.inr ⟨b, l, i, r, hb, hd, rfl⟩)

end Sys2Proof.Machine
end

