-- ==== Sys2Proof/Tests/Slice0.lean ====
section
/-! SUPPORT. Our own tests: ill-formed terms that WellFormed refuses, one word per command written out from R92, one or
two single steps per command with results from `spec/95_test_vectors.md` or the rule's own example, and for every
obligation with hypotheses a state and operands that meet them (clause by clause, at the ends of the ranges). -/

namespace Sys2Proof.Tests

-- One theorem at a time: many small kernel evaluations at once need a thread each.
set_option Elab.async false

open Sys2Proof.Machine

/-- Does the step go on to a state with this property? -/
def after (o : Result) (p : State → Bool) : Bool :=
  match o with
  | .next s => p s
  | .fault _ => false
  | .refused _ => false

/-- The state after reset with some wire bytes loaded. -/
def withWire (data : Bytes) : State := State.reset.loadWire data
/-- The state after reset with a value in `V`. -/
def withValue (v : Double) : State := { State.reset with v := v }
/-- The state after reset with bytes in FRM. -/
def withFrame (f : Bytes) : State := { State.reset with frm := f }
/-- The state after reset with bytes in RXB. -/
def withQueue (b : Bytes) : State := { State.reset with rxb := b }
/-- The state after reset with the three subfield registers loaded. -/
def withSubfields (k c p : Half) : State := { State.reset with kind := k, coord := c, prec := p }

/-! ### WellFormed refuses (R85, R88) -/

theorem wellFormed_refuses_ldw : (Instr.ldw (List.replicate 256 0)).wellFormed = false := by decide +kernel
theorem wellFormed_push_replicate (n : Nat) : (Instr.push (List.replicate n 0)).wellFormed = decide (n ≤ 65535) := by
  simp [Instr.wellFormed]
theorem wellFormed_ldf_replicate (n : Nat) : (Instr.ldf (List.replicate n 0)).wellFormed = decide (n ≤ 65535) := by
  simp [Instr.wellFormed]
theorem wellFormed_refuses_push : (Instr.push (List.replicate 65536 0)).wellFormed = false :=
  (wellFormed_push_replicate 65536).trans (by decide)
theorem wellFormed_refuses_construct : (Instr.construct 0 (List.replicate 256 0)).wellFormed = false := by decide +kernel
theorem wellFormed_refuses_ldf : (Instr.ldf (List.replicate 65536 0)).wellFormed = false :=
  (wellFormed_ldf_replicate 65536).trans (by decide)

/-! ### Words written out from R92 -/

theorem decode_nop : decode [0x00] = .command .nop [] := by decide
theorem decode_reset : decode [0x01] = .command .reset [] := by decide
theorem decode_ldw : decode [0x10, 0x02, 0xA1, 0xB2] = .command (.ldw [0xA1, 0xB2]) [] := by decide
theorem decode_clrw : decode [0x10, 0x00] = .command (.ldw []) [] := by decide
theorem decode_ldv : decode [0x11, 0x40, 0x4C, 0xD6, 0xF8, 0x18, 0x00, 0x00, 0x01] =
    .command (.ldv 0x404CD6F818000001) [] := by decide
theorem decode_ldwf : decode [0x12, 0x01, 0x07, 0x06] = .command (.ldwf 0x0107 6) [] := by decide
theorem decode_ldid : decode [0x13, 0x20, 0x1B] = .command (.ldid 0x201B) [] := by decide
theorem decode_ldsub : decode [0x14, 0x20, 0x10, 0x00, 0x08, 0x00, 0x03] = .command (.ldsub 0x2010 0x0008 0x0003) [] := by
  decide
theorem decode_decf32 : decode [0x20] = .command .decf32 [] := by decide
theorem decode_decfp1220 : decode [0x21] = .command .decfp1220 [] := by decide
theorem decode_decfp1632 : decode [0x22] = .command .decfp1632 [] := by decide
theorem decode_decf64 : decode [0x23] = .command .decf64 [] := by decide
theorem decode_decp : decode [0x24] = .command .decp [] := by decide
theorem decode_encf32 : decode [0x28] = .command .encf32 [] := by decide
theorem decode_encfp1220 : decode [0x29] = .command .encfp1220 [] := by decide
theorem decode_encfp1632 : decode [0x2A] = .command .encfp1632 [] := by decide
theorem decode_encf64 : decode [0x2B] = .command .encf64 [] := by decide
theorem decode_encp : decode [0x2C] = .command .encp [] := by decide
theorem decode_diddec : decode [0x30] = .command .diddec [] := by decide
theorem decode_didenc : decode [0x31] = .command .didenc [] := by decide
theorem decode_dsize : decode [0x32] = .command .dsize [] := by decide
theorem decode_push : decode [0x40, 0x00, 0x03, 0xFA, 0xFF, 0x30] = .command (.push [0xFA, 0xFF, 0x30]) [] := by decide
theorem decode_split : decode [0x42, 0x01] = .command (.split 1) [] := by decide
theorem decode_validate : decode [0x43] = .command .validate [] := by decide
theorem decode_construct : decode [0x44, 0x42, 0x01, 0x04] = .command (.construct 0x42 [0x04]) [] := by decide
theorem decode_ldf : decode [0x45, 0x00, 0x02, 0xFA, 0xFF] = .command (.ldf [0xFA, 0xFF]) [] := by decide
theorem decode_spnext : decode [0x50] = .command .spnext [] := by decide

/-- R89: one byte of an unknown opcode, the rest decoded next. -/
theorem decode_unknown : decode [0x02, 0x43] = .illegal (.unknownOpcode 0x02) [0x43] := by decide
/-- R89: a truncated command is all the bytes. -/
theorem decode_truncated : decode [0x40, 0x00, 0x03, 0xFA, 0xFF] = .illegal (.truncated 0x40) [] := by decide
/-- Bytes after the command stay (R89). -/
theorem decode_leaves_rest : decode [0x10, 0x01, 0x55, 0x20, 0x21] = .command (.ldw [0x55]) [0x20, 0x21] := by decide

/-! ### The numbering of `spec/opcode_table.json` -/

theorem tableWord_ldid : decodeTableWord 24 0x1B2013 = some (.ldid 0x201B) := by decide
theorem tableWord_short_row : decodeTableWord 8 0x11 = some (.ldv 0) := by decide
theorem tableWord_unknown : decodeTableWord 8 0x33 = none := by decide
theorem step_runs_tableWord :
    after (step (State.reset.withFetchWord 24 0x1B2013)) (fun s => s.id == 0x201B && s.host == []) = true := by decide
theorem step_runs_short_row :
    after (step (State.reset.withFetchWord 8 0x44)) (fun s => s.frm == [0xFA, 0xFF, 0x00, 0x00, 0x01]) = true := by
  decide +kernel

/-! ### Single steps -/

/-- R198: a NOP erases the code of the command before it. -/
theorem nop_erases_code : after (exec .nop (State.reset.withCode .eOperand)) (fun s => s == State.reset) = true := by decide
/-- R199: everything goes, a set `FV` among it. -/
theorem reset_clears : after (exec .reset ((withFrame [0xFA]).withFv true)) (fun s => s == State.reset) = true := by decide
/-- R191's example. -/
theorem ldw_example : after (exec (.ldw [0x03, 0x9A, 0xDF, 0x03]) (withWire [1, 2, 3, 4, 5, 6, 7, 8]))
    (fun s => s.wire 8 == [0x03, 0x9A, 0xDF, 0x03, 0, 0, 0, 0] && s.wn == 4) = true := by decide
/-- R191: nine bytes fault and change nothing. -/
theorem ldw_nine : after (exec (.ldw [1, 2, 3, 4, 5, 6, 7, 8, 9]) (withWire [0x55]))
    (fun s => s.code == 0x30 && s.wire 8 == [0x55, 0, 0, 0, 0, 0, 0, 0] && s.wn == 1) = true := by decide
/-- R192's example, through the decoder. -/
theorem ldv_example :
    after (step (State.reset.present [0x11, 0x40, 0x4C, 0xD6, 0xF8, 0x18, 0x00, 0x00, 0x00]))
      (fun s => s.v == 0x404CD6F818000000) = true := by decide
/-- R193's example, and the checksum byte at the end of FRM. -/
theorem ldwf_example : after (exec (.ldwf 4 1) (withFrame [0xFA, 0xFF, 0x42, 0x01, 0x04, 0xBA]))
    (fun s => s.wire 8 == [0x04, 0, 0, 0, 0, 0, 0, 0] && s.wn == 1) = true := by decide
theorem ldwf_past_end : after (exec (.ldwf 5 2) (withFrame [0xFA, 0xFF, 0x42, 0x01, 0x04, 0xBA]))
    (fun s => s.code == 0x30 && s.wn == 0) = true := by decide
/-- R195's example: all three subfields, in order. -/
theorem ldsub_example : after (exec (.ldsub 0x2010 0x0008 0x0003) State.reset)
    (fun s => s.kind == 0x2010 && s.coord == 0x0008 && s.prec == 0x0003) = true := by decide
/-- V-DECF32: a subnormal, and a signalling NaN that stays one. -/
theorem decf32_subnormal : after (exec .decf32 (withWire [0x00, 0x7F, 0xFF, 0xFF])) (fun s => s.v == 0x380FFFFFC0000000) = true := by
  decide +kernel
theorem decf32_nan : after (exec .decf32 (withWire [0x7F, 0x80, 0x00, 0x01])) (fun s => s.v == 0x7FF0000020000000) = true := by
  decide +kernel
/-- V-DECFP1220. -/
theorem decfp1220_minus_step : after (exec .decfp1220 (withWire [0xFF, 0xFF, 0xFF, 0xFF])) (fun s => s.v == 0xBEB0000000000000) = true := by
  decide +kernel
theorem decfp1220_example : after (exec .decfp1220 (withWire [0x03, 0x9A, 0xDF, 0x03])) (fun s => s.v == 0x404CD6F818000000) = true := by
  decide +kernel
/-- R110: the word order, and the document's example. -/
theorem decfp1632_word_order : after (exec .decfp1632 (withWire [0, 0, 0, 0, 0, 1])) (fun s => s.v == 0x3FF0000000000000) = true := by
  decide +kernel
theorem decfp1632_example : after (exec .decfp1632 (withWire [0xE1, 0xF5, 0x89, 0xE9, 0x00, 0x0B]))
    (fun s => s.v == 0x4027C3EB13D20000) = true := by decide +kernel
/-- V-DECF64. -/
theorem decf64_nan : after (exec .decf64 (withWire [0x7F, 0xF0, 0, 0, 0, 0, 0, 1])) (fun s => s.v == 0x7FF0000000000001) = true := by
  decide +kernel
/-- V-DECP: precision 2, and a wrong byte count with its diagnostic. -/
theorem decp_fp1632 : after (exec .decp { withWire [0, 0, 0, 0, 0, 1] with prec := 2 }) (fun s => s.v == 0x3FF0000000000000) = true := by
  decide +kernel
theorem decp_wrong_count : after (exec .decp { withWire [0x3F, 0x80, 0, 0] with prec := 3, id := 0x201B })
    (fun s => s.code == 0x20 && s.einfo == 0x0013201B && s.v == 0) = true := by decide +kernel
/-- V-ENCF32: the tie up to infinity, and a tie to even. -/
theorem encf32_overflow : after (exec .encf32 (withValue 0x47EFFFFFF0000000)) (fun s => s.wire 4 == [0x7F, 0x80, 0x00, 0x00]) = true := by
  decide +kernel
theorem encf32_tie : after (exec .encf32 (withValue 0x3FF0000030000000)) (fun s => s.wire 4 == [0x3F, 0x80, 0x00, 0x02]) = true := by
  decide +kernel
/-- V-ENCFP1220: a negative tie away from zero, and the first value that faults. -/
theorem encfp1220_tie : after (exec .encfp1220 (withValue 0xBEA0000000000000)) (fun s => s.wire 4 == [0xFF, 0xFF, 0xFF, 0xFF]) = true := by
  decide +kernel
theorem encfp1220_range : after (exec .encfp1220 (withValue 0x409FFFFFFFE00000)) (fun s => s.code == 0x31 && s.wn == 0) = true := by
  decide +kernel
/-- V-ENC1632. -/
theorem encfp1632_negative : after (exec .encfp1632 (withValue 0xBFE0000000000000))
    (fun s => s.wire 6 == [0x80, 0, 0, 0, 0xFF, 0xFF] && s.wn == 6) = true := by decide +kernel
theorem encfp1632_range : after (exec .encfp1632 (withValue 0xC0E0000000000010)) (fun s => s.code == 0x31) = true := by
  decide +kernel
/-- R117's example. -/
theorem encf64_example : after (exec .encf64 (withValue 0x3FF0000000000000))
    (fun s => s.wire 8 == [0x3F, 0xF0, 0, 0, 0, 0, 0, 0] && s.wn == 8) = true := by decide +kernel
/-- R118's example, and a precision above 3. -/
theorem encp_example : after (exec .encp { withValue 0x404CD6F818000000 with prec := 1 })
    (fun s => s.wire 4 == [0x03, 0x9A, 0xDF, 0x03] && s.wn == 4) = true := by decide +kernel
theorem encp_bad_precision : after (exec .encp { withValue 0x404CD6F818000000 with prec := 4 }) (fun s => s.code == 0x30) = true := by
  decide +kernel
/-- R131's example, and the dropped bits 10:8. -/
theorem diddec_example : after (exec .diddec { State.reset with id := 0x271B })
    (fun s => s.kind == 0x2010 && s.coord == 0x0008 && s.prec == 0x0003 && s.id == 0x271B) = true := by decide
/-- R133's example, and `KIND` with bit 8 set. -/
theorem didenc_example : after (exec .didenc (withSubfields 0x2010 0x0008 0x0003)) (fun s => s.id == 0x201B) = true := by decide
theorem didenc_spill : after (exec .didenc (withSubfields 0x2110 0x0008 0x0003)) (fun s => s.code == 0x30 && s.id == 0) = true := by
  decide
/-- R137: the classes, on a table of a fixed and a multiple row. -/
theorem dataSize_classes : [dataSize [(0x1010, .fixed 12), (0x2010, .mult 4)] 0x2010 .fp1632,
    dataSize [(0x1010, .fixed 12), (0x2010, .mult 4)] 0x1010 .float64,
    dataSize [(0x1010, .fixed 12), (0x2010, .mult 4)] 0x4020 .float32] = [24, 12, 0] := by decide
theorem dsize_bad_precision : after (exec .dsize (withSubfields 0x2010 0 4)) (fun s => s.code == 0x30 && s.sz == 0) = true := by
  decide
/-- R151's example, on a queue that is not empty. -/
theorem push_appends : after (exec (.push [0xFA, 0xFF, 0x30]) (withQueue [0x11])) (fun s => s.rxb == [0x11, 0xFA, 0xFF, 0x30]) = true := by
  decide
/-- R152's example: the token, and what stays. -/
theorem split_example :
    after (exec (.split 0) (withQueue [0x11, 0xFA, 0x22, 0x33, 0xFA, 0xFF, 0x30, 0x00, 0xD1, 0xFA, 0x01, 0x44]))
      (fun s => s.code == 0 && s.frm == [0xFA, 0xFF, 0x30, 0x00, 0xD1] && s.rxb == [0xFA, 0x01, 0x44]) = true := by decide
theorem split_half_marker : after (exec (.split 1) (withQueue [0x22, 0xFA])) (fun s => s.code == 0x02 && s.rxb == [0xFA]) = true := by
  decide
/-- R158's examples. -/
theorem validate_example : after (exec .validate (withFrame [0xFA, 0xFF, 0x42, 0x01, 0x04, 0xBA]))
    (fun s => s.code == 0 && s.mid == 0x42 && s.poff == 4 && s.plen == 1 && s.cur == 0 && s.fv) = true := by decide
theorem validate_checksum : after (exec .validate (withFrame [0xFA, 0xFF, 0x42, 0x01, 0x05, 0xBA]))
    (fun s => s.code == 0x15 && !s.fv && s.mid == 0) = true := by decide
/-- R164's example, and the count 255. -/
theorem construct_example : after (exec (.construct 0x42 [0x04]) State.reset)
    (fun s => s.frm == [0xFA, 0xFF, 0x42, 0x01, 0x04, 0xBA] && !s.fv) = true := by decide
theorem construct_too_long : after (exec (.construct 0x42 (List.replicate 255 0)) (withFrame [0x01]))
    (fun s => s.code == 0x30 && s.frm == [0x01]) = true := by decide +kernel
/-- R167: FRM is replaced and `FV` cleared. -/
theorem ldf_clears : after (exec (.ldf [0x01, 0x02]) ((withFrame [0xFA]).withFv true)) (fun s => s.frm == [0x01, 0x02] && !s.fv) = true := by
  decide
/-- R181's example (its frame, the walk alone so that the value of `MID_MTDATA2` does not matter). -/
theorem spnext_first : after (walkStep { withFrame [0xFA, 0xFF, 0x36, 0x09, 0x20, 0x1B, 0x01, 0x09, 0x10, 0x20, 0x02, 0x00, 0x07, 0x44]
    with poff := 4, plen := 9 }) (fun s => s.id == 0x201B && s.splen == 1 && s.spoff == 7 && s.cur == 4) = true := by decide
theorem spnext_second : after (walkStep { withFrame [0xFA, 0xFF, 0x36, 0x09, 0x20, 0x1B, 0x01, 0x09, 0x10, 0x20, 0x02, 0x00, 0x07, 0x44]
    with poff := 4, plen := 9, cur := 4 }) (fun s => s.id == 0x1020 && s.splen == 2 && s.spoff == 11 && s.cur == 9) = true := by
  decide

/-! ### Witnesses: bytes and the step -/

theorem witness_DecodeOfEncodeIsIdentity : (Instr.ldw (List.replicate 255 0xFF)).wellFormed = true ∧
    (Instr.push (List.replicate 65535 0)).wellFormed = true ∧ Instr.nop.wellFormed = true :=
  ⟨by decide +kernel, (wellFormed_push_replicate 65535).trans (by decide), by decide⟩

theorem witness_EncodeOfDecodeIsIdentity : decode [0x42, 0x01, 0x43] = .command (.split 1) [0x43] := by decide

theorem witness_TruncatedCommandIsIllegal : (Instr.construct 0x42 [0x04]).wellFormed = true ∧ 0 < 1 ∧
    1 < (encode (.construct 0x42 [0x04])).length ∧ 3 < (encode (.construct 0x42 [0x04])).length := by decide

theorem witness_IllegalCommandChangesOnlyCode :
    (State.reset.present [0xFF, 0x00]).host = [0xFF, 0x00] :: [] ∧ decode [0xFF, 0x00] = .illegal (.unknownOpcode 0xFF) [0x00] ∧
    (State.reset.present [0x42]).host = [0x42] :: [] ∧ decode [0x42] = .illegal (.truncated 0x42) [] := by decide

theorem witness_StepRunsDecodedCommand :
    (State.reset.present [0x30, 0x31]).host = [0x30, 0x31] :: [] ∧ decode [0x30, 0x31] = .command .diddec [0x31] ∧
    (State.reset.present [0xFF]).host = [0xFF] :: [] ∧ decode [0xFF] = .illegal (.unknownOpcode 0xFF) [] := by decide

theorem witness_PresentedCommandRuns : (Instr.ldf (List.replicate 65535 0)).wellFormed = true :=
  (wellFormed_ldf_replicate 65535).trans (by decide)

theorem witness_IdleStepChangesNothing : State.reset.host = [] ∧ (State.reset.present []).host = [] :: [] := by decide

/-- A state in which a validated MTData2 frame of this payload stands in FRM and the walk is at `cur`. -/
def walking (payload : Bytes) (cur : BitVec 12) : State :=
  { (withFrame (standardFrame Config.midMtData2 payload)).acceptFrame Config.midMtData2 4 payload.length with cur := cur }

theorem walking_inv {payload : Bytes} {cur : BitVec 12} (h : payload.length ≤ 254) (hc : cur.toNat ≤ payload.length) :
    (walking payload cur).Inv := by
  obtain ⟨_, hs, _, _⟩ := standardFrame_wire (mid := Config.midMtData2) h
  have hl : (standardFrame Config.midMtData2 payload).length = payload.length + 5 := standardFrame_length _ _
  have h4 : (walking payload cur).poff.toNat = 4 := rfl
  have hp : (walking payload cur).plen.toNat = payload.length := by
    show (BitVec.ofNat 12 payload.length).toNat = _
    rw [BitVec.toNat_ofNat, Nat.mod_eq_of_lt (by omega)]
  have hf : (walking payload cur).flen = payload.length + 5 := hl
  have hsr : (walking payload cur).srReserved = 0 := by
    rw [walking]; refine (State.acceptFrame_srReserved _ _ _ _).trans ?_
    show (0 : BitVec 16).extractLsb' 9 7 = 0
    decide
  have hcode : (walking payload cur).code = Status.ok.byte := (State.acceptFrame_code _ _ _ _).trans rfl
  have heinfo : (walking payload cur).einfo.extractLsb' 22 10 = 0 := by
    show (0 : BitVec 32).extractLsb' 22 10 = 0
    decide
  refine ⟨Nat.zero_le _, fun i hi _ => ?_, ?_, by omega, hsr, ⟨.ok, hcode⟩, heinfo, .inr (.inl h4), by omega, ?_, Nat.zero_le _, ?_⟩
  · interval_cases i <;> rfl
  · have := frmCap_ge
    rw [memory_wf_iff]
    exact ⟨by rw [show (walking payload cur).frm.length = payload.length + 5 from hl]; omega, Nat.zero_le _⟩
  · rw [hp]; exact hc
  · intro _
    have hb : (BitVec.ofNat 8 payload.length).toNat = payload.length := by
      rw [BitVec.toNat_ofNat, Nat.mod_eq_of_lt (by omega)]
    have hne : BitVec.ofNat 8 payload.length ≠ 0xFF := fun he => by
      have := congrArg BitVec.toNat he
      rw [hb] at this
      simp at this
      omega
    exact ⟨.inl h4, .inl ⟨BitVec.ofNat 8 payload.length, rfl, hne, h4, by omega⟩, by omega, by omega, by omega, rfl, rfl, rfl, hs⟩

theorem walking_fv (payload : Bytes) (cur : BitVec 12) : (walking payload cur).fv = true := State.acceptFrame_fv _ _ _ _
theorem walking_mid (payload : Bytes) (cur : BitVec 12) : (walking payload cur).mid = Config.midMtData2 := rfl

/-- A state with a validated frame in FRM: the step of a presented SPLIT. -/
theorem witness_StepKeepsInvariants : (walking [1, 2, 3] 3).Inv ∧ step (walking [1, 2, 3] 3) = .next (walking [1, 2, 3] 3) ∧
    (withFrame []).Inv ∧ step (withFrame []) = .next (withFrame []) :=
  ⟨walking_inv (by decide) (by decide), rfl,
    ⟨by decide, fun i h _ => by interval_cases i <;> rfl, reset_memory_wf, by decide, by decide, ⟨.ok, by decide⟩, by decide,
      .inl rfl, by decide, by decide, by decide, fun h => absurd h (by decide)⟩, rfl⟩

theorem witness_StepGoesOn : (walking [0x20, 0x1B, 0x00] 0).Inv := walking_inv (by decide) (by decide)

/-! ### Witnesses: loads -/

theorem witness_LdwLoadsWire : ([1, 2, 3, 4, 5, 6, 7, 8] : Bytes).length ≤ 8 ∧ 8 < ([1, 2, 3, 4, 5, 6, 7, 8, 9] : Bytes).length := by
  decide

theorem witness_ImmediateLoadsAreBigEndian : ([0x40, 0x4C, 0xD6, 0xF8, 0x18, 0, 0, 0] : Bytes).length = 8 := by decide

theorem witness_LdwfLoadsFrameBytes :
    (8 : Byte).toNat ≤ 8 ∧ (2 : Half).toNat + (8 : Byte).toNat ≤ (withFrame [0, 1, 2, 3, 4, 5, 6, 7, 8, 9]).flen ∧ 8 < (9 : Byte).toNat ∧
    (withFrame [0, 1, 2]).flen < (2 : Half).toNat + (2 : Byte).toNat := by decide

/-- The highest offset and the longest token: seven bytes end exactly at FLEN, eight do not (log entry 13). -/
theorem witness_LdwfLoadsFrameBytes_highest :
    (0xFFFF : Half).toNat + (7 : Byte).toNat ≤ (withFrame (List.replicate 65542 0)).flen ∧
    (withFrame (List.replicate 65542 0)).flen < (0xFFFF : Half).toNat + (8 : Byte).toNat := by
  have h : (withFrame (List.replicate 65542 0)).flen = 65542 := List.length_replicate
  rw [h]; decide

/-! ### Witnesses: the numeric codec -/

theorem witness_DecodeFaultsOnWrongByteCount :
    (withWire [1, 2, 3]).wn.toNat ≠ Precision.float32.width ∧ (withWire [1, 2, 3]).prec.toNat = Precision.float32.code.toNat ∧
    (withWire [1, 2, 3, 4, 5, 6, 7, 8]).wn.toNat = Precision.float64.width ∧
    { withWire [1, 2, 3, 4, 5, 6, 7, 8] with prec := 3 }.prec.toNat = Precision.float64.code.toNat := by decide

theorem witness_WideningIsExact :
    exp32 0x7FC00000 = 255 ∧ exp32 0x80000000 = 0 ∧ frac32 0x80000000 = 0 ∧
    exp32 0x00000001 = 0 ∧ 0 < 1 ∧ 2 ^ (1 - 1) ≤ frac32 0x00000001 ∧ frac32 0x00000001 < 2 ^ 1 ∧
    exp32 0x007FFFFF = 0 ∧ 2 ^ (23 - 1) ≤ frac32 0x007FFFFF ∧ frac32 0x007FFFFF < 2 ^ 23 ∧
    exp32 0x00800000 ≠ 255 ∧ exp32 0x00800000 ≠ 0 ∧ finite32 0x7F7FFFFF := by decide +kernel

theorem witness_Decf32Widens : (withWire [0, 0, 0, 1]).wn.toNat = 4 ∧ (withWire [0, 0, 1]).wn.toNat ≠ 4 := by decide
theorem witness_Decfp1220IsExact : (withWire [0x80, 0, 0, 0]).wn.toNat = 4 ∧ State.reset.wn.toNat ≠ 4 := by decide
theorem witness_Decfp1632IsExact : (withWire [0, 0, 0, 0, 0x80, 0]).wn.toNat = 6 ∧ (withWire [0, 0, 0, 0]).wn.toNat ≠ 6 := by decide
theorem witness_Decf64Copies : (withWire [0, 0, 0, 0, 0, 0, 0, 1]).wn.toNat = 8 ∧ (withWire [0]).wn.toNat ≠ 8 := by decide

theorem witness_DecpSelectsByPrecision :
    3 < { withWire [1, 2, 3, 4] with prec := 4 }.prec.toNat ∧
    { withWire [1, 2, 3, 4, 5, 6] with prec := 2 }.prec.toNat = Precision.fp1632.code.toNat ∧
    { withWire [1, 2, 3, 4, 5, 6] with prec := 2 }.wn.toNat = Precision.fp1632.width := by decide

theorem val64_ne_zero {v : Double} (h : exp64 v ≠ 0 ∨ frac64 v ≠ 0) : val64 v ≠ 0 := by
  rw [ne_eq, val64_eq_zero_iff]; tauto

/-- The four special branches, and finite values that reach each finite one: the overflow, the underflow to zero, a
subnormal, the carry to the next exponent, a normal number. -/
theorem witness_NarrowingRoundsToNearestEven :
    (exp64 0xFFF0000000000000 = 0x7FF ∧ frac64 0xFFF0000000000000 = 0) ∧ nan64 0x7FF0000000000001 ∧ nan64 0x7FF8000000000000 ∧
    (exp64 0x8000000000000000 = 0 ∧ frac64 0x8000000000000000 = 0) ∧
    (finite64 0x47EFFFFFF0000000 ∧ val64 0x47EFFFFFF0000000 ≠ 0) ∧ (finite64 0x3690000000000000 ∧ val64 0x3690000000000000 ≠ 0) ∧
    (finite64 0x36A8000000000000 ∧ val64 0x36A8000000000000 ≠ 0) ∧ (finite64 0x3FEFFFFFFFFFFFFF ∧ val64 0x3FEFFFFFFFFFFFFF ≠ 0) ∧
    (finite64 0x3FF0000010000001 ∧ val64 0x3FF0000010000001 ≠ 0) := by
  refine ⟨by decide +kernel, by decide +kernel, by decide +kernel, by decide +kernel, ?_, ?_, ?_, ?_, ?_⟩ <;>
    exact ⟨by decide +kernel, val64_ne_zero (by decide +kernel)⟩

theorem witness_NarrowingBitRecipe : (897 ≤ exp64 0x3810000000000000 ∧ exp64 0x3810000000000000 ≤ 1150) ∧
    (897 ≤ exp64 0x47EFFFFFF0000000 ∧ exp64 0x47EFFFFFF0000000 ≤ 1150) := by decide +kernel

/-- The two ends of the range, one step past each, and a NaN. -/
theorem witness_Encfp1220Rounds :
    (finite64 0x409FFFFFFFDFFFFF ∧ 2 ^ 31 - 1 = roundHalfAway (val64 0x409FFFFFFFDFFFFF * 2 ^ 20)) ∧
    (finite64 0xC0A00000000FFFFF ∧ -2 ^ 31 = roundHalfAway (val64 0xC0A00000000FFFFF * 2 ^ 20)) ∧
    2 ^ 31 - 1 < roundHalfAway (val64 0x409FFFFFFFE00000 * 2 ^ 20) ∧ roundHalfAway (val64 0xC0A0000000100000 * 2 ^ 20) < -2 ^ 31 ∧
    ¬ finite64 0x7FF8000000000000 := by
  simp only [← roundScaled_eq]; decide +kernel

theorem witness_Encfp1632Rounds :
    (finite64 0x40DFFFFFFFFFFFDF ∧ 2 ^ 47 - 1 = roundHalfAway (val64 0x40DFFFFFFFFFFFDF * 2 ^ 32)) ∧
    (finite64 0xC0E000000000000F ∧ -2 ^ 47 = roundHalfAway (val64 0xC0E000000000000F * 2 ^ 32)) ∧
    2 ^ 47 - 1 < roundHalfAway (val64 0x40DFFFFFFFFFFFE0 * 2 ^ 32) ∧ roundHalfAway (val64 0xC0E0000000000010 * 2 ^ 32) < -2 ^ 47 ∧
    ¬ finite64 0xFFF0000000000000 := by
  simp only [← roundScaled_eq]; decide +kernel

theorem abs_val64_of {v : Double} {m : Nat} {k : Int} (hm : significand64 v = m) (hk : scale64 v = k) :
    |val64 v| = (m : ℚ) * (2 : ℚ) ^ k := by rw [abs_val64, hm, hk]

theorem witness_EncpSelectsByPrecision :
    3 < (withSubfields 0 0 4).prec.toNat ∧ (withSubfields 0 0 0).prec.toNat = 0 ∧ (withSubfields 0 0 3).prec.toNat = 3 ∧
    (withSubfields 0 0 1).prec.toNat = Precision.fp1220.code.toNat ∧ (finite64 0x409FFC0000000000 ∧ |val64 0x409FFC0000000000| ≤ 2047) ∧
    (withSubfields 0 0 2).prec.toNat = Precision.fp1632.code.toNat ∧ (finite64 0xC0DFFFC000000000 ∧ |val64 0xC0DFFFC000000000| ≤ 32767) := by
  refine ⟨by decide, by decide, by decide, by decide, ⟨by decide +kernel, ?_⟩, by decide, ⟨by decide +kernel, ?_⟩⟩
  · rw [abs_val64_of (m := 9002801208229888) (k := -42) (by decide +kernel) (by decide +kernel)]; norm_num
  · rw [abs_val64_of (m := 9006924376834048) (k := -38) (by decide +kernel) (by decide +kernel)]; norm_num

theorem witness_EncodeOfDecodeReproducesWire :
    (withWire [0x7F, 0x80, 0x00, 0x01]).wn.toNat = Precision.float32.width ∧ (withWire [0x80, 0, 0, 0]).wn.toNat = Precision.fp1220.width ∧
    (withWire [0, 0, 0, 0, 0x80, 0]).wn.toNat = Precision.fp1632.width ∧
    (withWire [0xFF, 0xF0, 0, 0, 0, 0, 0, 1]).wn.toNat = Precision.float64.width := by decide

theorem decodeAs_goesOn (p : Precision) (s : State) : ∃ u, decodeAs p s = .next u := by
  unfold decodeAs; split <;> exact ⟨_, rfl⟩
theorem decode_goesOn (p : Precision) (s : State) : ∃ u, exec p.decodeCommand s = .next u := by
  cases p
  · exact decodeAs_goesOn .float32 s
  · exact decodeAs_goesOn .fp1220 s
  · exact decodeAs_goesOn .fp1632 s
  · exact decodeAs_goesOn .float64 s

/-- `0.1` through FixedPoint12_20 and back (V-ENCFP1220), and a NaN through Float64. -/
theorem witness_DecodeOfEncodeLosesOnlyRounding :
    (exec .encf64 (withValue 0x7FF0000000000001) = .next (((withValue 0x7FF0000000000001).loadWire [0x7F, 0xF0, 0, 0, 0, 0, 0, 1]).withCode .ok) ∧
      ∃ u, exec .decf64 (((withValue 0x7FF0000000000001).loadWire [0x7F, 0xF0, 0, 0, 0, 0, 0, 1]).withCode .ok) = .next u) ∧
    (exec Precision.fp1220.encodeCommand (withValue 0x3FB999999999999A) =
        .next (((withValue 0x3FB999999999999A).loadWire [0x00, 0x01, 0x99, 0x9A]).withCode .ok) ∧
      (((withValue 0x3FB999999999999A).loadWire [0x00, 0x01, 0x99, 0x9A]).withCode .ok).code = Status.ok.byte ∧
      ∃ u, exec Precision.fp1220.decodeCommand (((withValue 0x3FB999999999999A).loadWire [0x00, 0x01, 0x99, 0x9A]).withCode .ok) = .next u) := by
  have h64 : encodeValue .float64 0x7FF0000000000001 = some [0x7F, 0xF0, 0, 0, 0, 0, 0, 1] := by decide +kernel
  have h1220 : encodeValue .fp1220 0x3FB999999999999A = some [0x00, 0x01, 0x99, 0x9A] := by decide +kernel
  refine ⟨⟨?_, decode_goesOn .float64 _⟩, ?_, by simp, decode_goesOn .fp1220 _⟩
  · show encodeAs .float64 (withValue 0x7FF0000000000001) = _
    simp only [encodeAs, withValue, h64, done]
  · show encodeAs .fp1220 (withValue 0x3FB999999999999A) = _
    simp only [encodeAs, withValue, h1220, done]

/-! ### Witnesses: data identifiers -/

theorem witness_SubfieldsInRangeAfterDiddec :
    exec .diddec { State.reset with id := 0x271B } = .next { withSubfields 0x2010 0x0008 0x0003 with id := 0x271B } ∧
    (∃ u, exec .didenc { withSubfields 0x2010 0x0008 0x0003 with id := 0x271B } = .next u) ∧
    (∃ u, exec .dsize { withSubfields 0x2010 0x0008 0x0003 with id := 0x271B } = .next u) ∧
    (∃ u, exec .decp { withSubfields 0x2010 0x0008 0x0003 with id := 0x271B } = .next u) ∧
    (∃ u, exec .encp { withSubfields 0x2010 0x0008 0x0003 with id := 0x271B } = .next u) :=
  ⟨rfl, ⟨_, rfl⟩, ⟨_, rfl⟩, ⟨_, rfl⟩, ⟨_, rfl⟩⟩

theorem witness_DidencJoinsSubfields :
    ((0xF8F0 : Half) &&& ~~~(0xF8F0 : Half) = 0 ∧ (0x000C : Half) &&& ~~~(0x000C : Half) = 0 ∧ (0x0003 : Half) &&& ~~~(0x0003 : Half) = 0) ∧
    (0x0100 : Half) &&& ~~~(0xF8F0 : Half) ≠ 0 ∧ (0x0002 : Half) &&& ~~~(0x000C : Half) ≠ 0 ∧ (0x0004 : Half) &&& ~~~(0x0003 : Half) ≠ 0 := by
  decide

theorem witness_IdentifierRoundTrips :
    exec .didenc (withSubfields 0x2010 0x000C 0x0003) = .next { withSubfields 0x2010 0x000C 0x0003 with id := 0x201F } ∧
    State.code { withSubfields 0x2010 0x000C 0x0003 with id := 0x201F } = Status.ok.byte ∧
    (∃ u, exec .diddec { withSubfields 0x2010 0x000C 0x0003 with id := 0x201F } = .next u) ∧
    exec .diddec { State.reset with id := 0x271B } = .next { withSubfields 0x2010 0x0008 0x0003 with id := 0x271B } :=
  ⟨rfl, by decide, ⟨_, rfl⟩, rfl⟩

/-- A legal table with a row of each class at an end of its bounds, and the state's clauses. -/
theorem witness_DsizeLooksUpKind :
    Config.tableLegal [(0x1010, .fixed 65535), (0x2010, .mult 4), (0xF8F0, .mult 8191)] = true ∧
    List.lookup (0x4020 : Half) [(0x1010, .fixed 65535), (0x2010, .mult 4), (0xF8F0, .mult 8191)] = (none : Option SizeClass) ∧
    List.lookup (0xF8F0 : Half) [(0x1010, .fixed 65535), (0x2010, .mult 4), (0xF8F0, .mult 8191)] = some (SizeClass.mult 8191) ∧
    List.lookup (0x1010 : Half) [(0x1010, .fixed 65535), (0x2010, .mult 4), (0xF8F0, .mult 8191)] = some (SizeClass.fixed 65535) ∧
    3 < (withSubfields 0x2010 0 4).prec.toNat ∧ (withSubfields 0x2010 0 3).prec.toNat = Precision.float64.code.toNat ∧
    (withSubfields 0x2010 0 3).kind = 0x2010 ∧ (withSubfields 0x0100 0 0).kind &&& ~~~(0xF8F0 : Half) ≠ 0 := by decide

/-! ### Witnesses: frames -/

/-- RXB exactly full after the push, and one byte too many. -/
theorem witness_PushAppendsOrFaults : ([0xFA] : Bytes).length ≤ 65535 ∧
    (withQueue (List.replicate (Config.rxCap - 1) 0)).rxb.length + ([0xFA] : Bytes).length ≤ Config.rxCap ∧
    Config.rxCap < (withQueue (List.replicate Config.rxCap 0)).rxb.length + ([0xFA] : Bytes).length := by
  have := rxCap_ge
  simp [withQueue]; omega

theorem headerSays_standard : headerSays [0xFA, 0xFF, 0x30, 0x00, 0xD1] 4 0 := .inl ⟨0x00, by decide⟩
theorem headerSays_extended : headerSays [0xFA, 0xFF, 0x30, 0xFF, 0x00, 0xFF] 6 255 := .inr ⟨by decide, 0x00, 0xFF, by decide⟩

/-- No marker; a marker with too short a header of each kind; a header whose frame is cut off; a whole frame. -/
theorem witness_SplitCutsFirstFrame :
    1 < (2 : Byte).toNat ∧ (1 : Byte).toNat ≤ 1 ∧ (∀ i, ¬ markerAt [0x11, 0xFA, 0x22, 0xFA] i) ∧
    (markerAt [0x11, 0xFA, 0xFF, 0x30] 1 ∧ (∀ j, j < 1 → ¬ markerAt [0x11, 0xFA, 0xFF, 0x30] j) ∧ ([0xFA, 0xFF, 0x30] : Bytes).length < 4) ∧
    (markerAt [0xFA, 0xFF, 0x30, 0xFF, 0x00] 0 ∧ ([0xFA, 0xFF, 0x30, 0xFF, 0x00] : Bytes)[3]? = some 0xFF ∧
      ([0xFA, 0xFF, 0x30, 0xFF, 0x00] : Bytes).length < 6) ∧
    (markerAt [0xFA, 0xFF, 0x30, 0xFF, 0x00, 0xFF] 0 ∧ headerSays [0xFA, 0xFF, 0x30, 0xFF, 0x00, 0xFF] 6 255 ∧
      ([0xFA, 0xFF, 0x30, 0xFF, 0x00, 0xFF] : Bytes).length < 6 + 255 + 1) ∧
    (markerAt [0xFA, 0xFF, 0x30, 0x00, 0xD1] 0 ∧ headerSays [0xFA, 0xFF, 0x30, 0x00, 0xD1] 4 0 ∧
      4 + 0 + 1 ≤ ([0xFA, 0xFF, 0x30, 0x00, 0xD1] : Bytes).length) := by
  refine ⟨by decide, by decide, fromMarker_eq_none_iff.1 (by decide), ⟨by unfold markerAt; decide, by unfold markerAt; decide, by decide⟩,
    ⟨by unfold markerAt; decide, by decide, by decide⟩, ⟨by unfold markerAt; decide, headerSays_extended, by decide⟩,
    ⟨by unfold markerAt; decide, headerSays_standard, by decide⟩⟩

/-- A SPLIT that waits, at either flag, and one that emits a token. -/
theorem witness_WaitingSplitIsIdempotent :
    (exec (.split 0) (withQueue [0x11, 0xFA, 0xFF]) = .next ((withQueue [0xFA, 0xFF]).withCode .needMore) ∧
      ((withQueue [0xFA, 0xFF]).withCode .needMore).code = Status.needMore.byte) ∧
    (exec (.split 1) (withQueue [0x11, 0xFA]) = .next ((withQueue [0xFA]).withCode .endOfStream) ∧
      ((withQueue [0xFA]).withCode .endOfStream).code = Status.endOfStream.byte) ∧
    (∃ t, exec (.split 0) (withQueue [0xFA, 0xFF, 0x30, 0x00, 0xD1]) = .next t ∧ t.code = Status.ok.byte) :=
  ⟨⟨rfl, by simp⟩, ⟨rfl, by simp⟩, ⟨_, rfl, by decide⟩⟩

theorem witness_TokenMayLeaveGarbage :
    (withQueue [0x11, 0xFA, 0x22, 0x33, 0xFA, 0xFF, 0x30, 0x00, 0xD1, 0xFA, 0x01, 0x44]).rxb =
      [0x11, 0xFA, 0x22, 0x33, 0xFA, 0xFF, 0x30, 0x00, 0xD1, 0xFA, 0x01, 0x44] := rfl

theorem witness_EndOfStreamChangesOnlyCode :
    (∃ t u, exec (.split 0) (withQueue [0xFA, 0xFF, 0x30, 0x00, 0xD1]) = .next t ∧
      exec (.split 1) (withQueue [0xFA, 0xFF, 0x30, 0x00, 0xD1]) = .next u ∧ t.code = Status.ok.byte) ∧
    (∃ t u, exec (.split 0) (withQueue [0x11, 0xFA]) = .next t ∧ exec (.split 1) (withQueue [0x11, 0xFA]) = .next u ∧
      t.code ≠ Status.ok.byte) :=
  ⟨⟨_, _, rfl, rfl, by decide⟩, ⟨_, _, rfl, rfl, by decide⟩⟩

theorem witness_ValidateChecksInOrder :
    (withFrame [0xFA, 0xFF, 0x30, 0x00]).flen < 5 ∧
    (5 ≤ (withFrame [0xFB, 0xFF, 0x30, 0x00, 0xD1]).flen ∧ (withFrame [0xFB, 0xFF, 0x30, 0x00, 0xD1]).frm[0]? ≠ some 0xFA) ∧
    (5 ≤ (withFrame [0xFA, 0xFE, 0x30, 0x00, 0xD1]).flen ∧ (withFrame [0xFA, 0xFE, 0x30, 0x00, 0xD1]).frm[0]? = some 0xFA ∧
      (withFrame [0xFA, 0xFE, 0x30, 0x00, 0xD1]).frm[1]? ≠ some 0xFF) ∧
    (markerAt [0xFA, 0xFF, 0x30, 0xFF, 0x00, 0xFF] 0 ∧ ([0xFA, 0xFF, 0x30, 0xFF, 0x00, 0xFF] : Bytes)[3]? = some 0xFF ∧
      (withFrame [0xFA, 0xFF, 0x30, 0xFF, 0x00, 0xFF]).flen < 7) ∧
    (headerSays [0xFA, 0xFF, 0x30, 0xFF, 0x00, 0xFE, 0x00] 6 254 ∧ 7 ≤ (withFrame [0xFA, 0xFF, 0x30, 0xFF, 0x00, 0xFE, 0x00]).flen ∧ 254 < 255) ∧
    (headerSays [0xFA, 0xFF, 0x30, 0xFF, 0x08, 0x01, 0x00] 6 2049 ∧ 2048 < 2049) ∧
    (headerSays [0xFA, 0xFF, 0x30, 0x01, 0xD1] 4 1 ∧ (withFrame [0xFA, 0xFF, 0x30, 0x01, 0xD1]).flen < 4 + 1 + 1) ∧
    (headerSays [0xFA, 0xFF, 0x30, 0x00, 0xD1, 0x00] 4 0 ∧ 4 + 0 + 1 < (withFrame [0xFA, 0xFF, 0x30, 0x00, 0xD1, 0x00]).flen) ∧
    (headerSays [0xFA, 0xFF, 0x30, 0x00, 0xD2] 4 0 ∧ sumBytes ([0xFF, 0x30, 0x00, 0xD2]) % 256 ≠ 0) ∧
    (headerSays [0xFA, 0xFF, 0x30, 0x00, 0xD1] 4 0 ∧ (withFrame [0xFA, 0xFF, 0x30, 0x00, 0xD1]).flen = 4 + 0 + 1 ∧
      sumBytes ([0xFF, 0x30, 0x00, 0xD1]) % 256 = 0) := by
  refine ⟨by decide, by decide, by decide, ⟨by unfold markerAt; decide, by decide, by decide⟩,
    ⟨.inr ⟨by decide, 0x00, 0xFE, by decide⟩, by decide, by decide⟩, ⟨.inr ⟨by decide, 0x08, 0x01, by decide⟩, by decide⟩,
    ⟨.inl ⟨0x01, by decide⟩, by decide⟩, ⟨.inl ⟨0x00, by decide⟩, by decide⟩, ⟨.inl ⟨0x00, by decide⟩, by decide⟩,
    ⟨headerSays_standard, by decide, by decide⟩⟩

/-- Both extended lengths at their ends pass the length checks of the body (R161). -/
theorem witness_ValidateChecksInOrder_extended :
    (∃ f : Bytes, headerSays f 6 255 ∧ f.length = 6 + 255 + 1 ∧ (6 = 6 → 7 ≤ f.length ∧ 255 ≤ 255 ∧ 255 ≤ 2048)) ∧
    (∃ f : Bytes, headerSays f 6 2048 ∧ f.length = 6 + 2048 + 1 ∧ (6 = 6 → 7 ≤ f.length ∧ 255 ≤ 2048 ∧ 2048 ≤ 2048)) :=
  ⟨⟨[0xFA, 0xFF, 0x30, 0xFF, 0x00, 0xFF] ++ List.replicate 256 0, .inr ⟨rfl, 0x00, 0xFF, rfl, rfl, rfl, rfl⟩, by decide +kernel, by decide +kernel⟩,
   ⟨[0xFA, 0xFF, 0x30, 0xFF, 0x08, 0x00] ++ List.replicate 2049 0, .inr ⟨rfl, 0x08, 0x00, rfl, rfl, rfl, rfl⟩, by decide +kernel, by decide +kernel⟩⟩

/-- MID, the payload byte, the checksum byte and the length byte of the document's Error frame. -/
theorem witness_MutatedFrameFailsValidate :
    ∃ t, exec .validate (withFrame [0xFA, 0xFF, 0x42, 0x01, 0x04, 0xBA]) = .next t ∧ t.code = Status.ok.byte ∧ t.poff.toNat ≤ 4 ∧
      2 < (withFrame [0xFA, 0xFF, 0x42, 0x01, 0x04, 0xBA]).flen ∧ (withFrame [0xFA, 0xFF, 0x42, 0x01, 0x04, 0xBA]).frm[2]? ≠ some 0x43 ∧
      5 < (withFrame [0xFA, 0xFF, 0x42, 0x01, 0x04, 0xBA]).flen ∧ (withFrame [0xFA, 0xFF, 0x42, 0x01, 0x04, 0xBA]).frm[5]? ≠ some 0xBB ∧
      (withFrame [0xFA, 0xFF, 0x42, 0x01, 0x04, 0xBA]).frm[3]? ≠ some 0xFF :=
  ⟨_, rfl, by decide⟩

theorem witness_ConstructBuildsFrame : (List.replicate 254 (0 : Byte)).length ≤ 254 ∧ 254 < (List.replicate 255 (0 : Byte)).length := by
  decide +kernel

theorem witness_ConstructedFrameValidates : ([0x04] : Bytes).length ≤ 254 ∧
    exec (.construct 0x42 [0x04]) State.reset = .next (withFrame [0xFA, 0xFF, 0x42, 0x01, 0x04, 0xBA]) := ⟨by decide, rfl⟩

theorem witness_LdfReplacesFrame : (List.replicate 65535 (0 : Byte)).length ≤ 65535 :=
  (List.length_replicate (n := 65535)).le

theorem wire_gotoConfig : wireFrame 0x30 [] [0xFA, 0xFF, 0x30, 0x00, 0xD1] := .inl ⟨by decide, by decide, 0xD1, rfl⟩
theorem wire_error : wireFrame 0x42 [0x04] [0xFA, 0xFF, 0x42, 0x01, 0x04, 0xBA] := .inl ⟨by decide, by decide, 0xBA, rfl⟩

/-- Both sides hold of the document's Error frame. -/
theorem witness_ValidateAcceptsExactlyWireFrames :
    (∃ t, exec .validate (withFrame [0xFA, 0xFF, 0x42, 0x01, 0x04, 0xBA]) = .next t ∧ t.code = Status.ok.byte) ∧
    wireFrame 0x42 [0x04] (withFrame [0xFA, 0xFF, 0x42, 0x01, 0x04, 0xBA]).frm := ⟨⟨_, rfl, by decide⟩, wire_error⟩

/-- The document's resynchronisation test: garbage with a stray preamble before each of its two frames. -/
theorem witness_SplitResynchronises :
    (∀ i, ¬ markerAt [0x11, 0xFA, 0x22] i) ∧ (∀ i, ¬ markerAt [0xFA] i) ∧
    wireFrame 0x30 [] [0xFA, 0xFF, 0x30, 0x00, 0xD1] ∧ wireFrame 0x42 [0x04] [0xFA, 0xFF, 0x42, 0x01, 0x04, 0xBA] ∧
    (withQueue [0x11, 0xFA, 0x22, 0xFA, 0xFF, 0x30, 0x00, 0xD1, 0xFA, 0xFA, 0xFF, 0x42, 0x01, 0x04, 0xBA]).rxb =
      [0x11, 0xFA, 0x22] ++ [0xFA, 0xFF, 0x30, 0x00, 0xD1] ++ [0xFA] ++ [0xFA, 0xFF, 0x42, 0x01, 0x04, 0xBA] :=
  ⟨fromMarker_eq_none_iff.1 (by decide), fromMarker_eq_none_iff.1 (by decide), wire_gotoConfig, wire_error, rfl⟩

/-! ### Witnesses: the walk -/

/-- A walk that is not validated, one over another frame, one at the end, ones with one and two bytes left, one whose
data would run past the payload, one that returns a sub-packet of no data bytes at the payload's very end. -/
theorem witness_SpnextStepsTheWalk :
    (State.reset.Inv ∧ State.reset.fv = false) ∧
    (Config.midMtData2 + 1 ≠ Config.midMtData2) ∧
    ((walking [0x20, 0x1B, 0x00] 3).Inv ∧ (0 : ℤ) = (walking [0x20, 0x1B, 0x00] 3).plen.toNat - (walking [0x20, 0x1B, 0x00] 3).cur.toNat) ∧
    ((walking [0x20] 0).Inv ∧ (1 : ℤ) = (walking [0x20] 0).plen.toNat - (walking [0x20] 0).cur.toNat) ∧
    ((walking [0x20, 0x1B] 0).Inv ∧ (2 : ℤ) = (walking [0x20, 0x1B] 0).plen.toNat - (walking [0x20, 0x1B] 0).cur.toNat) ∧
    ((walking [0x20, 0x1B, 0x01] 0).Inv ∧ (walking [0x20, 0x1B, 0x01] 0).frm[4 + 0 + 2]? = some 0x01 ∧ (3 : ℤ) < 3 + 1) ∧
    ((walking [0x20, 0x1B, 0x00] 0).Inv ∧ (walking [0x20, 0x1B, 0x00] 0).fv = true ∧ (walking [0x20, 0x1B, 0x00] 0).mid = Config.midMtData2 ∧
      (3 : ℤ) = (walking [0x20, 0x1B, 0x00] 0).plen.toNat - (walking [0x20, 0x1B, 0x00] 0).cur.toNat ∧
      (walking [0x20, 0x1B, 0x00] 0).frm[4 + 0 + 2]? = some 0x00) := by
  refine ⟨⟨witness_StepKeepsInvariants.2.2.1, by decide⟩, ?_, ⟨walking_inv (by decide) (by decide), rfl⟩,
    ⟨walking_inv (by decide) (by decide), rfl⟩, ⟨walking_inv (by decide) (by decide), rfl⟩,
    ⟨walking_inv (by decide) (by decide), rfl, by decide⟩,
    ⟨walking_inv (by decide) (by decide), walking_fv _ _, walking_mid _ _, rfl, rfl⟩⟩
  generalize Config.midMtData2 = m
  revert m
  decide +kernel

/-- A validated frame with another identifier than `MID_MTDATA2`: the second clause of the walk. -/
theorem witness_SpnextStepsTheWalk_otherFrame :
    ((State.reset.replaceFrame (standardFrame (Config.midMtData2 + 1) [])).acceptFrame (Config.midMtData2 + 1) 4 0).fv = true ∧
    ((State.reset.replaceFrame (standardFrame (Config.midMtData2 + 1) [])).acceptFrame (Config.midMtData2 + 1) 4 0).mid ≠ Config.midMtData2 :=
  ⟨State.acceptFrame_fv _ _ _ _, witness_SpnextStepsTheWalk.2.1⟩

theorem witness_SpnextStaysInsidePayload : (walking [0x20, 0x1B, 0x01, 0x09] 0).Inv ∧
    ∃ t, exec .spnext (walking [0x20, 0x1B, 0x01, 0x09] 0) = .next t ∧ t.code = Status.ok.byte := by
  refine ⟨walking_inv (by decide) (by decide), ?_⟩
  show ∃ t, execSpnext (walking [0x20, 0x1B, 0x01, 0x09] 0) = .next t ∧ _
  rcases execSpnext_cases (walking [0x20, 0x1B, 0x01, 0x09] 0) with ⟨h | h, _⟩ | ⟨_, _, h⟩
  · rw [walking_fv] at h; cases h
  · exact absurd (walking_mid _ _) h
  · exact ⟨_, h.trans rfl, by simp⟩

/-- One sub-packet alone in the payload, and one with another before and after it. -/
theorem witness_SpnextReturnsSubPacket :
    ([0x09] : Bytes).length ≤ 255 ∧
    wireFrame Config.midMtData2 ([] ++ subPacket 0x201B [0x09] ++ []) (standardFrame Config.midMtData2 ([] ++ subPacket 0x201B [0x09] ++ [])) ∧
    (∃ t, exec .validate (withFrame (standardFrame Config.midMtData2 ([] ++ subPacket 0x201B [0x09] ++ []))) = .next t) ∧
    wireFrame Config.midMtData2 ([1, 2, 0] ++ subPacket 0xFFFF [] ++ [3, 4, 0])
      (standardFrame Config.midMtData2 ([1, 2, 0] ++ subPacket 0xFFFF [] ++ [3, 4, 0])) := by
  refine ⟨by decide, .inl (standardFrame_wire (by decide)), ?_, .inl (standardFrame_wire (by decide))⟩
  rcases execValidate_cases (withFrame (standardFrame Config.midMtData2 ([] ++ subPacket 0x201B [0x09] ++ []))) with ⟨c, _, h⟩ | ⟨a, b, _, h⟩
  · exact ⟨_, h⟩
  · exact ⟨_, h⟩

/-! ### Witnesses: the whole machine -/

/-- A fault that writes the code alone, one that writes `EINFO`, and an illegal command's step. -/
theorem witness_FaultsChangeNothingElse :
    (exec .didenc (withSubfields 0x0100 0 0) = .next ((withSubfields 0x0100 0 0).withCode .eOperand) ∧
      codeIsFault ((withSubfields 0x0100 0 0).withCode .eOperand).code = true) ∧
    (exec .decf32 State.reset = .next (State.reset.withCode .eDecode) ∧ codeIsFault (State.reset.withCode .eDecode).code = true) ∧
    (step (State.reset.present [0xFF]) = .next (State.reset.withCode .eIllegal) ∧ codeIsFault (State.reset.withCode .eIllegal).code = true) :=
  ⟨⟨rfl, by simp; decide⟩, ⟨rfl, by simp; decide⟩, ⟨rfl, by simp; decide⟩⟩

theorem witness_CodesOfEachCommand : exec .nop State.reset = .next State.reset := rfl

/-- Commands that write nothing of each group, none of them RESET. -/
theorem witness_OnlyListedCommandsWriteRegisters :
    exec .validate State.reset = .next (State.reset.withCode .eShort) ∧ Instr.validate ≠ .reset ∧ writesWire .validate = false ∧
    writesValue .validate = false ∧ writesId .validate = false ∧ writesSubfields .validate = false ∧ Instr.validate ≠ .dsize ∧
    Instr.validate ≠ .spnext ∧ replacesFrame .validate = false ∧ writesReceive .validate = false ∧
    exec .nop State.reset = .next State.reset ∧ Instr.nop ≠ .validate ∧ Instr.nop ≠ .spnext :=
  ⟨rfl, by decide, by decide, by decide, by decide, by decide, by decide, by decide, by decide, by decide, rfl, by decide, by decide⟩

/-- The operands at the ends of their ranges. -/
theorem witness_FirstCommandAfterReset :
    (List.replicate 254 (0 : Byte)).length ≤ 254 ∧ 254 < (List.replicate 255 (0 : Byte)).length ∧
    (List.replicate 65535 (0 : Byte)).length ≤ 65535 ∧ (List.replicate 8 (0 : Byte)).length ≤ 8 ∧
    8 < (List.replicate 9 (0 : Byte)).length ∧ ((0xFFFF : Half) ≠ 0 ∨ (0 : Byte) ≠ 0) ∧ ((0 : Half) ≠ 0 ∨ (1 : Byte) ≠ 0) ∧
    1 < (2 : Byte).toNat := by
  simp only [List.length_replicate]; decide

/-- A walk in progress holds a frame under `FV`, and FRM of six bytes whose length byte says otherwise holds none. -/
theorem witness_FvFollowsTheFrame_frame : (walking [1, 2, 3] 3).fv = true ∧ (walking [1, 2, 3] 3).FrameHolds ∧
    ¬ ({ withFrame [0xFA, 0xFF, 0x36, 0xFE, 0x00, 0xCD] with poff := 4, plen := 1, mid := 0x36 } : State).FrameHolds :=
  ⟨walking_fv _ _, (walking_inv (by decide) (by decide)).frame (walking_fv _ _), fun h => by
    rcases h.header with ⟨len, hl, _, _, hp⟩ | ⟨hl, _⟩
    · cases hl; exact absurd hp (by decide)
    · exact absurd hl (by decide)⟩

/-- `FV` set by VALIDATE, and cleared with FRM changed by LDF. -/
theorem witness_FvFollowsTheFrame :
    (∃ t, exec .validate (withFrame [0xFA, 0xFF, 0x30, 0x00, 0xD1]) = .next t ∧ t.code = Status.ok.byte ∧
      t.fv ≠ (withFrame [0xFA, 0xFF, 0x30, 0x00, 0xD1]).fv) ∧
    (∃ t, exec (.ldf []) ((withFrame [0xFA]).withFv true) = .next t ∧ t.code = Status.ok.byte ∧ replacesFrame (.ldf []) = true ∧
      t.fv ≠ ((withFrame [0xFA]).withFv true).fv ∧ t.frm ≠ ((withFrame [0xFA]).withFv true).frm) ∧
    (∃ t, exec .reset ((withFrame [0xFA]).withFv true) = .next t ∧ t.code = Status.ok.byte) :=
  ⟨⟨_, rfl, by decide⟩, ⟨_, rfl, by decide⟩, ⟨_, rfl, by decide⟩⟩

theorem witness_EinfoHoldsLastDecodeFault :
    (exec .decp State.reset = .next (State.reset.withCode .eDecode) ∧ Instr.decp ≠ .reset ∧
      (State.reset.withCode .eDecode).code = Status.eDecode.byte) ∧
    (exec .nop State.reset = .next State.reset ∧ Instr.nop ≠ .reset ∧ State.reset.code ≠ Status.eDecode.byte) :=
  ⟨⟨rfl, by decide, by simp⟩, ⟨rfl, by decide⟩⟩

end Sys2Proof.Tests
end

section
/-! The round trip from a command to its bytes and back (R85 to R89), whatever bytes follow. -/

namespace Sys2Proof

/-- Every command's encoding has the shape that the decoder reads. -/
theorem encodeShape : ∀ i : Instr, Laws.EncodeShape.Statement i
  | .nop => Laws.EncodeShape.nop
  | .reset => Laws.EncodeShape.reset
  | .ldw data => Laws.EncodeShape.ldw data
  | .ldv v => Laws.EncodeShape.ldv v
  | .ldwf off n => Laws.EncodeShape.ldwf off n
  | .ldid id => Laws.EncodeShape.ldid id
  | .ldsub k c p => Laws.EncodeShape.ldsub k c p
  | .decf32 => Laws.EncodeShape.decf32
  | .decfp1220 => Laws.EncodeShape.decfp1220
  | .decfp1632 => Laws.EncodeShape.decfp1632
  | .decf64 => Laws.EncodeShape.decf64
  | .decp => Laws.EncodeShape.decp
  | .encf32 => Laws.EncodeShape.encf32
  | .encfp1220 => Laws.EncodeShape.encfp1220
  | .encfp1632 => Laws.EncodeShape.encfp1632
  | .encf64 => Laws.EncodeShape.encf64
  | .encp => Laws.EncodeShape.encp
  | .diddec => Laws.EncodeShape.diddec
  | .didenc => Laws.EncodeShape.didenc
  | .dsize => Laws.EncodeShape.dsize
  | .push data => Laws.EncodeShape.push data
  | .split f => Laws.EncodeShape.split f
  | .validate => Laws.EncodeShape.validate
  | .construct mid payload => Laws.EncodeShape.construct mid payload
  | .ldf data => Laws.EncodeShape.ldf data
  | .spnext => Laws.EncodeShape.spnext

theorem decode_encode_append {i : Instr} (h : i.wellFormed = true) (rest : Bytes) :
    decode (encode i ++ rest) = .command i rest := by
  obtain ⟨op, operands, fmt, henc, hfmt, hcount, hasm⟩ := encodeShape i h
  rw [henc, List.cons_append]
  exact decode_of_operands hfmt (hcount rest) hasm

theorem decode_encode {i : Instr} (h : i.wellFormed = true) : decode (encode i) = .command i [] := by
  simpa using decode_encode_append h []

end Sys2Proof
end

section
/-! The fetch and the step for each thing that can stand at the front of the host's list (R10, R89, R90). -/

namespace Sys2Proof.Machine

section
variable {s : State} {b rest : Bytes} {later : List Bytes} {i : Instr} {why : IllegalReason}

theorem fetch_of_command (hs : s.host = b :: later) (hd : decode b = .command i rest) :
    fetch s = (.command i rest, { s with host := keepRest rest later }) := by
  simp only [fetch, hs, hd]

theorem fetch_of_illegal (hs : s.host = b :: later) (hd : decode b = .illegal why rest) :
    fetch s = (.illegal why rest, { s with host := keepRest rest later }) := by
  simp only [fetch, hs, hd]

theorem fetch_of_host_nil (hs : s.host = []) : fetch s = (.noCommand, s) := by
  simp only [fetch, hs]

theorem fetch_of_empty (hs : s.host = [] :: later) : fetch s = (.noCommand, { s with host := later }) := by
  simp only [fetch, hs, decode]

theorem step_of_command (hs : s.host = b :: later) (hd : decode b = .command i rest) :
    step s = exec i { s with host := keepRest rest later } := by
  simp only [step, fetch_of_command hs hd]

theorem step_of_illegal (hs : s.host = b :: later) (hd : decode b = .illegal why rest) :
    step s = .next ({ s with host := keepRest rest later }.withCode .eIllegal) := by
  have htaken : step s = takeIllegal { s with host := keepRest rest later } := by
    simp only [step, fetch_of_illegal hs hd]
  exact htaken

theorem step_of_host_nil (hs : s.host = []) : step s = .next s := by
  simp only [step, fetch_of_host_nil hs]

theorem step_of_empty (hs : s.host = [] :: later) : step s = .next { s with host := later } := by
  simp only [step, fetch_of_empty hs]

end

/-! ### The statements about the step -/

/-- Settles O7: the encoding decodes to the command with nothing left over, so taking its bytes undoes the
presentation. -/
theorem presentedCommandRuns : Obligations.PresentedCommandRuns := by
  intro s i hwf
  have hrun : step (s.present (encode i)) = exec i { s.present (encode i) with host := keepRest [] s.host } :=
    step_of_command (s.present_host (encode i)) (decode_encode hwf)
  exact hrun

/-- Settles O6, by what the front string decodes to; `keepRest` is the host list the statement writes out. -/
theorem stepRunsDecodedCommand : Obligations.StepRunsDecodedCommand := by
  intro s b rest later hs
  constructor
  · intro i hd
    exact step_of_command hs hd
  · intro why hd
    exact ⟨_, step_of_illegal hs hd, State.withCode_code _ _, State.withCode_host _ _⟩

/-- Settles O8 (log entry 2): neither an empty list nor an empty string at its front holds a command. -/
theorem idleStepChangesNothing : Obligations.IdleStepChangesNothing :=
  ⟨fun _ hs => step_of_host_nil hs, fun _ _ hs => step_of_empty hs⟩

end Sys2Proof.Machine
end

section
/-! What the decoder answers is well-formed (R85, R88): the count operand bounds the data it counts. -/

namespace Sys2Proof

theorem mem_opcodeTable_of_formatOf {op : Byte} {fmt : Format} (h : formatOf op = some fmt) : (op, fmt) ∈ opcodeTable := by
  obtain ⟨before, after, heq, _⟩ := List.lookup_eq_some_iff.1 h
  simp [heq]

/-- A variable format's count has one or two bytes; every other command is well-formed whatever its operands. -/
theorem assemble_wellFormed {op : Byte} {operands later : Bytes} {fmt : Format} {i : Instr} (hf : formatOf op = some fmt)
    (hn : operandCount fmt (operands ++ later) = some operands.length) (h : assemble op operands = some i) :
    i.wellFormed = true := by
  have hmem := mem_opcodeTable_of_formatOf hf
  simp only [opcodeTable, List.mem_cons, Prod.mk.injEq, List.not_mem_nil, or_false] at hmem
  cases fmt with
  | z =>
    obtain rfl : operands = [] := List.length_eq_zero_iff.1 (Option.some.inj hn).symm
    simp only [reduceCtorEq, and_true, and_false, false_or] at hmem
    rcases hmem with rfl | rfl | rfl | rfl | rfl | rfl | rfl | rfl | rfl | rfl | rfl | rfl | rfl | rfl | rfl | rfl | rfl <;>
      (cases h; rfl)
  | i k =>
    simp only [reduceCtorEq, and_false, or_false, false_or] at hmem
    rcases operands with _ | ⟨_, _ | ⟨_, _ | ⟨_, _ | ⟨_, _ | ⟨_, _ | ⟨_, _ | ⟨_, _ | ⟨_, _ | ⟨_, _⟩⟩⟩⟩⟩⟩⟩⟩⟩ <;>
      rcases hmem with ⟨rfl, _⟩ | ⟨rfl, _⟩ | ⟨rfl, _⟩ | ⟨rfl, _⟩ | ⟨rfl, _⟩ <;> cases h <;> rfl
  | v8 =>
    obtain rfl : op = 0x10 := by simpa using hmem
    rcases operands with _ | ⟨n, data⟩ <;> cases h
    have hlen : 1 + n.toNat = data.length + 1 := by simpa [operandCount] using hn
    have := n.isLt
    simp only [Instr.wellFormed, decide_eq_true_eq]
    omega
  | v16 =>
    obtain rfl | rfl : op = 0x40 ∨ op = 0x45 := by simpa using hmem
    all_goals
      rcases operands with _ | ⟨hi, _ | ⟨lo, data⟩⟩ <;> cases h
      have hlen : 2 + be [hi, lo] = data.length + 2 := by simpa [operandCount] using hn
      have := be_lt [hi, lo]
      simp only [List.length_cons, List.length_nil] at this
      simp only [Instr.wellFormed, decide_eq_true_eq]
      omega
  | c =>
    obtain rfl : op = 0x44 := by simpa using hmem
    rcases operands with _ | ⟨mid, _ | ⟨n, payload⟩⟩ <;> cases h
    have hlen : 2 + n.toNat = payload.length + 2 := by simpa [operandCount] using hn
    have := n.isLt
    simp only [Instr.wellFormed, decide_eq_true_eq]
    omega

theorem decode_wellFormed {b rest : Bytes} {i : Instr} (h : decode b = .command i rest) : i.wellFormed = true := by
  cases b with
  | nil => cases h
  | cons op operands =>
    rcases decode_cases op operands with ⟨_, hd⟩ | ⟨_, _, hd⟩ | ⟨fmt, n, taken, later, j, hf, hn, rfl, rfl, hasm, hd⟩ <;>
      rw [hd] at h <;> cases h
    exact assemble_wellFormed hf hn hasm

end Sys2Proof
end

section
/-! Everything a command can do, said once: the writes it ends with and its code (R16, R22, R32, R222). -/

namespace Sys2Proof.Machine

/-- `Effect s i c s'`: run in `s`, the command `i` ends with the code `c` after the writes that make `s'` of `s`. One
constructor for each set of writes (R22, R32), with the facts that bound what is written. `exec_cases` ties it to
`exec`. -/
inductive Effect (s : State) : Instr → Status → State → Prop
  /-- NOP writes nothing but the code (R198). -/
  | nop : Effect s .nop .ok s
  /-- NOMORE, NOMORE_MALFORMED and the faults but `E_DECODE` write nothing but the code (R181, R222). -/
  | codeOnly {i : Instr} {c : Status} (hc : c ∈ statuses i) (hok : c ≠ .ok) (hdec : c ≠ .eDecode) : Effect s i c s
  /-- RESET (R199). -/
  | reset : Effect s .reset .ok { State.reset with host := s.host }
  /-- A load or an encode writes the wire operand (R191, R193, R113 to R117). -/
  | wire {i : Instr} {data : Bytes} (hi : writesWire i = true) (hlen : data.length ≤ 8) : Effect s i .ok (s.loadWire data)
  /-- A load or a decode writes `V` (R192, R105 to R111). -/
  | value {i : Instr} (v : Double) (hi : writesValue i = true) : Effect s i .ok { s with v := v }
  /-- A decode that finds the wrong byte count (R102). -/
  | decodeFault {i : Instr} {p : Precision} (hi : i = p.decodeCommand ∨ (i = .decp ∧ s.prec.toNat = p.code.toNat))
      (hw : s.wn.toNat ≠ p.width) : Effect s i .eDecode { s with einfo := einfoOf p s.wn s.id }
  /-- LDID and DIDENC write `ID` (R194, R133). -/
  | identifier {i : Instr} (x : Half) (hi : i = .ldid x ∨ i = .didenc) : Effect s i .ok { s with id := x }
  /-- LDSUB and DIDDEC write the three subfields (R195, R131). -/
  | subfields {i : Instr} (k c p : Half) (hi : writesSubfields i = true) :
      Effect s i .ok { s with kind := k, coord := c, prec := p }
  /-- DSIZE writes `SZ` (R137). -/
  | size (n : Half) : Effect s .dsize .ok { s with sz := n }
  /-- PUSH appends bytes that fit (R151). -/
  | push {data : Bytes} (hfit : fitsReceive (s.rxb.length + data.length) = true) :
      Effect s (.push data) .ok { s with rxb := s.rxb ++ data }
  /-- SPLIT finds no token and drops garbage (R152). -/
  | wait {f : Byte} {c : Status} {kept : Bytes} (hc : c = .needMore ∨ c = .endOfStream)
      (hlen : kept.length ≤ s.rxb.length) : Effect s (.split f) c { s with rxb := kept }
  /-- SPLIT moves a token to FRM (R152). -/
  | token {f : Byte} {token rest : Bytes} (hrest : rest.length ≤ s.rxb.length) (htoken : token.length ≤ 65542) :
      Effect s (.split f) .ok ({ s with rxb := rest }.replaceFrame token)
  /-- CONSTRUCT builds a standard frame (R164). -/
  | construct {mid : Byte} {payload : Bytes} (hlen : payload.length ≤ 254) :
      Effect s (.construct mid payload) .ok (s.replaceFrame (standardFrame mid payload))
  /-- LDF (R167). -/
  | ldf {data : Bytes} : Effect s (.ldf data) .ok (s.replaceFrame data)
  /-- VALIDATE accepts (R158). -/
  | accept {hdr plen : Nat} (hcheck : checkFrame s.frm = .ok (hdr, plen)) :
      Effect s .validate .ok (s.acceptFrame (byteAt s.frm 2) hdr plen)
  /-- SPNEXT returns a sub-packet that ends inside the payload (R181). -/
  | advance {x : Half} {l : Byte} (hcur : s.cur.toNat + 3 + l.toNat ≤ s.plen.toNat) :
      Effect s .spnext .ok (s.advanceWalk x l)

/-- What a command does, where it goes on. -/
def Completes (s : State) (i : Instr) (r : Result) : Prop := ∃ c s', Effect s i c s' ∧ r = done c s'

section
variable {s : State} {i : Instr}

theorem Effect.completes {c : Status} {s' : State} (h : Effect s i c s') : Completes s i (done c s') := ⟨c, s', h, rfl⟩

theorem completes_code {c : Status} (hc : c ∈ statuses i) (hok : c ≠ .ok) (hdec : c ≠ .eDecode) :
    Completes s i (done c s) := (Effect.codeOnly hc hok hdec).completes

/-- A fault other than `E_DECODE` is an effect that writes the code alone. -/
theorem completes_fail {c : Status} (hc : c ∈ statuses i) (hok : c ≠ .ok) (hdec : c ≠ .eDecode) :
    Completes s i (fail c s) := completes_code hc hok hdec

theorem completes_eOperand (hc : .eOperand ∈ statuses i) : Completes s i (fail .eOperand s) :=
  completes_fail hc (by decide) (by decide)

theorem completes_decodeAs {p : Precision} (hi : i = p.decodeCommand ∨ (i = .decp ∧ s.prec.toNat = p.code.toNat)) :
    Completes s i (decodeAs p s) := by
  rcases decodeAs_cases p s with ⟨_, h⟩ | ⟨hw, h⟩ <;> rw [h]
  · refine (Effect.value _ ?_).completes
    rcases hi with rfl | ⟨rfl, _⟩
    · cases p <;> rfl
    · rfl
  · exact (Effect.decodeFault hi hw).completes

theorem completes_encodeAs {p : Precision} (hi : writesWire i = true)
    (hrange : encodeValue p s.v = none → .eRange ∈ statuses i) : Completes s i (encodeAs p s) := by
  rcases encodeAs_cases p s with ⟨b, hb, h⟩ | ⟨hnone, h⟩ <;> rw [h]
  · exact (Effect.wire hi (encodeValue_length hb ▸ p.width_le)).completes
  · exact completes_fail (hrange hnone) (by decide) (by decide)

/-- The zero that RESET leaves in `SR` is the code `OK` too (R199). -/
theorem completes_reset : Completes s .reset (execReset s) := by
  have hcode : State.reset.withCode .ok = State.reset := by decide
  have hdone : done .ok { State.reset with host := s.host } = .next { State.reset.withCode .ok with host := s.host } := rfl
  rw [hcode] at hdone
  exact ⟨.ok, _, .reset, hdone.symm⟩

theorem completes_ldw {data : Bytes} : Completes s (.ldw data) (execLdw data s) := by
  unfold execLdw
  split
  · exact completes_eOperand (by simp [statuses])
  · exact (Effect.wire rfl (by omega)).completes

theorem completes_ldwf {off : Half} {n : Byte} : Completes s (.ldwf off n) (execLdwf off n s) := by
  unfold execLdwf
  split
  · exact completes_eOperand (by simp [statuses])
  split
  · exact completes_eOperand (by simp [statuses])
  · refine (Effect.wire rfl ?_).completes
    rw [State.frameSlice, List.length_take]
    omega

theorem completes_decp : Completes s .decp (execDecp s) := by
  unfold execDecp
  cases hp : precisionOf s.prec with
  | none => exact completes_eOperand (by simp [statuses])
  | some p => exact completes_decodeAs (.inr ⟨rfl, precisionOf_eq_some_iff.1 hp⟩)

theorem completes_encp : Completes s .encp (execEncp s) := by
  unfold execEncp
  cases precisionOf s.prec with
  | none => exact completes_eOperand (by simp [statuses])
  | some p => exact completes_encodeAs rfl fun _ => by simp [statuses]

theorem completes_didenc : Completes s .didenc (execDidenc s) := by
  unfold execDidenc
  split
  · exact (Effect.identifier _ (.inr rfl)).completes
  · exact completes_eOperand (by simp [statuses])

theorem completes_dsize : Completes s .dsize (execDsize s) := by
  unfold execDsize
  cases precisionOf s.prec with
  | none => exact completes_eOperand (by simp [statuses])
  | some p => exact (Effect.size _).completes

theorem completes_push {data : Bytes} : Completes s (.push data) (execPush data s) := by
  unfold execPush
  split
  · rename_i hfit
    exact (Effect.push hfit).completes
  · exact completes_fail (by simp [statuses]) (by decide) (by decide)

theorem halfMarker_length_le (b : Bytes) : (halfMarker b).length ≤ b.length := by
  rcases halfMarker_cases b with ⟨_, h, hb⟩ | ⟨_, h⟩ <;> rw [h]
  · exact hb
  · exact Nat.zero_le _

theorem completes_split {f : Byte} : Completes s (.split f) (execSplit f s) := by
  rcases execSplit_cases f s with ⟨_, h⟩ | ⟨_, _, h⟩ | ⟨b, _, hb, _, h⟩ | ⟨b, token, rest, _, hb, hcut, h⟩ <;> rw [h]
  · exact completes_eOperand (by simp [statuses])
  · exact (Effect.wait (moreStatus_cases f) (halfMarker_length_le _)).completes
  · exact (Effect.wait (moreStatus_cases f) (fromMarker_spec hb).2).completes
  · obtain ⟨hparts, _, htoken⟩ := cutToken_spec hcut
    have hlen : token.length + rest.length ≤ s.rxb.length := by
      simpa [hparts] using (fromMarker_spec hb).2
    exact (Effect.token (by omega) htoken).completes

theorem completes_validate : Completes s .validate (execValidate s) := by
  rcases execValidate_cases s with ⟨c, hc, h⟩ | ⟨hdr, plen, hcheck, h⟩ <;> rw [h]
  · have hmem := checkFrame_error_mem hc
    refine completes_fail (List.mem_cons_of_mem _ hmem) ?_ ?_ <;>
      · rintro rfl
        exact absurd hmem (by decide)
  · exact (Effect.accept hcheck).completes

theorem completes_construct {mid : Byte} {payload : Bytes} :
    Completes s (.construct mid payload) (execConstruct mid payload s) := by
  unfold execConstruct
  split
  · exact completes_eOperand (by simp [statuses])
  · rename_i hlen
    exact (Effect.construct (Nat.le_of_not_lt hlen)).completes

/-- SPNEXT completes or stops at the end of FRM (log entry 5). -/
theorem completes_spnext_or_fault :
    Completes s .spnext (execSpnext s) ∨ execSpnext s = .fault .frameReadPastEnd := by
  rcases execSpnext_cases s with ⟨_, h⟩ | ⟨_, _, h⟩ <;> rw [h]
  · exact .inl (completes_fail (by simp [statuses]) (by decide) (by decide))
  rcases walkStep_cases s with ⟨_, h⟩ | ⟨_, _, h⟩ | ⟨_, _, h⟩ | ⟨_, _, _, h⟩ | ⟨_, hcur, h⟩ <;> rw [h]
  · exact .inl (completes_code (by simp [statuses]) (by decide) (by decide))
  · exact .inl (completes_code (by simp [statuses]) (by decide) (by decide))
  · exact .inr rfl
  · exact .inl (completes_code (by simp [statuses]) (by decide) (by decide))
  · exact .inl (Effect.advance hcur).completes

/-- Everything a command can do: complete with one of the effects, or, SPNEXT alone, stop at the end of FRM. -/
theorem exec_cases (i : Instr) (s : State) :
    Completes s i (exec i s) ∨ (i = .spnext ∧ exec i s = .fault .frameReadPastEnd) := by
  cases i with
  | nop => exact .inl Effect.nop.completes
  | reset => exact .inl completes_reset
  | ldw data => exact .inl completes_ldw
  | ldv v => exact .inl (Effect.value v rfl).completes
  | ldwf off n => exact .inl completes_ldwf
  | ldid x => exact .inl (Effect.identifier x (.inl rfl)).completes
  | ldsub k c p => exact .inl (Effect.subfields k c p rfl).completes
  | decf32 => exact .inl (completes_decodeAs (p := .float32) (.inl rfl))
  | decfp1220 => exact .inl (completes_decodeAs (p := .fp1220) (.inl rfl))
  | decfp1632 => exact .inl (completes_decodeAs (p := .fp1632) (.inl rfl))
  | decf64 => exact .inl (completes_decodeAs (p := .float64) (.inl rfl))
  | decp => exact .inl completes_decp
  | encf32 => exact .inl (completes_encodeAs (p := .float32) rfl fun h => by cases h)
  | encfp1220 => exact .inl (completes_encodeAs (p := .fp1220) rfl fun _ => by simp [statuses])
  | encfp1632 => exact .inl (completes_encodeAs (p := .fp1632) rfl fun _ => by simp [statuses])
  | encf64 => exact .inl (completes_encodeAs (p := .float64) rfl fun h => by cases h)
  | encp => exact .inl completes_encp
  | diddec => exact .inl (Effect.subfields _ _ _ rfl).completes
  | didenc => exact .inl completes_didenc
  | dsize => exact .inl completes_dsize
  | push data => exact .inl completes_push
  | split f => exact .inl completes_split
  | validate => exact .inl completes_validate
  | construct mid payload => exact .inl completes_construct
  | ldf data => exact .inl Effect.ldf.completes
  | spnext => exact completes_spnext_or_fault.imp_right fun h => ⟨rfl, h⟩

/-- A command that goes on has one of the effects and then writes its code. -/
theorem effect_of_exec {t : State} (h : exec i s = .next t) : ∃ c s', Effect s i c s' ∧ t = s'.withCode c := by
  rcases exec_cases i s with ⟨c, s', heff, hdone⟩ | ⟨_, hfault⟩
  · exact ⟨c, s', heff, done_eq_next.1 (hdone ▸ h)⟩
  · rw [hfault] at h
    cases h

end
end Sys2Proof.Machine
end

section
/-! The invariants of R36: each write keeps them, so each command and each step does. -/

namespace Sys2Proof.Machine

/-! ### The fields of `EINFO` (R30) -/
section
variable (p : Precision) (n : BitVec 4) (x : Half)

theorem einfoOf_getLsbD (k : Nat) : (einfoOf p n x).getLsbD k =
    if k < 16 then x.getLsbD k else if k < 18 then p.code.getLsbD (k - 16) else n.getLsbD (k - 18) := by
  have h : (0#10 ++ n ++ p.code ++ x : BitVec (10 + 4 + 2 + 16)).getLsbD k =
      if k < 16 then x.getLsbD k else if k < 18 then p.code.getLsbD (k - 16) else n.getLsbD (k - 18) := by
    rw [BitVec.getLsbD_append, BitVec.getLsbD_append, BitVec.getLsbD_append, show k - 16 - 2 = k - 18 by omega]
    by_cases h16 : k < 16
    · simp [h16]
    by_cases h18 : k < 18
    · simp [h16, h18, show k - 16 < 2 by omega]
    by_cases h22 : k - 18 < 4
    · simp [h16, h18, h22, show ¬ k - 16 < 2 by omega]
    · simp [h16, h18, h22, show ¬ k - 16 < 2 by omega, BitVec.getLsbD_of_ge n (k - 18) (by omega)]
  exact h

theorem einfoOf_id : (einfoOf p n x).extractLsb' 0 16 = x := by
  ext k hk
  rw [BitVec.getElem_extractLsb', einfoOf_getLsbD, if_pos (by omega), Nat.zero_add, BitVec.getLsbD_eq_getElem hk]

theorem einfoOf_precision : (einfoOf p n x).extractLsb' 16 2 = p.code := by
  ext k hk
  rw [BitVec.getElem_extractLsb', einfoOf_getLsbD, if_neg (by omega), if_pos (by omega), Nat.add_sub_cancel_left,
    BitVec.getLsbD_eq_getElem hk]

theorem einfoOf_count : (einfoOf p n x).extractLsb' 18 4 = n := by
  ext k hk
  rw [BitVec.getElem_extractLsb', einfoOf_getLsbD, if_neg (by omega), if_neg (by omega), Nat.add_sub_cancel_left,
    BitVec.getLsbD_eq_getElem hk]

theorem einfoOf_high : (einfoOf p n x).extractLsb' 22 10 = 0 := by
  ext k hk
  rw [BitVec.getElem_extractLsb', einfoOf_getLsbD, if_neg (by omega), if_neg (by omega), BitVec.getLsbD_of_ge _ _ (by omega)]
  simp
end

/-! ### Each write keeps the invariants (R36) -/

/-- The registers that an accepting VALIDATE writes make `FV = 1` true of FRM. -/
theorem acceptFrame_frameHolds {s : State} {hdr plen : Nat} (h : checkFrame s.frm = .ok (hdr, plen)) :
    (s.acceptFrame (byteAt s.frm 2) hdr plen).FrameHolds := by
  obtain ⟨hhdr, hplen, hlen⟩ := checkFrame_bounds h
  have hpoff : (BitVec.ofNat 3 hdr).toNat = hdr := by rw [BitVec.toNat_ofNat]; omega
  have hplen' : (BitVec.ofNat 12 plen).toNat = plen := by rw [BitVec.toNat_ofNat]; omega
  refine State.frameHolds_iff_checkFrame.2 ⟨?_, ?_⟩
  · simpa [hpoff, hplen'] using h
  · exact getElem?_of_byteAt (show 2 < s.frm.length by omega)

namespace State.Inv
variable {s : State} (h : s.Inv)
include h

theorem withCode (c : Status) : (s.withCode c).Inv :=
  { h with
    sr_reserved := by simpa using h.sr_reserved
    code_listed := ⟨c, by simp⟩
    frame := fun hfv => (h.frame (by simpa using hfv)).congr rfl rfl rfl rfl }

/-- The registers with no bound, and the host's list. -/
theorem withUnbounded (v : Double) (id kind coord prec sz : Half) (host : List Bytes) :
    State.Inv { s with v := v, id := id, kind := kind, coord := coord, prec := prec, sz := sz, host := host } :=
  { h with frame := fun hfv => (h.frame hfv).congr rfl rfl rfl rfl }

theorem withEinfo {e : BitVec 32} (he : e.extractLsb' 22 10 = 0) : State.Inv { s with einfo := e } :=
  { h with
    einfo_high := he
    frame := fun hfv => (h.frame hfv).congr rfl rfl rfl rfl }

theorem loadWire {data : Bytes} (hlen : data.length ≤ 8) : (s.loadWire data).Inv := by
  have hwn : (s.loadWire data).wn.toNat = data.length := by
    rw [State.loadWire_wn, BitVec.toNat_ofNat]
    omega
  have hzero (i : Nat) (hi : i < 8) (hle : (s.loadWire data).wn.toNat ≤ i) : (s.loadWire data).w[i] = 0 := by
    rw [hwn] at hle
    simp [wireOf_getElem data i hi, byteAt, hle]
  exact { h with
    wn_le := hwn ▸ hlen
    w_zero := hzero
    frame := fun hfv => (h.frame hfv).congr rfl rfl rfl rfl }

theorem withReceive {b : Bytes} (hwf : Memory.wf { s with rxb := b } = true) : State.Inv { s with rxb := b } :=
  { h with
    buffers := hwf
    frame := fun hfv => (h.frame hfv).congr rfl rfl rfl rfl }

/-- A new FRM needs no facts about its bytes, as it clears `FV` (R28). -/
theorem replaceFrame {f : Bytes} (hlen : f.length ≤ 65542) : (s.replaceFrame f).Inv :=
  { h with
    buffers := replaceFrame_memory_wf h.buffers hlen
    flen_le := hlen
    sr_reserved := by simpa using h.sr_reserved
    code_listed := by simpa using h.code_listed
    frame := fun hfv => by simp at hfv }

theorem acceptFrame {hdr plen : Nat} (hcheck : checkFrame s.frm = .ok (hdr, plen)) :
    (s.acceptFrame (byteAt s.frm 2) hdr plen).Inv := by
  have hframe := acceptFrame_frameHolds hcheck
  exact { h with
    sr_reserved := by simpa using h.sr_reserved
    code_listed := by simpa using h.code_listed
    poff_cases := .inr hframe.poff
    plen_le := hframe.plen_le
    cur_le := Nat.zero_le _
    frame := fun _ => hframe }

theorem advanceWalk {x : Half} {l : Byte} (hcur : s.cur.toNat + 3 + l.toNat ≤ s.plen.toNat) :
    (s.advanceWalk x l).Inv := by
  have hplen := h.plen_le
  have hpoff := h.poff_cases
  exact { h with
    cur_le := by
      rw [State.advanceWalk_cur, State.advanceWalk_plen, BitVec.toNat_ofNat]
      omega
    spoff_le := by
      rw [State.advanceWalk_spoff, BitVec.toNat_ofNat]
      omega
    frame := fun hfv => (h.frame hfv).congr rfl rfl rfl rfl }

end State.Inv

/-! ### Reset, the commands and the step -/

/-- Settles O10: with everything zero each bound is `0 ≤ _` and `FV` promises nothing. -/
theorem resetMeetsInvariants : Obligations.ResetMeetsInvariants where
  wn_le := Nat.zero_le _
  w_zero i hi _ := by interval_cases i <;> rfl
  buffers := reset_memory_wf
  flen_le := Nat.zero_le _
  sr_reserved := rfl
  code_listed := ⟨.ok, rfl⟩
  einfo_high := rfl
  poff_cases := .inl rfl
  plen_le := Nat.zero_le _
  cur_le := Nat.zero_le _
  spoff_le := Nat.zero_le _
  frame hfv := by cases hfv

theorem Effect.keeps_inv {s s' : State} {i : Instr} {c : Status} (he : Effect s i c s') (hwf : i.wellFormed = true)
    (h : s.Inv) : s'.Inv := by
  cases he with
  | nop | codeOnly => exact h
  | reset => exact resetMeetsInvariants.withUnbounded _ _ _ _ _ _ s.host
  | wire _ hlen => exact h.loadWire hlen
  | value v => exact h.withUnbounded v _ _ _ _ _ _
  | decodeFault => exact h.withEinfo (einfoOf_high _ _ _)
  | identifier x => exact h.withUnbounded _ x _ _ _ _ _
  | subfields k c p => exact h.withUnbounded _ _ k c p _ _
  | size n => exact h.withUnbounded _ _ _ _ _ n _
  | push hfit => exact h.withReceive (push_memory_wf h.buffers hfit)
  | wait _ hlen => exact h.withReceive (shrink_memory_wf h.buffers hlen)
  | token hrest htoken => exact (h.withReceive (shrink_memory_wf h.buffers hrest)).replaceFrame htoken
  | construct hlen => exact h.replaceFrame (by rw [standardFrame_length]; omega)
  | ldf =>
    have hlen := of_decide_eq_true hwf
    exact h.replaceFrame (by omega)
  | accept hcheck => exact h.acceptFrame hcheck
  | advance hcur => exact h.advanceWalk hcur

theorem exec_keeps_inv {s t : State} {i : Instr} (hwf : i.wellFormed = true) (h : s.Inv) (hexec : exec i s = .next t) :
    t.Inv := by
  obtain ⟨c, s', he, rfl⟩ := effect_of_exec hexec
  exact (he.keeps_inv hwf h).withCode c

/-- Settles O9: a decoded command is well-formed, which bounds the FRM that LDF writes, and each effect of a command
keeps the invariants. -/
theorem stepKeepsInvariants : Obligations.StepKeepsInvariants := by
  intro s t h hstep
  have hhost (host : List Bytes) : State.Inv { s with host := host } := h.withUnbounded _ _ _ _ _ _ host
  rcases step_cases s with ⟨host, e⟩ | ⟨host, e⟩ | ⟨b, later, i, rest, _, hd, e⟩ <;> rw [e] at hstep
  · cases hstep
    exact hhost host
  · cases hstep
    exact (hhost host).withCode _
  · exact exec_keeps_inv (decode_wellFormed hd) (hhost _) hstep

/-- Settles O12: the first SPLIT finds an empty queue, the first SPNEXT a clear `FV`. -/
theorem resetStateIsZero : Obligations.ResetStateIsZero := by
  refine ⟨fun i hi => by interval_cases i <;> rfl, rfl, rfl, rfl, rfl, rfl, rfl, rfl, rfl, rfl, rfl, rfl, rfl, rfl, rfl, rfl,
    rfl, rfl, rfl, rfl, rfl, ?_, ?_⟩
  · exact goesTo_of_done (c := .needMore) (s' := State.reset) rfl
  · exact goesTo_of_fail rfl

end Sys2Proof.Machine
end

section
/-! What each command leaves unchanged (R22, R32), and what `EINFO` and `FV` stand for after it (R28, R30). -/

namespace Sys2Proof.Machine

/-! ### Registers and buffers -/

theorem Effect.srReserved_eq {s s' : State} {i : Instr} {c : Status} (he : Effect s i c s') (hi : i ≠ .reset) :
    s'.srReserved = s.srReserved := by
  cases he with
  | reset => exact absurd rfl hi
  | token | construct | ldf => exact State.replaceFrame_srReserved _ _
  | accept => exact State.acceptFrame_srReserved _ _ _ _
  | _ => rfl

theorem writesId_of_identifier {i : Instr} {x : Half} (hi : i = .ldid x ∨ i = .didenc) : writesId i = true := by
  rcases hi with rfl | rfl <;> rfl

theorem Effect.host_eq {s s' : State} {i : Instr} {c : Status} (he : Effect s i c s') : s'.host = s.host := by
  cases he <;> rfl

/-- Settles O57: each effect writes only what its command is listed for, and the code is a field of its own. -/
theorem onlyListedCommandsWriteRegisters : Obligations.OnlyListedCommandsWriteRegisters := by
  intro i s t hexec
  obtain ⟨c, s', he, rfl⟩ := effect_of_exec hexec
  refine ⟨he.host_eq, fun hne => ?_⟩
  have hreserved : (s'.withCode c).srReserved = s.srReserved := (s'.withCode_srReserved c).trans (he.srReserved_eq hne)
  simp only [hreserved, and_true]
  cases he with
  | nop | codeOnly | decodeFault => simp
  | reset => exact absurd rfl hne
  | wire hi | value _ hi | subfields _ _ _ hi => simp [hi]
  | identifier _ hi => simp [writesId_of_identifier hi]
  | size => simp
  | push | wait => simp [writesReceive]
  | token => simp [writesReceive, replacesFrame]
  | construct | ldf => simp [replacesFrame]
  | accept => simp
  | advance =>
    have hid : writesId .spnext = true := rfl
    simp [hid]

/-! ### `EINFO` -/

theorem Effect.einfo_eq {s s' : State} {i : Instr} {c : Status} (he : Effect s i c s') (hi : i ≠ .reset)
    (hc : c ≠ .eDecode) : s'.einfo = s.einfo := by
  cases he with
  | reset => exact absurd rfl hi
  | decodeFault => exact absurd rfl hc
  | _ => rfl

/-- `E_DECODE` is the ending of a decode that found the wrong byte count, and of nothing else. -/
theorem Effect.decodeFault_inv {s s' : State} {i : Instr} (he : Effect s i .eDecode s') :
    ∃ p : Precision, s' = { s with einfo := einfoOf p s.wn s.id } ∧ s.wn.toNat ≠ p.width ∧
      (i = p.decodeCommand ∨ (i = .decp ∧ s.prec.toNat = p.code.toNat)) := by
  cases he with
  | codeOnly _ _ hdec => exact absurd rfl hdec
  | wait hc => simp at hc
  | decodeFault hi hw => exact ⟨_, rfl, hw, hi⟩

theorem decodes_decodeCommand (p : Precision) : decodes p.decodeCommand = true := by cases p <;> rfl

/-- Settles O59: of the effects of a command, only that of a wrong byte count writes `EINFO` or ends `E_DECODE`. -/
theorem einfoHoldsLastDecodeFault : Obligations.EinfoHoldsLastDecodeFault := by
  intro i s t hexec hne
  obtain ⟨c, s', he, rfl⟩ := effect_of_exec hexec
  rw [State.withCode_code, State.withCode_einfo, ne_eq, Status.byte_inj]
  refine ⟨he.einfo_eq hne, ?_⟩
  rintro rfl
  obtain ⟨p, rfl, hw, hi⟩ := he.decodeFault_inv
  have hdec : decodes i = true := by
    rcases hi with rfl | ⟨rfl, _⟩
    · exact decodes_decodeCommand p
    · rfl
  exact ⟨hdec, einfoOf_id _ _ _, einfoOf_count _ _ _, einfoOf_high _ _ _, p, einfoOf_precision _ _ _, hw, hi⟩

/-! ### `FV` -/

/-- An accepting VALIDATE is one whose checks pass. -/
theorem exec_validate_ok_iff {s t : State} : exec .validate s = .next t ∧ t.code = Status.ok.byte ↔
    ∃ hdr plen, checkFrame s.frm = .ok (hdr, plen) ∧ t = (s.acceptFrame (byteAt s.frm 2) hdr plen).withCode .ok := by
  constructor
  · rintro ⟨hexec, hcode⟩
    obtain ⟨c, s', he, rfl⟩ := effect_of_exec hexec
    obtain rfl : c = .ok := by simpa using hcode
    cases he with
    | codeOnly _ hok => exact absurd rfl hok
    | accept hcheck => exact ⟨_, _, hcheck, rfl⟩
    | wire hi | value _ hi | subfields _ _ _ hi => cases hi
    | identifier _ hi => simp at hi
  · rintro ⟨hdr, plen, hcheck, rfl⟩
    refine ⟨?_, State.withCode_code _ _⟩
    have hexec : execValidate s = done .ok (s.acceptFrame (byteAt s.frm 2) hdr plen) := by
      simp only [execValidate, hcheck]
    exact hexec

/-- `FV = 1` promises what an accepting VALIDATE would find (R28, R158). -/
theorem frameHolds_iff_validate_ok {s : State} : s.FrameHolds ↔ ∃ u, exec .validate s = .next u ∧
    u.code = Status.ok.byte ∧ u.mid = s.mid ∧ u.poff = s.poff ∧ u.plen = s.plen := by
  constructor
  · intro h
    obtain ⟨hcheck, hid⟩ := State.frameHolds_iff_checkFrame.1 h
    obtain ⟨hexec, hcode⟩ := exec_validate_ok_iff.2 ⟨_, _, hcheck, rfl⟩
    refine ⟨_, hexec, hcode, ?_, ?_, ?_⟩ <;> simp [byteAt_of_getElem? hid]
  · rintro ⟨u, hexec, hcode, hmid, hpoff, hplen⟩
    obtain ⟨hdr, plen, hcheck, rfl⟩ := exec_validate_ok_iff.1 ⟨hexec, hcode⟩
    exact (acceptFrame_frameHolds hcheck).congr rfl hmid.symm hpoff.symm hplen.symm

/-- A command that writes a register of the codecs is none of those that touch `FV` (R22, R28). -/
theorem keepsFrame_of_writes {i : Instr}
    (hi : writesWire i = true ∨ writesValue i = true ∨ writesId i = true ∨ writesSubfields i = true) :
    i ≠ .validate ∧ replacesFrame i = false ∧ i ≠ .reset := by
  cases i with
  | reset | split | validate | construct | ldf => rcases hi with h | h | h | h <;> cases h
  | _ => exact ⟨nofun, rfl, nofun⟩

/-- What a command does to `FV` and the frame it speaks of: nothing, or a new FRM that clears it, or a VALIDATE that
sets it. -/
theorem Effect.fv_cases {s s' : State} {i : Instr} {c : Status} (he : Effect s i c s') :
    ((c = .ok → i ≠ .validate ∧ replacesFrame i = false ∧ i ≠ .reset) ∧ s'.fv = s.fv ∧ s'.frm = s.frm ∧
      s'.mid = s.mid ∧ s'.poff = s.poff ∧ s'.plen = s.plen) ∨
    (c = .ok ∧ i ≠ .validate ∧ (replacesFrame i = true ∨ i = .reset) ∧ s'.fv = false) ∨
    (c = .ok ∧ i = .validate ∧ s'.fv = true ∧ s'.frm = s.frm ∧ s'.FrameHolds) := by
  cases he with
  | reset =>
    have hfv : State.reset.fv = false := by decide
    exact .inr (.inl ⟨rfl, nofun, .inr rfl, hfv⟩)
  | token | construct | ldf => exact .inr (.inl ⟨rfl, nofun, .inl rfl, State.replaceFrame_fv _ _⟩)
  | accept hcheck => exact .inr (.inr ⟨rfl, rfl, State.acceptFrame_fv _ _ _ _, rfl, acceptFrame_frameHolds hcheck⟩)
  | codeOnly _ hok => exact .inl ⟨fun h => absurd h hok, rfl, rfl, rfl, rfl, rfl⟩
  | wait hc => exact .inl ⟨fun h => by simp [h] at hc, rfl, rfl, rfl, rfl, rfl⟩
  | decodeFault => exact .inl ⟨nofun, rfl, rfl, rfl, rfl, rfl⟩
  | nop | size | push | advance => exact .inl ⟨fun _ => ⟨nofun, rfl, nofun⟩, rfl, rfl, rfl, rfl, rfl⟩
  | wire hi => exact .inl ⟨fun _ => keepsFrame_of_writes (.inl hi), rfl, rfl, rfl, rfl, rfl⟩
  | value _ hi => exact .inl ⟨fun _ => keepsFrame_of_writes (.inr (.inl hi)), rfl, rfl, rfl, rfl, rfl⟩
  | identifier _ hi =>
    have hid := writesId_of_identifier hi
    exact .inl ⟨fun _ => keepsFrame_of_writes (.inr (.inr (.inl hid))), rfl, rfl, rfl, rfl, rfl⟩
  | subfields _ _ _ hi => exact .inl ⟨fun _ => keepsFrame_of_writes (.inr (.inr (.inr hi))), rfl, rfl, rfl, rfl, rfl⟩

/-- Settles O58: a command leaves `FV` and its frame alone, replaces FRM and clears it, or is the VALIDATE that sets it. -/
theorem fvFollowsTheFrame : Obligations.FvFollowsTheFrame := by
  refine ⟨fun s => frameHolds_iff_validate_ok, fun i s t hexec => ?_⟩
  obtain ⟨c, s', he, rfl⟩ := effect_of_exec hexec
  rw [State.withCode_code, State.withCode_fv, State.withCode_frm, Status.byte_inj]
  have hholds (h : s'.FrameHolds) : (s'.withCode c).FrameHolds := h.congr rfl rfl rfl rfl
  rcases he.fv_cases with ⟨hnot, hfv, hfrm, hmid, hpoff, hplen⟩ | ⟨rfl, hi, hclears, hfv⟩ | ⟨rfl, rfl, hfv, hfrm, hframe⟩
  · refine ⟨fun hc hi => absurd hi (hnot hc).1, ?_, fun h => absurd hfv h, fun h => absurd hfrm h, ?_⟩
    · intro hc hi
      obtain ⟨_, hkeep, hne⟩ := hnot hc
      rcases hi with hi | hi
      · simp [hkeep] at hi
      · exact absurd hi hne
    · exact fun h hset => hholds ((h (hfv ▸ hset)).congr hfrm hmid hpoff hplen)
  · exact ⟨fun _ h => absurd h hi, fun _ _ => hfv, fun _ => ⟨rfl, .inr hclears⟩, fun _ => hfv,
      fun _ hset => by simp [hfv] at hset⟩
  · exact ⟨fun _ _ => hfv, fun _ h => by simp [replacesFrame] at h, fun _ => ⟨rfl, .inl rfl⟩, fun h => absurd hfrm h,
      fun _ _ => hholds hframe⟩

end Sys2Proof.Machine
end

section
/-! Safety: from a state that meets the invariants no command stops the machine (R57, R184, R217). -/

namespace Sys2Proof.Machine

/-- R184: the three header bytes of a sub-packet that starts inside the payload of a validated frame stand in FRM. -/
theorem State.FrameHolds.header_lt_flen {s : State} (h : s.FrameHolds) (hcur : s.cur.toNat + 3 ≤ s.plen.toNat) :
    s.poff.toNat + s.cur.toNat + 2 < s.flen := by
  have hflen := h.flen
  omega

theorem walkStep_ne_fault {s : State} (h : s.FrameHolds) (r : Fault) : walkStep s ≠ .fault r := by
  rcases walkStep_cases s with ⟨_, e⟩ | ⟨_, _, e⟩ | ⟨hcur, hpast, _⟩ | ⟨_, _, _, e⟩ | ⟨_, _, e⟩
  case inr.inr.inl => exact absurd (h.header_lt_flen hcur) (Nat.not_lt.2 hpast)
  all_goals
    rw [e]
    exact nofun

/-- SPNEXT walks only where `FV` vouches for the frame (R186, R36). -/
theorem execSpnext_ne_fault {s : State} (h : s.fv = true → s.FrameHolds) (r : Fault) : execSpnext s ≠ .fault r := by
  rcases execSpnext_cases s with ⟨_, e⟩ | ⟨hfv, _, e⟩ <;> rw [e]
  · exact nofun
  · exact walkStep_ne_fault (h hfv) r

/-- R217: a command that ends with a fault of the block goes on as one that ends with `OK` does. -/
theorem exec_goesOn {s : State} (h : s.fv = true → s.FrameHolds) (i : Instr) : ∃ t, exec i s = .next t := by
  rcases exec_cases i s with ⟨c, s', _, e⟩ | ⟨rfl, e⟩
  · exact ⟨s'.withCode c, e⟩
  · exact absurd e (execSpnext_ne_fault h .frameReadPastEnd)

/-- Settles O11: an idle step and an illegal command go on in every state, and a command goes on where `FV = 1` means
that FRM holds the whole payload (log entry 5). -/
theorem stepGoesOn : Obligations.StepGoesOn := by
  intro s h
  rcases step_cases s with ⟨_, e⟩ | ⟨_, e⟩ | ⟨b, later, i, rest, _, _, e⟩
  · exact ⟨_, e⟩
  · exact ⟨_, e⟩
  · have hinv : State.Inv { s with host := keepRest rest later } := h.withUnbounded _ _ _ _ _ _ _
    obtain ⟨t, ht⟩ := exec_goesOn hinv.frame i
    exact ⟨t, e.trans ht⟩

end Sys2Proof.Machine
end

section
/-! From bytes to a command and back (R85 to R89): what decodes is an encoding, and an encoding cut short is truncated. -/

namespace Sys2Proof

/-- Settles O1: the encoding of each command has the shape that the decoder reads. -/
theorem decodeOfEncodeIsIdentity : Obligations.DecodeOfEncodeIsIdentity :=
  fun _ rest hwf => decode_encode_append hwf rest

/-- Settles O5: each word is closed, so the decoder is run on it. -/
theorem writtenOutWordsDecode : Obligations.WrittenOutWordsDecode := by
  refine ⟨?nop, ?ldw, ?ldwf, ?ldsub, ?decfp1632, ?encp, ?didenc, ?push, ?construct, ?spnext⟩ <;> decide

/-! ### The bytes of an operand -/

theorem bytesBe_of_be_eq {b : Bytes} {v : Nat} (h : be b = v) : bytesBe b.length v = b := h ▸ bytesBe_be b

/-- A register as wide as its bytes loses none of them. -/
theorem bytesBe_ofNat_be {b : Bytes} {w : Nat} (hw : w = 8 * b.length) :
    bytesBe b.length (BitVec.ofNat w (be b)).toNat = b := by
  have hfits : be b < 2 ^ w := by
    rw [hw, pow_mul]
    exact be_lt b
  rw [BitVec.toNat_ofNat, Nat.mod_eq_of_lt hfits, bytesBe_be]

theorem bytesBe_half (hi lo : Byte) : bytesBe 2 (BitVec.ofNat 16 (be [hi, lo])).toNat = [hi, lo] :=
  bytesBe_ofNat_be (b := [hi, lo]) rfl

theorem bytesBe_double (b0 b1 b2 b3 b4 b5 b6 b7 : Byte) :
    bytesBe 8 (BitVec.ofNat 64 (be [b0, b1, b2, b3, b4, b5, b6, b7])).toNat = [b0, b1, b2, b3, b4, b5, b6, b7] :=
  bytesBe_ofNat_be (b := [b0, b1, b2, b3, b4, b5, b6, b7]) rfl

/-! ### What decodes is an encoding -/

/-- The operand bytes are those of the command, and a count byte that R88 reads is the length of the data it counts. -/
theorem encode_of_assemble {op : Byte} {operands later : Bytes} {fmt : Format} {i : Instr} (hf : formatOf op = some fmt)
    (hn : operandCount fmt (operands ++ later) = some operands.length) (h : assemble op operands = some i) :
    encode i = op :: operands := by
  have hmem := mem_opcodeTable_of_formatOf hf
  simp only [opcodeTable, List.mem_cons, Prod.mk.injEq, List.not_mem_nil, or_false] at hmem
  cases fmt with
  | z =>
    obtain rfl : operands = [] := List.length_eq_zero_iff.1 (Option.some.inj hn).symm
    simp only [reduceCtorEq, and_true, and_false, false_or] at hmem
    rcases hmem with rfl | rfl | rfl | rfl | rfl | rfl | rfl | rfl | rfl | rfl | rfl | rfl | rfl | rfl | rfl | rfl | rfl <;>
      (cases h; rfl)
  | i k =>
    have hk : operands.length = k := (Option.some.inj hn).symm
    simp only [reduceCtorEq, and_false, or_false, false_or, Format.i.injEq] at hmem
    rcases hmem with ⟨rfl, rfl⟩ | ⟨rfl, rfl⟩ | ⟨rfl, rfl⟩ | ⟨rfl, rfl⟩ | ⟨rfl, rfl⟩
    · match operands, hk with
      | [b0, b1, b2, b3, b4, b5, b6, b7], _ => cases h; rw [encode, bytesBe_double]
    · match operands, hk with
      | [hi, lo, n], _ => cases h; rw [encode, bytesBe_half]; rfl
    · match operands, hk with
      | [hi, lo], _ => cases h; rw [encode, bytesBe_half]
    · match operands, hk with
      | [kh, kl, ch, cl, ph, pl], _ => cases h; rw [encode, bytesBe_half, bytesBe_half, bytesBe_half]; rfl
    · match operands, hk with
      | [f], _ => cases h; rfl
  | v8 =>
    obtain rfl : op = 0x10 := by simpa using hmem
    rcases operands with _ | ⟨n, data⟩ <;> cases h
    have hlen : be [n] = data.length := by simpa [operandCount, Nat.add_comm] using hn
    rw [encode, show bytesBe 1 data.length = [n] from bytesBe_of_be_eq hlen]; rfl
  | v16 =>
    obtain rfl | rfl : op = 0x40 ∨ op = 0x45 := by simpa using hmem
    all_goals
      rcases operands with _ | ⟨hi, _ | ⟨lo, data⟩⟩ <;> cases h
      have hcount : 2 + be [hi, lo] = data.length + 2 := by simpa [operandCount] using hn
      have hlen : be [hi, lo] = data.length := by omega
      rw [encode, show bytesBe 2 data.length = [hi, lo] from bytesBe_of_be_eq hlen]; rfl
  | c =>
    obtain rfl : op = 0x44 := by simpa using hmem
    rcases operands with _ | ⟨mid, _ | ⟨n, payload⟩⟩ <;> cases h
    have hcount : 2 + n.toNat = payload.length + 2 := by simpa [operandCount] using hn
    have hlen : be [n] = payload.length := by simp; omega
    rw [encode, show bytesBe 1 payload.length = [n] from bytesBe_of_be_eq hlen]; rfl

/-- Settles O2: of all that the decoder can answer, only the command of exactly its operand bytes is a command. -/
theorem encodeOfDecodeIsIdentity : Obligations.EncodeOfDecodeIsIdentity := by
  intro b rest i h
  refine ⟨decode_wellFormed h, ?_⟩
  cases b with
  | nil => cases h
  | cons op tail =>
    rcases decode_cases op tail with ⟨_, hd⟩ | ⟨_, _, hd⟩ | ⟨fmt, n, operands, later, j, hf, hn, rfl, rfl, hasm, hd⟩ <;>
      rw [hd] at h <;> cases h
    rw [encode_of_assemble hf hn hasm]; rfl

/-! ### An encoding cut short -/

/-- R88 reads the count at the front of the operand bytes, so more bytes behind do not change it. -/
theorem operandCount_append {fmt : Format} {a : Bytes} {n : Nat} (h : operandCount fmt a = some n) (later : Bytes) :
    operandCount fmt (a ++ later) = some n := by
  cases fmt with
  | z | i k => exact h
  | v8 =>
    cases a with
    | nil => cases h
    | cons => exact h
  | v16 | c =>
    rcases a with _ | ⟨_, _ | ⟨_, _⟩⟩
    · cases h
    · cases h
    · exact h

/-- Settles O3: if the cut still holds the count, it is the whole command's count, and the bytes are fewer. -/
theorem truncatedCommandIsIllegal : Obligations.TruncatedCommandIsIllegal := by
  intro i k hwf hpos hcut
  obtain ⟨op, operands, fmt, henc, hfmt, hcount, -⟩ := encodeShape i hwf
  obtain ⟨k, rfl⟩ : ∃ j, k = j + 1 := ⟨k - 1, by omega⟩
  have hshort : k < operands.length := by simpa [henc] using hcut
  rw [henc, List.take_succ_cons]
  refine ⟨op, decode_of_short hfmt fun n hn => ?_⟩
  have hwhole : operandCount fmt operands = some n := by
    simpa [List.take_append_drop] using operandCount_append hn (operands.drop k)
  have hlen : operandCount fmt operands = some operands.length := by simpa using hcount []
  obtain rfl : operands.length = n := Option.some.inj (hlen.symm.trans hwhole)
  rw [List.length_take]
  omega

end Sys2Proof
end

section
/-! Illegal commands: which bytes are none of R86's opcodes, and what the step does with them (R90). -/

namespace Sys2Proof

theorem formatOf_eq_none_iff {op : Byte} : formatOf op = none ↔ op ∉ opcodeTable.map Prod.fst := by
  rw [formatOf, List.lookup_eq_none_iff, List.mem_map]
  constructor
  · rintro h ⟨row, hrow, rfl⟩
    simpa using h row hrow
  · intro h row hrow
    exact bne_iff_ne.2 fun heq => h ⟨row, hrow, heq.symm⟩

theorem decode_eq_unknownOpcode_iff {op : Byte} {rest : Bytes} :
    decode (op :: rest) = .illegal (.unknownOpcode op) rest ↔ formatOf op = none := by
  rcases decode_cases op rest with ⟨hf, hd⟩ | ⟨_, hf, hd⟩ | ⟨_, _, _, _, _, hf, _, _, _, _, hd⟩ <;> simp [hf, hd]

theorem countP_formatOf_isNone : (List.range 256).countP (fun n => (formatOf (BitVec.ofNat 8 n)).isNone) = 230 := by
  decide +kernel

end Sys2Proof

namespace Sys2Proof.Machine

/-- Writing the code is all that the ending of a command does. -/
theorem endsWith_withCode (c : Status) (s : State) : endsWith c s (s.withCode c) :=
  ⟨State.withCode_code s c, State.withCode_fv s c, State.withCode_srReserved s c, rfl⟩

/-- Settles O4: an opcode is unknown where the table has no row for it, and an illegal command only writes the code. -/
theorem illegalCommandChangesOnlyCode : Obligations.IllegalCommandChangesOnlyCode := by
  refine ⟨fun op rest => ?_, countP_formatOf_isNone, fun s b rest later why hs hd => ?_⟩
  · rw [decode_eq_unknownOpcode_iff, formatOf_eq_none_iff]
    rfl
  · exact ⟨_, step_of_illegal hs hd, endsWith_withCode .eIllegal _⟩

end Sys2Proof.Machine
end

section
/-! The frames that VALIDATE accepts are those of the wire format (R70 to R74, R158). -/

namespace Sys2Proof.Machine

section
variable {mid : Byte} {payload f : Bytes}

theorem standardWire.checkFrame (h : standardWire mid payload f) : checkFrame f = .ok (4, payload.length) := by
  obtain ⟨hlen, hsum, checksum, rfl⟩ := h
  have hbyte : (BitVec.ofNat 8 payload.length).toNat = payload.length := by
    rw [BitVec.toNat_ofNat]; omega
  have hne : BitVec.ofNat 8 payload.length ≠ 0xFF := by
    intro hff
    have : payload.length = 255 := by rw [← hbyte, hff]; rfl
    omega
  exact checkFrame_eq_ok_iff.2 ⟨by simp, ⟨rfl, rfl⟩, .inl ⟨_, rfl, hne, rfl, hbyte.symm⟩, by omega,
    by simp; omega, hsum⟩

theorem extendedWire.checkFrame (h : extendedWire mid payload f) : checkFrame f = .ok (6, payload.length) := by
  obtain ⟨hmin, hmax, hsum, checksum, rfl⟩ := h
  have hlen : payload.length =
      (BitVec.ofNat 8 (payload.length / 256)).toNat * 256 + (BitVec.ofNat 8 payload.length).toNat := by
    rw [BitVec.toNat_ofNat, BitVec.toNat_ofNat]; omega
  exact checkFrame_eq_ok_iff.2 ⟨by simp, ⟨rfl, rfl⟩, .inr ⟨rfl, _, _, rfl, rfl, rfl, hlen⟩, fun _ => ⟨hmin, hmax⟩,
    by simp; omega, hsum⟩

theorem wireFrame.checkFrame (h : wireFrame mid payload f) : ∃ hdr, checkFrame f = .ok (hdr, payload.length) :=
  h.elim (fun hstd => ⟨4, hstd.checkFrame⟩) (fun hext => ⟨6, hext.checkFrame⟩)

end

/-- The bytes behind a header are the payload it announces and the checksum byte. -/
theorem exists_payload_checksum {body : Bytes} {n : Nat} (h : body.length = n + 1) :
    ∃ (payload : Bytes) (checksum : Byte), body = payload ++ [checksum] ∧ payload.length = n := by
  have hne : body ≠ [] := List.ne_nil_of_length_eq_add_one h
  exact ⟨body.dropLast, body.getLast hne, (List.dropLast_append_getLast hne).symm, by simp [h]⟩

/-- The header and the length split the frame into its header bytes, the payload they announce and one byte more. -/
theorem exists_wireFrame_of_checkFrame {f : Bytes} {hdr plen : Nat} (h : checkFrame f = .ok (hdr, plen)) :
    ∃ (mid : Byte) (payload : Bytes), wireFrame mid payload f ∧ payload.length = plen := by
  obtain ⟨-, hmark, hhead, hext, hlen, hsum⟩ := checkFrame_eq_ok_iff.1 h
  have hbounds := headerSays_bounds hhead
  obtain ⟨tail, rfl⟩ := markerAt_zero_iff.1 hmark
  rcases hhead with ⟨len, h3, hne, rfl, rfl⟩ | ⟨h3, hi, lo, h4, h5, rfl, rfl⟩
  · match tail, h3 with
    | mid :: _ :: body, rfl =>
      obtain ⟨payload, checksum, rfl, hpayload⟩ :=
        exists_payload_checksum (body := body) (n := len.toNat) (by simp at hlen; omega)
      refine ⟨mid, payload, .inl ⟨by omega, hsum, checksum, ?_⟩, hpayload⟩
      rw [hpayload, BitVec.ofNat_toNat, BitVec.setWidth_eq]
      rfl
  · match tail, h3, h4, h5 with
    | mid :: _ :: _ :: _ :: body, rfl, rfl, rfl =>
      obtain ⟨payload, checksum, rfl, hpayload⟩ :=
        exists_payload_checksum (body := body) (n := hi.toNat * 256 + lo.toNat) (by simp at hlen; omega)
      obtain ⟨hge, hle⟩ := hext rfl
      have hhi : BitVec.ofNat 8 (payload.length / 256) = hi := by
        apply BitVec.eq_of_toNat_eq
        rw [BitVec.toNat_ofNat, hpayload]
        omega
      have hlo : BitVec.ofNat 8 payload.length = lo := by
        apply BitVec.eq_of_toNat_eq
        rw [BitVec.toNat_ofNat, hpayload]
        omega
      refine ⟨mid, payload, .inr ⟨by omega, by omega, hsum, checksum, ?_⟩, hpayload⟩
      rw [hhi, hlo]
      rfl

/-- Settles O46: an accepting VALIDATE is one whose checks pass, and they pass on just the two frame forms. -/
theorem validateAcceptsExactlyWireFrames : Obligations.ValidateAcceptsExactlyWireFrames := by
  intro s
  constructor
  · rintro ⟨t, hok⟩
    obtain ⟨hdr, plen, hcheck, -⟩ := exec_validate_ok_iff.1 hok
    obtain ⟨mid, payload, hwire, -⟩ := exists_wireFrame_of_checkFrame hcheck
    exact ⟨mid, payload, hwire⟩
  · rintro ⟨mid, payload, hwire⟩
    obtain ⟨hdr, hcheck⟩ := hwire.checkFrame
    exact ⟨_, exec_validate_ok_iff.2 ⟨hdr, _, hcheck, rfl⟩⟩

end Sys2Proof.Machine
end

section
/-! How a decode command ends (R102, R105 to R112): on the right byte count with `V`, else with `EINFO`. -/

namespace Sys2Proof.Machine

section
variable {p : Precision} {s : State}

theorem einfoOf_toNat (p : Precision) (n : BitVec 4) (x : Half) :
    (einfoOf p n x).toNat = n.toNat * 2 ^ 18 + p.code.toNat * 2 ^ 16 + x.toNat := by
  have happend : (0#10 ++ n ++ p.code ++ x : BitVec (10 + 4 + 2 + 16)).toNat =
      n.toNat * 2 ^ 18 + p.code.toNat * 2 ^ 16 + x.toNat := by
    rw [BitVec.toNat_append, BitVec.toNat_append, BitVec.toNat_append, ← Nat.shiftLeft_add_eq_or_of_lt x.isLt,
      ← Nat.shiftLeft_add_eq_or_of_lt p.code.isLt, ← Nat.shiftLeft_add_eq_or_of_lt n.isLt]
    simp only [Nat.shiftLeft_eq, BitVec.toNat_ofNat]
    omega
  exact happend

theorem exec_decp (hp : s.prec.toNat = p.code.toNat) : exec .decp s = decodeAs p s := by
  have hrun : execDecp s = decodeAs p s := by simp only [execDecp, precisionOf_eq_some_iff.2 hp]
  exact hrun

theorem exec_decp_of_gt (hp : 3 < s.prec.toNat) : exec .decp s = fail .eOperand s := by
  have hrun : execDecp s = fail .eOperand s := by simp only [execDecp, precisionOf_eq_none_iff.2 hp]
  exact hrun

theorem goesTo_of_decodeAs_ok {i : Instr} (hi : exec i s = decodeAs p s) (hw : s.wn.toNat = p.width) :
    goesTo i s .ok { s with v := decodeValue p (s.wire p.width) } :=
  goesTo_of_done (hi.trans (decodeAs_of_width hw))

theorem goesTo_of_decodeAs_fault {i : Instr} (hi : exec i s = decodeAs p s) (hw : s.wn.toNat ≠ p.width) :
    goesTo i s .eDecode { s with einfo := einfoOf p s.wn s.id } :=
  goesTo_iff.2 (hi.trans (decodeAs_of_ne hw))

theorem decodeCommand_ok (hw : s.wn.toNat = p.width) :
    goesTo p.decodeCommand s .ok { s with v := decodeValue p (s.wire p.width) } :=
  goesTo_of_decodeAs_ok (exec_decodeCommand p s) hw

/-- The fault of a decode command, with `EINFO` as the number that R30 makes of its fields. -/
theorem decodeCommand_fault (hw : s.wn.toNat ≠ p.width) :
    ∃ e : BitVec 32, e.toNat = s.wn.toNat * 2 ^ 18 + p.code.toNat * 2 ^ 16 + s.id.toNat ∧
      goesTo p.decodeCommand s .eDecode { s with einfo := e } :=
  ⟨_, einfoOf_toNat p s.wn s.id, goesTo_of_decodeAs_fault (exec_decodeCommand p s) hw⟩

end

/-! ### The wire bytes, written out -/

theorem wire_four (s : State) : s.wire 4 = [s.w[0], s.w[1], s.w[2], s.w[3]] := by
  rw [wire_eq_take s (by decide), wire_eq]; rfl

theorem wire_six (s : State) : s.wire 6 = [s.w[0], s.w[1], s.w[2], s.w[3], s.w[4], s.w[5]] := by
  rw [wire_eq_take s (by decide), wire_eq]; rfl

/-! ### The statements of R102 and of the decodes that copy or select -/

/-- Settles O19: DECP with `p` in `PREC` runs the decode of `p`, and that looks at the byte count alone. -/
theorem decodeFaultsOnWrongByteCount : Obligations.DecodeFaultsOnWrongByteCount := by
  intro s p
  constructor
  · intro hw
    exact ⟨_, einfoOf_toNat p s.wn s.id, goesTo_of_decodeAs_fault (exec_decodeCommand p s) hw,
      fun hp => goesTo_of_decodeAs_fault (exec_decp hp) hw⟩
  · intro hw
    exact ⟨_, decodeCommand_ok hw, fun hp => goesTo_of_decodeAs_ok (exec_decp hp) hw⟩

/-- Settles O21: DECF32 is the decode of Float32, of precision code 0. -/
theorem decf32Widens : Obligations.Decf32Widens := by
  refine ⟨rfl, fun s => ⟨fun hw => ?_, fun hw => ?_⟩⟩
  · rw [← wire_four]
    exact decodeCommand_ok (p := .float32) hw
  · simpa [Precision.code, Precision.decodeCommand] using decodeCommand_fault (p := .float32) hw

/-- Settles O24: eight bytes hold no more than the 64 bits of `V`. -/
theorem decf64Copies : Obligations.Decf64Copies := by
  refine ⟨rfl, fun s => ⟨fun hw => ⟨_, decodeCommand_ok (p := .float64) hw, ?_⟩, fun hw => ?_⟩⟩
  · have hlt : be (s.wire 8) < 2 ^ 64 := by simpa using be_lt (s.wire 8)
    rw [← wire_eq]
    exact Nat.mod_eq_of_lt hlt
  · exact decodeCommand_fault (p := .float64) hw

/-- Settles O25: DECP and the command of `PREC` both run the decode of that precision. -/
theorem decpSelectsByPrecision : Obligations.DecpSelectsByPrecision := by
  refine ⟨rfl, fun s => ⟨fun hgt => goesTo_of_fail (exec_decp_of_gt hgt), fun p hp => ⟨?_, fun hw => ?_⟩⟩⟩
  · rw [exec_decp hp, exec_decodeCommand]
  · exact ⟨_, goesTo_of_decodeAs_ok (exec_decp hp) hw, decodeCommand_ok hw⟩

end Sys2Proof.Machine
end

section
/-! Decoding is exact (R106 to R109): widening field by field and in value, and the fixed-point decodes. -/

namespace Sys2Proof.Machine

/-! ### Widening in its four cases (R106) -/

section
variable {b : BitVec 32}

theorem widen32_of_special (he : exp32 b = 255) : widen32 b = pack64 (sign32 b) 0x7FF (frac32 b * 2 ^ 29) := by
  simp [widen32, he]

theorem widen32_of_zero (he : exp32 b = 0) (hf : frac32 b = 0) : widen32 b = pack64 (sign32 b) 0 0 := by
  simp [widen32, he, hf]

theorem widen32_of_normal (he : exp32 b ≠ 255) (h0 : exp32 b ≠ 0) :
    widen32 b = pack64 (sign32 b) (exp32 b + 896) (frac32 b * 2 ^ 29) := by
  simp only [widen32, if_neg he, if_neg h0]

theorem widen32_of_subnormal (he : exp32 b = 0) (hf : frac32 b ≠ 0) : widen32 b =
    pack64 (sign32 b) (bitLength (frac32 b) + 873)
      ((frac32 b - 2 ^ (bitLength (frac32 b) - 1)) * 2 ^ (53 - bitLength (frac32 b))) := by
  simp only [widen32, he, if_neg hf, if_true, show (0 : Nat) ≠ 255 by decide, if_false]

/-- A subnormal is an integer over `2^149`, and widening it is R108's exact conversion of that. -/
theorem widen32_eq_f64Exact (he : exp32 b = 0) (hf : frac32 b ≠ 0) :
    widen32 b = f64Exact ((if sign32 b then -1 else 1) * (frac32 b : ℤ)) 149 := by
  have hexp : 1023 + (bitLength (frac32 b) - 1) - 149 = bitLength (frac32 b) + 873 := by
    rw [bitLength]; omega
  have hpos : 0 < frac32 b := Nat.pos_of_ne_zero hf
  rw [widen32_of_subnormal he hf, f64Exact]
  cases sign32 b
  · simp [hf, hexp, show ¬ ((frac32 b : ℤ) < 0) by omega]
  · simp [hf, hexp, hpos]

theorem sign64_widen32 (b : BitVec 32) : sign64 (widen32 b) = sign32 b := by
  by_cases he : exp32 b = 255
  · rw [widen32_of_special he, sign64_pack64]
  by_cases h0 : exp32 b = 0
  · by_cases hf : frac32 b = 0
    · rw [widen32_of_zero h0 hf, sign64_pack64]
    · rw [widen32_of_subnormal h0 hf, sign64_pack64]
  · rw [widen32_of_normal he h0, sign64_pack64]

/-- 23 fraction bits moved to the top of 52. -/
theorem frac32_widened_lt (b : BitVec 32) : frac32 b * 2 ^ 29 < 2 ^ 52 := by
  have := frac32_lt b
  omega

/-- The fields of a widened infinity or NaN. -/
theorem widen32_special_fields (he : exp32 b = 255) :
    exp64 (widen32 b) = 0x7FF ∧ frac64 (widen32 b) = frac32 b * 2 ^ 29 := by
  rw [widen32_of_special he, exp64_pack64, frac64_pack64, Nat.mod_eq_of_lt (frac32_widened_lt b)]
  exact ⟨rfl, rfl⟩

theorem widen32_zero_fields (he : exp32 b = 0) (hf : frac32 b = 0) :
    exp64 (widen32 b) = 0 ∧ frac64 (widen32 b) = 0 := by
  rw [widen32_of_zero he hf, exp64_pack64, frac64_pack64]
  exact ⟨rfl, rfl⟩

theorem widen32_normal_fields (he : exp32 b ≠ 255) (h0 : exp32 b ≠ 0) :
    exp64 (widen32 b) = exp32 b + 896 ∧ frac64 (widen32 b) = frac32 b * 2 ^ 29 := by
  have := exp32_lt b
  rw [widen32_of_normal he h0, exp64_pack64, frac64_pack64, Nat.mod_eq_of_lt (frac32_widened_lt b),
    Nat.mod_eq_of_lt (by omega)]
  exact ⟨rfl, rfl⟩

/-- The bits of a `k`-bit number below its top one, moved to the top of 52. -/
theorem below_top_bit_lt {m k : Nat} (h0 : 0 < k) (hk : k ≤ 53) (hm : m < 2 ^ k) :
    (m - 2 ^ (k - 1)) * 2 ^ (53 - k) < 2 ^ 52 := by
  obtain ⟨j, rfl⟩ : ∃ j, k = j + 1 := ⟨k - 1, by omega⟩
  have hlow : m - 2 ^ j < 2 ^ j := by
    rw [pow_succ] at hm
    have : 0 < 2 ^ j := by positivity
    omega
  calc (m - 2 ^ j) * 2 ^ (53 - (j + 1)) < 2 ^ j * 2 ^ (53 - (j + 1)) := Nat.mul_lt_mul_of_pos_right hlow (by positivity)
    _ = 2 ^ 52 := by rw [← pow_add]; congr 1; omega

/-- A fraction has at most 23 bits. -/
theorem le_23_of_le_frac32 {k : Nat} (h : 2 ^ (k - 1) ≤ frac32 b) : k ≤ 23 := by
  have hlt : 2 ^ (k - 1) < 2 ^ 23 := h.trans_lt (frac32_lt b)
  have := (Nat.pow_lt_pow_iff_right (by decide)).1 hlt
  omega

theorem widen32_subnormal_fields {k : Nat} (he : exp32 b = 0) (h0 : 0 < k) (h1 : 2 ^ (k - 1) ≤ frac32 b)
    (h2 : frac32 b < 2 ^ k) :
    exp64 (widen32 b) = k + 873 ∧ frac64 (widen32 b) = (frac32 b - 2 ^ (k - 1)) * 2 ^ (53 - k) := by
  have hf : frac32 b ≠ 0 := (lt_of_lt_of_le (by positivity) h1).ne'
  have hk := le_23_of_le_frac32 h1
  rw [widen32_of_subnormal he hf, bitLength_eq h0 h1 h2, exp64_pack64, frac64_pack64,
    Nat.mod_eq_of_lt (below_top_bit_lt h0 (by omega) h2), Nat.mod_eq_of_lt (by omega)]
  exact ⟨rfl, rfl⟩

theorem val32_of_subnormal (he : exp32 b = 0) :
    val32 b = (if sign32 b then -1 else 1) * (frac32 b : ℚ) / 2 ^ 149 := by
  have hpow : (2 : ℚ) ^ (-126 : ℤ) = 1 / 2 ^ 126 := by
    rw [zpow_neg, one_div]; rfl
  rw [val32, if_pos he, hpow]
  ring

theorem val64_widen32_of_subnormal (he : exp32 b = 0) (hf : frac32 b ≠ 0) :
    finite64 (widen32 b) ∧ val64 (widen32 b) = val32 b := by
  have hlt := frac32_lt b
  have habs : ((if sign32 b then -1 else 1) * (frac32 b : ℤ)).natAbs < 2 ^ 53 := by
    split <;> omega
  obtain ⟨hfin, hval, -, -⟩ := f64Exact_spec habs (show 149 ≤ 1022 by decide)
  rw [widen32_eq_f64Exact he hf, val32_of_subnormal he]
  refine ⟨hfin, hval.trans ?_⟩
  push_cast
  rfl

theorem val64_widen32_of_normal (he : exp32 b ≠ 255) (h0 : exp32 b ≠ 0) : val64 (widen32 b) = val32 b := by
  obtain ⟨hexp, hfrac⟩ := widen32_normal_fields he h0
  have hbias : ((exp32 b + 896 : ℕ) : ℤ) - 1023 = (exp32 b : ℤ) - 127 := by omega
  have hfraction : ((frac32 b * 2 ^ 29 : ℕ) : ℚ) / 2 ^ 52 = (frac32 b : ℚ) / 2 ^ 23 := by push_cast; ring
  rw [val64, val32, sign64_widen32, hexp, hfrac, if_neg h0, if_neg (show exp32 b + 896 ≠ 0 by omega), hbias, hfraction]

theorem val64_widen32_of_zero (he : exp32 b = 0) (hf : frac32 b = 0) : val64 (widen32 b) = val32 b := by
  rw [val64_eq_zero_iff.2 (widen32_zero_fields he hf), val32_of_subnormal he, hf]
  simp

theorem widen32_exact (hfin : finite32 b) : finite64 (widen32 b) ∧ val64 (widen32 b) = val32 b := by
  by_cases h0 : exp32 b = 0
  · by_cases hf : frac32 b = 0
    · refine ⟨?_, val64_widen32_of_zero h0 hf⟩
      rw [finite64, (widen32_zero_fields h0 hf).1]
      decide
    · exact val64_widen32_of_subnormal h0 hf
  · refine ⟨?_, val64_widen32_of_normal hfin h0⟩
    have := exp32_lt b
    rw [finite64, (widen32_normal_fields hfin h0).1]
    omega

end

/-- Settles O20: each clause is one case of `widen32`. -/
theorem wideningIsExact : Obligations.WideningIsExact :=
  fun b => ⟨sign64_widen32 b, widen32_special_fields, widen32_zero_fields, fun _ => widen32_subnormal_fields,
    widen32_normal_fields, widen32_exact⟩

/-! ### The fixed-point decodes (R107, R109) -/

theorem natAbs_sint_lt {n u : Nat} (hn : 0 < n) (hn53 : n ≤ 53) (hu : u < 2 ^ n) : (sint n u).natAbs < 2 ^ 53 := by
  obtain ⟨hlo, hhi⟩ := sint_range hn hu
  have hpow : (2 : ℤ) ^ (n - 1) ≤ 2 ^ 52 := pow_le_pow_right₀ (by decide) (by omega)
  omega

/-- A fixed-point decode is exact, and gives zero as `+0.0`. -/
theorem f64Exact_sint {n q u : Nat} (hn : 0 < n) (hn53 : n ≤ 53) (hq : q ≤ 1022) (hu : u < 2 ^ n) :
    finite64 (f64Exact (sint n u) q) ∧ val64 (f64Exact (sint n u) q) = (sint n u : ℚ) / 2 ^ q ∧
      (val64 (f64Exact (sint n u) q) = 0 → f64Exact (sint n u) q = 0) := by
  obtain ⟨hfin, hval, -, hzero⟩ := f64Exact_spec (natAbs_sint_lt hn hn53 hu) hq
  refine ⟨hfin, hval, fun h => hzero ?_⟩
  rw [hval, div_eq_zero_iff] at h
  exact_mod_cast h.resolve_right (by positivity)

theorem decodeValue_fp1220 (b : Bytes) : decodeValue .fp1220 b = f64Exact (sint 32 (be b)) 20 := rfl

theorem decodeValue_fp1632 (b : Bytes) : decodeValue .fp1632 b = f64Exact (sint 48 (be (b.drop 4 ++ b.take 4))) 32 := rfl

/-- Settles O22: the four bytes are 32 bits, few enough for the 53 of a significand. -/
theorem decfp1220IsExact : Obligations.Decfp1220IsExact := by
  refine ⟨rfl, fun s => ⟨fun hw => ⟨_, decodeCommand_ok (p := .fp1220) hw, ?_⟩, fun hw => ?_⟩⟩
  · have hlt : be (s.wire 4) < 2 ^ 32 := by simpa using be_lt (s.wire 4)
    rw [← wire_four, show Precision.fp1220.width = 4 from rfl, decodeValue_fp1220]
    exact f64Exact_sint (by decide) (by decide) (by decide) hlt
  · exact decodeCommand_fault (p := .fp1220) hw

theorem be_lt_two_pow (b : Bytes) : be b < 2 ^ (8 * b.length) := by
  rw [pow_mul]
  exact be_lt b

/-- R109: the integer part stands behind the fraction on the wire. -/
theorem be_integer_fraction (w0 w1 w2 w3 w4 w5 : Byte) :
    be [w4, w5, w0, w1, w2, w3] = be [w4, w5] * 2 ^ 32 + be [w0, w1, w2, w3] := by
  simp only [be_cons, be_nil, List.length_cons, List.length_nil]
  ring

/-- R109: bit 7 of `W[4]`, the first byte of the integer part, is the sign. -/
theorem sint_signExtended (w0 w1 w2 w3 w4 w5 : Byte) :
    let x : Byte := if w4.msb then 0xFF else 0x00
    sint 64 (be [x, x, w4, w5, w0, w1, w2, w3]) = sint 48 (be [w4, w5] * 2 ^ 32 + be [w0, w1, w2, w3]) := by
  have hlow : be [w5, w0, w1, w2, w3] < 2 ^ 40 := be_lt_two_pow [w5, w0, w1, w2, w3]
  have hsplit : be [w4, w5, w0, w1, w2, w3] = w4.toNat * 2 ^ 40 + be [w5, w0, w1, w2, w3] := by simp
  have hlt : w4.toNat < 256 := w4.isLt
  rw [← be_integer_fraction, BitVec.msb_eq_decide]
  intro x
  have hextended : be [x, x, w4, w5, w0, w1, w2, w3] =
      x.toNat * 2 ^ 56 + (x.toNat * 2 ^ 48 + be [w4, w5, w0, w1, w2, w3]) := by simp
  rw [hextended, hsplit]
  by_cases hneg : 128 ≤ w4.toNat
  · have hx : x.toNat = 255 := by simp [x, hneg]
    rw [hx, sint, sint, if_neg (by omega), if_neg (by omega)]
    omega
  · have hx : x.toNat = 0 := by simp [x, hneg]
    rw [hx, sint, sint, if_pos (by omega), if_pos (by omega)]
    omega

/-- Settles O23: the six bytes reassembled are 48 bits, few enough for 53. -/
theorem decfp1632IsExact : Obligations.Decfp1632IsExact := by
  refine ⟨rfl, fun s => ⟨fun hw => ?_, fun hw => decodeCommand_fault (p := .fp1632) hw⟩⟩
  have hlt : be [s.w[4], s.w[5], s.w[0], s.w[1], s.w[2], s.w[3]] < 2 ^ 48 := be_lt_two_pow _
  have hext := sint_signExtended s.w[0] s.w[1] s.w[2] s.w[3] s.w[4] s.w[5]
  have hwire : decodeValue .fp1632 (s.wire 6) =
      f64Exact (sint 48 (be [s.w[4], s.w[5], s.w[0], s.w[1], s.w[2], s.w[3]])) 32 := by
    rw [wire_six, decodeValue_fp1632]; rfl
  obtain ⟨hfin, hval, hzero⟩ := f64Exact_sint (q := 32) (by decide) (by decide) (by decide) hlt
  refine ⟨_, _, decodeCommand_ok (p := .fp1632) hw, ?_, rfl, ?_, hext, ?_⟩ <;>
    rw [show Precision.fp1632.width = 6 from rfl, hwire]
  · exact hfin
  · rw [hext, ← be_integer_fraction, hval]
  · exact hzero

end Sys2Proof.Machine
end

section
/-! How an encode command ends (R113 to R121): with the bytes of its format, or, in a fixed-point format that cannot hold
the rounded value, with `E_RANGE`. -/

namespace Sys2Proof.Machine

/-! ### The commands and their bytes -/

section
variable {p : Precision} {s : State} {i : Instr}

theorem exec_encp (hp : s.prec.toNat = p.code.toNat) : exec .encp s = encodeAs p s := by
  have hrun : execEncp s = encodeAs p s := by simp only [execEncp, precisionOf_eq_some_iff.2 hp]
  exact hrun

theorem exec_encp_of_gt (hp : 3 < s.prec.toNat) : exec .encp s = fail .eOperand s := by
  have hrun : execEncp s = fail .eOperand s := by simp only [execEncp, precisionOf_eq_none_iff.2 hp]
  exact hrun

theorem encodeAs_of_some {b : Bytes} (h : encodeValue p s.v = some b) : encodeAs p s = done .ok (s.loadWire b) := by
  simp only [encodeAs, h]

theorem encodeAs_of_none (h : encodeValue p s.v = none) : encodeAs p s = fail .eRange s := by
  simp only [encodeAs, h]

theorem wireOf_zero {b : Bytes} {k : Nat} (hk : k < 8) (hle : b.length ≤ k) : (wireOf b)[k] = 0 := by
  rw [wireOf_getElem b k hk, byteAt, List.getElem?_eq_none hle, Option.getD_none]

/-- An encode that has a result writes its bytes, zeros after them, and their number. -/
theorem goesTo_of_encodeAs_ok {b : Bytes} (hi : exec i s = encodeAs p s) (h : encodeValue p s.v = some b) :
    goesTo i s .ok { s with w := wireOf b, wn := BitVec.ofNat 4 p.width } ∧ b.length = p.width ∧
      ∀ (k : Nat) (hk : k < 8), p.width ≤ k → (wireOf b)[k] = 0 := by
  have hlen := encodeValue_length h
  refine ⟨?_, hlen, fun k hk hle => wireOf_zero hk (hlen ▸ hle)⟩
  rw [← hlen]
  exact goesTo_of_done (hi.trans (encodeAs_of_some h))

theorem goesTo_of_encodeAs_fault (hi : exec i s = encodeAs p s) (h : encodeValue p s.v = none) : goesTo i s .eRange s :=
  goesTo_of_fail (hi.trans (encodeAs_of_none h))

end

theorem wireOf_four {b : Bytes} (h : b.length = 4) :
    [(wireOf b)[0], (wireOf b)[1], (wireOf b)[2], (wireOf b)[3]] = b := by
  match b, h with
  | [_, _, _, _], _ => rfl

theorem wireOf_eight {b : Bytes} (h : b.length = 8) :
    [(wireOf b)[0], (wireOf b)[1], (wireOf b)[2], (wireOf b)[3], (wireOf b)[4], (wireOf b)[5], (wireOf b)[6],
      (wireOf b)[7]] = b := by
  match b, h with
  | [_, _, _, _, _, _, _, _], _ => rfl

theorem wireOf_four_two {a b : Bytes} (ha : a.length = 4) (hb : b.length = 2) :
    [(wireOf (a ++ b))[0], (wireOf (a ++ b))[1], (wireOf (a ++ b))[2], (wireOf (a ++ b))[3]] = a ∧
      [(wireOf (a ++ b))[4], (wireOf (a ++ b))[5]] = b := by
  match a, b, ha, hb with
  | [_, _, _, _], [_, _], _, _ => exact ⟨rfl, rfl⟩

/-! ### The two commands that never fault -/

/-- Settles O26: every `V` has a narrowed pattern, of four bytes. -/
theorem encf32Narrows : Obligations.Encf32Narrows := by
  refine ⟨rfl, fun s => ?_⟩
  obtain ⟨hgo, hlen, hzero⟩ := goesTo_of_encodeAs_ok (p := .float32) (s := s) (i := .encf32) rfl rfl
  refine ⟨_, hgo, ?_, hzero⟩
  rw [wireOf_four hlen]
  exact be_bytesBe (by have := (narrow64 s.v).isLt; omega)

/-- Settles O31: the 64 bits of `V` are the value of its eight bytes. -/
theorem encf64Copies : Obligations.Encf64Copies := by
  refine ⟨rfl, fun s => ?_⟩
  obtain ⟨hgo, hlen, -⟩ := goesTo_of_encodeAs_ok (p := .float64) (s := s) (i := .encf64) rfl rfl
  refine ⟨_, hgo, ?_⟩
  rw [wireOf_eight hlen]
  exact be_bytesBe (by have := s.v.isLt; omega)

/-! ### The fixed-point encodes (R115, R116, R119) -/

section
variable {v : Double} {q n : Nat}

theorem fixedOf_of_fits (hfin : finite64 v) (hlo : -2 ^ (n - 1) ≤ roundHalfAway (val64 v * 2 ^ q))
    (hhi : roundHalfAway (val64 v * 2 ^ q) ≤ 2 ^ (n - 1) - 1) : fixedOf v q n = some (roundHalfAway (val64 v * 2 ^ q)) := by
  rw [fixedOf_eq, if_neg hfin, if_neg (by omega)]

theorem fixedOf_of_not_fits (h : ¬ finite64 v ∨ roundHalfAway (val64 v * 2 ^ q) < -2 ^ (n - 1) ∨
    2 ^ (n - 1) - 1 < roundHalfAway (val64 v * 2 ^ q)) : fixedOf v q n = none := by
  rw [fixedOf_eq]
  by_cases he : exp64 v = 0x7FF
  · rw [if_pos he]
  · rw [if_neg he, if_pos (h.resolve_left (not_not.2 he))]

/-- What a fixed-point encode answers is the rounding of a finite value, and fits. -/
theorem fixedOf_eq_some {r : ℤ} (h : fixedOf v q n = some r) :
    finite64 v ∧ r = roundHalfAway (val64 v * 2 ^ q) ∧ -2 ^ (n - 1) ≤ r ∧ r < 2 ^ (n - 1) := by
  rw [fixedOf_eq] at h
  split at h
  · cases h
  split at h
  · cases h
  · cases h
    exact ⟨‹_›, rfl, by omega, by omega⟩

end

theorem encodeValue_fp1220 {v : Double} {r : ℤ} (h : fixedOf v 20 32 = some r) :
    encodeValue .fp1220 v = some (bytesBe 4 (uint 32 r)) := by
  simp only [encodeValue, h, Option.map_some]

theorem encodeValue_fp1632 {v : Double} {r : ℤ} (h : fixedOf v 32 48 = some r) :
    encodeValue .fp1632 v = some (bytesBe 4 (bits (uint 48 r) 31 0) ++ bytesBe 2 (bits (uint 48 r) 47 32)) := by
  simp only [encodeValue, h, Option.map_some]

theorem be_bytesBe_uint32 (r : ℤ) : be (bytesBe 4 (uint 32 r)) = uint 32 r :=
  be_bytesBe (uint_lt 32 r)

/-- The two parts of a 48-bit number, each written as its bytes. -/
theorem be_bytesBe_parts {u : Nat} (h : u < 2 ^ 48) :
    be (bytesBe 2 (bits u 47 32)) * 2 ^ 32 + be (bytesBe 4 (bits u 31 0)) = u := by
  rw [be_bytesBe_mod, be_bytesBe_mod, bits, bits]
  omega

/-- Settles O29: the four bytes are the two's complement of the rounded integer. -/
theorem encfp1220Rounds : Obligations.Encfp1220Rounds := by
  refine ⟨rfl, fun s r hr => ⟨fun hfin hlo hhi => ?_, fun hout => ?_⟩⟩ <;> subst hr
  · have henc := encodeValue_fp1220 (fixedOf_of_fits (n := 32) hfin hlo hhi)
    obtain ⟨hgo, hlen, hzero⟩ := goesTo_of_encodeAs_ok (i := .encfp1220) rfl henc
    refine ⟨_, hgo, ?_, hzero⟩
    rw [wireOf_four hlen, be_bytesBe_uint32]
    exact sint_uint (by decide) hlo (by omega)
  · refine goesTo_of_encodeAs_fault (p := .fp1220) rfl ?_
    simp only [encodeValue, fixedOf_of_not_fits (n := 32) hout, Option.map_none]

/-- Settles O30: the low 32 bits of the two's complement come first, the high 16 behind them. -/
theorem encfp1632Rounds : Obligations.Encfp1632Rounds := by
  refine ⟨rfl, fun s r hr => ⟨fun hfin hlo hhi => ?_, fun hout => ?_⟩⟩ <;> subst hr
  · have henc := encodeValue_fp1632 (fixedOf_of_fits (n := 48) hfin hlo hhi)
    obtain ⟨hgo, -, hzero⟩ := goesTo_of_encodeAs_ok (i := .encfp1632) rfl henc
    obtain ⟨hfraction, hinteger⟩ := wireOf_four_two (bytesBe_length 4 _) (bytesBe_length 2 _)
    refine ⟨_, hgo, ?_, hzero⟩
    rw [hfraction, hinteger, be_bytesBe_parts (uint_lt 48 _)]
    exact sint_uint (by decide) hlo (by omega)
  · refine goesTo_of_encodeAs_fault (p := .fp1632) rfl ?_
    simp only [encodeValue, fixedOf_of_not_fits (n := 48) hout, Option.map_none]

/-! ### Rounding half away from zero (R119) -/

theorem abs_roundHalfAway_sub_le (t : ℚ) : |(roundHalfAway t : ℚ) - t| ≤ 1 / 2 := by
  have hlo := Int.floor_le (|t| + 1 / 2)
  have hhi := Int.lt_floor_add_one (|t| + 1 / 2)
  rw [roundHalfAway, abs_le]
  by_cases ht : t < 0
  · rw [abs_of_neg ht] at *
    rw [if_pos ht]
    push_cast
    constructor <;> linarith
  · rw [abs_of_nonneg (not_lt.1 ht)] at *
    rw [if_neg ht]
    push_cast
    constructor <;> linarith

/-- An integer no farther than one half from an integer is that integer. -/
theorem int_eq_of_abs_sub_le_half {a b : ℤ} (h : |(a : ℚ) - b| ≤ 1 / 2) : a = b := by
  have hlt : |a - b| < 1 := by
    have : ((|a - b| : ℤ) : ℚ) < 1 := by push_cast; linarith
    exact_mod_cast this
  have := Int.abs_lt_one_iff.1 hlt
  omega

theorem roundHalfAway_intCast (k : ℤ) : roundHalfAway (k : ℚ) = k :=
  int_eq_of_abs_sub_le_half (abs_roundHalfAway_sub_le k)

/-- Rounding stays within integer bounds. -/
theorem abs_roundHalfAway_le {t : ℚ} {k : ℤ} (h : |t| ≤ k) : |roundHalfAway t| ≤ k := by
  obtain ⟨hlo, hhi⟩ := abs_le.1 (abs_roundHalfAway_sub_le t)
  obtain ⟨htlo, hthi⟩ := abs_le.1 h
  have h1 : ((roundHalfAway t : ℤ) : ℚ) < (k + 1 : ℤ) := by push_cast; linarith
  have h2 : ((-k - 1 : ℤ) : ℚ) < (roundHalfAway t : ℤ) := by push_cast; linarith
  have h1' : roundHalfAway t < k + 1 := by exact_mod_cast h1
  have h2' : -k - 1 < roundHalfAway t := by exact_mod_cast h2
  exact abs_le.2 ⟨by omega, by omega⟩

/-- A value of magnitude at most `k` scales by `2^q` to an integer of magnitude at most `k * 2^q`. -/
theorem abs_roundHalfAway_mul_le {x : ℚ} {k q : ℕ} (h : |x| ≤ k) : |roundHalfAway (x * 2 ^ q)| ≤ (k * 2 ^ q : ℕ) := by
  refine abs_roundHalfAway_le ?_
  rw [abs_mul, abs_of_pos (show (0 : ℚ) < 2 ^ q by positivity)]
  push_cast
  exact mul_le_mul_of_nonneg_right h (by positivity)

/-- Settles O32: the magnitudes 2047 and 32767 leave room for the rounding in 32 and 48 bits. -/
theorem encpSelectsByPrecision : Obligations.EncpSelectsByPrecision := by
  refine ⟨rfl, fun s => ⟨fun hgt => goesTo_of_fail (exec_encp_of_gt hgt), fun p hp => ?_, ?_, ?_, ?_⟩⟩
  · rw [exec_encp hp, exec_encodeCommand]
  · rintro (hp | hp)
    · exact ⟨_, _, (goesTo_of_encodeAs_ok (p := .float32) (exec_encp hp) rfl).1⟩
    · exact ⟨_, _, (goesTo_of_encodeAs_ok (p := .float64) (exec_encp hp) rfl).1⟩
  · intro hp hfin habs
    have hr := abs_le.1 (abs_roundHalfAway_mul_le (k := 2047) (q := 20) habs)
    have henc := encodeValue_fp1220 (fixedOf_of_fits (n := 32) hfin (by omega) (by omega))
    exact ⟨_, (goesTo_of_encodeAs_ok (exec_encp hp) henc).1⟩
  · intro hp hfin habs
    have hr := abs_le.1 (abs_roundHalfAway_mul_le (k := 32767) (q := 32) habs)
    have henc := encodeValue_fp1632 (fixedOf_of_fits (n := 48) hfin (by omega) (by omega))
    exact ⟨_, (goesTo_of_encodeAs_ok (exec_encp hp) henc).1⟩

end Sys2Proof.Machine
end

section
/-! Narrowing (R114): the special patterns; and for a finite value the nearest integer `n` of the magnitude over one unit
`2^q` in the last place, which the pattern holds as `(q + 149) * 2^23 + n` below its sign. -/

namespace Sys2Proof.Machine

/-! ### The finite branch -/

/-- The exponent `q` of one unit in the last place of the narrowed `m * 2^x` (R114). -/
def narrowUnit (m : Nat) (x : Int) : Int := max ((Nat.log2 m : Int) + x) (-126) - 23

/-- The rounded magnitude `n` of `m * 2^x` in such units (R114). -/
def narrowCount (m : Nat) (x : Int) : Nat := (Frac.scaled m (x - narrowUnit m x)).rne

section
variable {m : Nat} {x : Int} {s : Bool}

/-- A power of two against `n` units of `2^q`. -/
theorem zpow_le_mul_zpow_iff {n j : ℕ} {k q : ℤ} (hk : k = q + j) : (2 : ℚ) ^ k ≤ n * (2 : ℚ) ^ q ↔ 2 ^ j ≤ n := by
  rw [hk, add_comm, zpow_add₀ two_ne_zero, zpow_natCast, mul_le_mul_iff_left₀ (by positivity)]
  norm_cast

theorem Frac.geOne_scaled_sub_iff {n : ℕ} {q k : ℤ} :
    (Frac.scaled n (q - k)).geOne = true ↔ (2 : ℚ) ^ k ≤ n * (2 : ℚ) ^ q := by
  rw [Frac.geOne_iff (Frac.scaled_den_pos _ _), Frac.scaled_value, zpow_sub₀ two_ne_zero, ← mul_div_assoc,
    one_le_div (by positivity)]

/-- The finite branch by its two numbers. -/
theorem narrowFinite_eq (s : Bool) (m : Nat) (x : Int) : narrowFinite s m x =
    if (2 : ℚ) ^ (128 : ℤ) ≤ narrowCount m x * (2 : ℚ) ^ narrowUnit m x then pack32 s 0xFF 0
    else if narrowCount m x = 0 then pack32 s 0 0
    else if narrowCount m x * (2 : ℚ) ^ narrowUnit m x < (2 : ℚ) ^ (-126 : ℤ) then pack32 s 0 (narrowCount m x)
    else if narrowCount m x = 2 ^ 24 then pack32 s (narrowUnit m x + 1 + 150).toNat 0
    else pack32 s (narrowUnit m x + 150).toNat (narrowCount m x - 2 ^ 23) := by
  simp only [← not_le, ← Frac.geOne_scaled_sub_iff, sub_neg_eq_add, Bool.not_eq_true, ← Bool.not_eq_true', narrowCount,
    narrowUnit]
  rfl

theorem sign32_narrowFinite (s : Bool) (m : Nat) (x : Int) : sign32 (narrowFinite s m x) = s := by
  rw [narrowFinite_eq]
  split_ifs <;> exact sign32_pack32 _ _ _

theorem narrowUnit_ge (m : Nat) (x : Int) : -149 ≤ narrowUnit m x := by
  rw [narrowUnit]; omega

/-- The magnitude between the powers of two of its leading bit. -/
theorem zpow_log2_le (hm : 0 < m) (x : Int) :
    (2 : ℚ) ^ ((Nat.log2 m : ℤ) + x) ≤ (m : ℚ) * (2 : ℚ) ^ x ∧
      (m : ℚ) * (2 : ℚ) ^ x < (2 : ℚ) ^ ((Nat.log2 m : ℤ) + x + 1) := by
  have hlo : (2 : ℚ) ^ Nat.log2 m ≤ m := by exact_mod_cast Nat.log2_self_le hm.ne'
  have hhi : (m : ℚ) < 2 ^ (Nat.log2 m + 1) := by exact_mod_cast Nat.lt_log2_self
  have hx : (0 : ℚ) < (2 : ℚ) ^ x := by positivity
  rw [show (Nat.log2 m : ℤ) + x + 1 = ((Nat.log2 m + 1 : ℕ) : ℤ) + x by push_cast; ring, zpow_add₀ two_ne_zero,
    zpow_add₀ two_ne_zero, zpow_natCast, zpow_natCast]
  exact ⟨mul_le_mul_of_nonneg_right hlo hx.le, mul_lt_mul_of_pos_right hhi hx⟩

/-- `n` is the integer nearest to the magnitude over `2^q`, even on a tie. -/
theorem narrowCount_spec (m : Nat) (x : Int) :
    |(m : ℚ) * (2 : ℚ) ^ x / (2 : ℚ) ^ narrowUnit m x - narrowCount m x| ≤ 1 / 2 ∧
      (|(m : ℚ) * (2 : ℚ) ^ x / (2 : ℚ) ^ narrowUnit m x - narrowCount m x| = 1 / 2 → narrowCount m x % 2 = 0) := by
  have h := Frac.rne_spec (Frac.scaled_den_pos m (x - narrowUnit m x))
  rwa [Frac.scaled_value, zpow_sub₀ two_ne_zero, ← mul_div_assoc] at h

/-- A natural number nearest to a rational is on the same side of every natural number. -/
theorem nearest_le {t : ℚ} {n k : ℕ} (h : |t - n| ≤ 1 / 2) (ht : t ≤ k) : n ≤ k := by
  have := (abs_le.1 h).1
  have hlt : ((n : ℕ) : ℚ) < (k + 1 : ℕ) := by push_cast; linarith
  have : n < k + 1 := by exact_mod_cast hlt
  omega

theorem le_nearest {t : ℚ} {n k : ℕ} (h : |t - n| ≤ 1 / 2) (ht : k ≤ t) : k ≤ n := by
  have := (abs_le.1 h).2
  have hlt : ((k : ℕ) : ℚ) < (n + 1 : ℕ) := by push_cast; linarith
  have : k < n + 1 := by exact_mod_cast hlt
  omega

theorem narrowCount_le (hm : 0 < m) : narrowCount m x ≤ 2 ^ 24 := by
  refine nearest_le (narrowCount_spec m x).1 ?_
  rw [div_le_iff₀ (by positivity), Nat.cast_pow, Nat.cast_ofNat, ← zpow_natCast, ← zpow_add₀ two_ne_zero]
  refine (zpow_log2_le hm x).2.le.trans (zpow_le_zpow_right₀ one_le_two ?_)
  rw [narrowUnit]
  push_cast
  omega

/-- Above the subnormals the magnitude is at least `2^23` units. -/
theorem le_narrowCount (hm : 0 < m) (hl : -126 ≤ (Nat.log2 m : ℤ) + x) : 2 ^ 23 ≤ narrowCount m x := by
  refine le_nearest (narrowCount_spec m x).1 ?_
  rw [le_div_iff₀ (by positivity), Nat.cast_pow, Nat.cast_ofNat, ← zpow_natCast, ← zpow_add₀ two_ne_zero]
  refine (zpow_le_zpow_right₀ one_le_two ?_).trans (zpow_log2_le hm x).1
  rw [narrowUnit]
  push_cast
  omega

/-- A magnitude that is a whole number of units is not rounded. -/
theorem narrowCount_of_eq {n : Nat} (h : (m : ℚ) * (2 : ℚ) ^ x = n * (2 : ℚ) ^ narrowUnit m x) : narrowCount m x = n := by
  have hspec := (narrowCount_spec m x).1
  rw [h, mul_div_cancel_right₀ _ (by positivity : (2 : ℚ) ^ narrowUnit m x ≠ 0)] at hspec
  exact (nearest_le hspec le_rfl).antisymm (le_nearest hspec le_rfl)

/-! ### The pattern that the two numbers make -/

theorem narrowUnit_of_count_lt (hm : 0 < m) (hn : narrowCount m x < 2 ^ 23) : narrowUnit m x = -149 := by
  by_contra hne
  have := le_narrowCount (m := m) (x := x) hm (by rw [narrowUnit] at hne; omega)
  omega

theorem le_104_of_not_overflow (hm : 0 < m)
    (h : narrowCount m x * (2 : ℚ) ^ narrowUnit m x < (2 : ℚ) ^ (128 : ℤ)) : narrowUnit m x ≤ 104 := by
  by_contra hgt
  have hn : 2 ^ 23 ≤ narrowCount m x := by
    by_contra hlt
    have := narrowUnit_of_count_lt hm (not_le.1 hlt)
    omega
  have hbig := (zpow_le_mul_zpow_iff (q := narrowUnit m x) rfl).2 hn
  have hmono : (2 : ℚ) ^ (128 : ℤ) ≤ (2 : ℚ) ^ (narrowUnit m x + (23 : ℕ)) :=
    zpow_le_zpow_right₀ one_le_two (by push_cast; omega)
  linarith

theorem overflow_at_104 (hm : 0 < m) (hq : narrowUnit m x ≤ 104)
    (h : (2 : ℚ) ^ (128 : ℤ) ≤ narrowCount m x * (2 : ℚ) ^ narrowUnit m x) :
    narrowUnit m x = 104 ∧ narrowCount m x = 2 ^ 24 := by
  obtain ⟨j, hj⟩ : ∃ j : ℕ, 128 = narrowUnit m x + j := ⟨(128 - narrowUnit m x).toNat, by omega⟩
  have hle := (zpow_le_mul_zpow_iff hj).1 h
  have hj24 : j ≤ 24 := (Nat.pow_le_pow_iff_right (by decide)).1 (hle.trans (narrowCount_le hm))
  obtain rfl : j = 24 := by omega
  exact ⟨by omega, (narrowCount_le hm).antisymm hle⟩

theorem lt_min_normal_iff (hm : 0 < m) :
    narrowCount m x * (2 : ℚ) ^ narrowUnit m x < (2 : ℚ) ^ (-126 : ℤ) ↔ narrowCount m x < 2 ^ 23 := by
  have hq := narrowUnit_ge m x
  constructor
  · intro h
    by_contra hge
    have hbig := (zpow_le_mul_zpow_iff (q := narrowUnit m x) rfl).2 (not_lt.1 hge)
    have hmono : (2 : ℚ) ^ (-126 : ℤ) ≤ (2 : ℚ) ^ (narrowUnit m x + (23 : ℕ)) :=
      zpow_le_zpow_right₀ one_le_two (by push_cast; omega)
    linarith
  · intro hn
    rw [← not_le, zpow_le_mul_zpow_iff (j := 23) (by rw [narrowUnit_of_count_lt hm hn]; rfl)]
    omega

/-- Below its sign the pattern is `(q + 149) * 2^23 + n`: zeros, subnormals and normal numbers in one row, in which the carry
of `n = 2^24` leads to the next exponent, and from the largest one to infinity. -/
theorem narrowFinite_toNat (hm : 0 < m) (hq : narrowUnit m x ≤ 104) : (narrowFinite s m x).toNat =
    s.toNat * 2 ^ 31 + (narrowUnit m x + 149).toNat * 2 ^ 23 + narrowCount m x := by
  have hge := narrowUnit_ge m x
  have hle := narrowCount_le (x := x) hm
  rw [narrowFinite_eq]
  split_ifs with hover hzero hsub hcarry <;> rw [pack32_toNat]
  · obtain ⟨h104, h24⟩ := overflow_at_104 hm hq hover
    rw [h104, h24]
    omega
  · rw [narrowUnit_of_count_lt hm (by omega), hzero]
    omega
  · have hn := (lt_min_normal_iff hm).1 hsub
    rw [narrowUnit_of_count_lt hm hn]
    omega
  · omega
  · have hn := mt (lt_min_normal_iff hm).2 hsub
    omega

/-! ### Its fields, branch by branch (R114) -/

theorem fields32_of_toNat {b : BitVec 32} {r : ℕ} (h : b.toNat = s.toNat * 2 ^ 31 + r) (hr : r < 2 ^ 31) :
    exp32 b = r / 2 ^ 23 ∧ frac32 b = r % 2 ^ 23 := by
  rw [exp32_eq, frac32_eq, h]
  constructor <;> omega

theorem narrowFinite_fields (hm : 0 < m) (hq : narrowUnit m x ≤ 104) :
    exp32 (narrowFinite s m x) = ((narrowUnit m x + 149).toNat * 2 ^ 23 + narrowCount m x) / 2 ^ 23 ∧
      frac32 (narrowFinite s m x) = ((narrowUnit m x + 149).toNat * 2 ^ 23 + narrowCount m x) % 2 ^ 23 := by
  have hle := narrowCount_le (x := x) hm
  refine fields32_of_toNat (s := s) ?_ (by omega)
  rw [narrowFinite_toNat hm hq, add_assoc]

theorem narrowFinite_overflow (h : (2 : ℚ) ^ (128 : ℤ) ≤ narrowCount m x * (2 : ℚ) ^ narrowUnit m x) :
    exp32 (narrowFinite s m x) = 0xFF ∧ frac32 (narrowFinite s m x) = 0 := by
  rw [narrowFinite_eq, if_pos h, exp32_pack32, frac32_pack32]
  exact ⟨rfl, rfl⟩

theorem narrowFinite_small (hm : 0 < m) (hn : narrowCount m x < 2 ^ 23) :
    exp32 (narrowFinite s m x) = 0 ∧ frac32 (narrowFinite s m x) = narrowCount m x := by
  have hq := narrowUnit_of_count_lt hm hn
  obtain ⟨hexp, hfrac⟩ := narrowFinite_fields (s := s) (x := x) hm (by omega)
  rw [hexp, hfrac, hq]
  constructor <;> omega

theorem narrowFinite_normal (hm : 0 < m) (hn : 2 ^ 23 ≤ narrowCount m x)
    (h : narrowCount m x * (2 : ℚ) ^ narrowUnit m x < (2 : ℚ) ^ (128 : ℤ)) :
    if narrowCount m x = 2 ^ 24
    then (exp32 (narrowFinite s m x) : ℤ) = narrowUnit m x + 1 + 150 ∧ frac32 (narrowFinite s m x) = 0
    else (exp32 (narrowFinite s m x) : ℤ) = narrowUnit m x + 150 ∧
      frac32 (narrowFinite s m x) = narrowCount m x - 2 ^ 23 := by
  have hge := narrowUnit_ge m x
  have hle := narrowCount_le (x := x) hm
  obtain ⟨hexp, hfrac⟩ := narrowFinite_fields (s := s) hm (le_104_of_not_overflow hm h)
  rw [hexp, hfrac]
  split_ifs with hcarry
  · rw [hcarry]
    constructor <;> omega
  · constructor <;> omega

end

/-! ### The special patterns, and which branch a value takes -/

section
variable {v : Double}

theorem narrow64_of_infinity (he : exp64 v = 0x7FF) (hf : frac64 v = 0) : narrow64 v = pack32 (sign64 v) 0xFF 0 := by
  simp [narrow64, he, hf]

theorem narrow64_of_zero (he : exp64 v = 0) (hf : frac64 v = 0) : narrow64 v = pack32 (sign64 v) 0 0 := by
  simp [narrow64, he, hf]

/-- The top 23 of the 52 fraction bits. -/
theorem bits_frac64 (v : Double) : bits (frac64 v) 51 29 = frac64 v / 2 ^ 29 := by
  have := frac64_lt v
  rw [bits]
  omega

theorem narrow64_of_nan (h : nan64 v) :
    narrow64 v = pack32 (sign64 v) 0xFF (if frac64 v / 2 ^ 29 = 0 then 0x400000 else frac64 v / 2 ^ 29) := by
  obtain ⟨he, hf⟩ := h
  simp only [narrow64, he, if_true, if_neg hf, bits_frac64]
  split <;> rfl

theorem narrow64_of_finite (hfin : finite64 v) (hne : significand64 v ≠ 0) :
    narrow64 v = narrowFinite (sign64 v) (significand64 v) (scale64 v) := by
  simp only [narrow64, if_neg hfin, if_neg (mt significand64_eq_zero_iff.2 hne)]

theorem sign32_narrow64 (v : Double) : sign32 (narrow64 v) = sign64 v := by
  by_cases he : exp64 v = 0x7FF
  · by_cases hf : frac64 v = 0
    · rw [narrow64_of_infinity he hf, sign32_pack32]
    · rw [narrow64_of_nan ⟨he, hf⟩, sign32_pack32]
  · by_cases hm : significand64 v = 0
    · obtain ⟨h0, hf⟩ := significand64_eq_zero_iff.1 hm
      rw [narrow64_of_zero h0 hf, sign32_pack32]
    · rw [narrow64_of_finite he hm, sign32_narrowFinite]

end

/-- Settles O27, with `l` the place of the magnitude's leading bit. -/
theorem narrowingRoundsToNearestEven : Obligations.NarrowingRoundsToNearestEven := by
  intro v
  refine ⟨sign32_narrow64 v, fun he hf => ?_, fun hnan => ?_, fun he hf => ?_, fun hfin hval => ?_⟩
  · rw [narrow64_of_infinity he hf, exp32_pack32, frac32_pack32]
    exact ⟨rfl, rfl⟩
  · have hlt := frac64_lt v
    rw [narrow64_of_nan hnan, exp32_pack32, frac32_pack32]
    exact ⟨rfl, Nat.mod_eq_of_lt (by split <;> omega)⟩
  · rw [narrow64_of_zero he hf, exp32_pack32, frac32_pack32]
    exact ⟨rfl, rfl⟩
  · have hne : significand64 v ≠ 0 := mt (fun h => val64_eq_zero_iff.2 (significand64_eq_zero_iff.1 h)) hval
    have hm : 0 < significand64 v := Nat.pos_of_ne_zero hne
    obtain ⟨hlo, hhi⟩ := zpow_log2_le hm (scale64 v)
    obtain ⟨hnear, htie⟩ := narrowCount_spec (significand64 v) (scale64 v)
    rw [abs_val64, narrow64_of_finite hfin hne]
    refine ⟨_, narrowUnit (significand64 v) (scale64 v), narrowCount (significand64 v) (scale64 v), hlo, hhi, rfl, hnear,
      htie, narrowFinite_overflow, fun hzero => ?_, fun hlt => ?_, fun hmin hmax => ?_⟩
    · simpa [hzero] using narrowFinite_small (s := sign64 v) (x := scale64 v) hm (by omega)
    · have hn := (lt_min_normal_iff hm).1 hlt
      exact ⟨narrowUnit_of_count_lt hm hn, hn, narrowFinite_small hm hn⟩
    · have hn := not_lt.1 (mt (lt_min_normal_iff hm).2 (not_lt.2 hmin))
      exact ⟨narrowCount_le hm, narrowFinite_normal hm hn hmax⟩

end Sys2Proof.Machine
end

section
/-! Narrowing of normal numbers as guard and sticky bits (R114's recipe), and narrowing after widening (R120). -/

namespace Sys2Proof.Machine

section
variable {v : Double}

theorem significand64_of_normal (h : exp64 v ≠ 0) : significand64 v = 2 ^ 52 + frac64 v := if_neg h

theorem scale64_of_normal (h : exp64 v ≠ 0) : scale64 v = (exp64 v : ℤ) - 1075 := if_neg h

theorem log2_significand64_of_normal (h : exp64 v ≠ 0) : Nat.log2 (significand64 v) = 52 := by
  have := frac64_lt v
  rw [significand64_of_normal h, Nat.log2_eq_iff (by omega)]
  omega

/-- The unit in the last place of a normal number's narrowing. -/
theorem narrowUnit_of_normal (h : exp64 v ≠ 0) :
    narrowUnit (significand64 v) (scale64 v) = max ((exp64 v : ℤ) - 1023) (-126) - 23 := by
  rw [narrowUnit, log2_significand64_of_normal h, scale64_of_normal h]
  omega

/-- From the least normal exponent of binary32 on, one unit is `2^29` units of binary64. -/
theorem narrowUnit_of_897_le (h : 897 ≤ exp64 v) : narrowUnit (significand64 v) (scale64 v) = (exp64 v : ℤ) - 1046 := by
  rw [narrowUnit_of_normal (by omega)]
  omega

end

/-- Dropping 29 bits, rounded to nearest even: up when the guard bit is set and a sticky bit or the last bit kept is. -/
theorem rne_scaled_neg_29 (m : Nat) : (Frac.scaled m (-29)).rne =
    m / 2 ^ 29 + if m / 2 ^ 28 % 2 = 1 ∧ (m % 2 ^ 28 ≠ 0 ∨ m / 2 ^ 29 % 2 = 1) then 1 else 0 := by
  have hscaled : Frac.scaled m (-29) = ⟨m, 2 ^ 29⟩ := by simp [Frac.scaled]
  rw [hscaled]
  simp only [Frac.rne]
  split_ifs <;> omega

/-- Settles O28: the guard, sticky and last bits of the significand are those of the fraction, and `t` is
`(q + 149) * 2^23` and the kept bits. -/
theorem narrowingBitRecipe : Obligations.NarrowingBitRecipe := by
  intro v hlo hhi t r st ht hr hst
  have hnormal : exp64 v ≠ 0 := by omega
  have hlt := frac64_lt v
  have hsig := significand64_of_normal hnormal
  have hunit := narrowUnit_of_897_le hlo
  have hcount : narrowCount (significand64 v) (scale64 v) =
      2 ^ 23 + frac64 v / 2 ^ 29 + if r = 1 ∧ (st ≠ 0 ∨ t % 2 = 1) then 1 else 0 := by
    rw [narrowCount, hunit, scale64_of_normal hnormal,
      show (exp64 v : ℤ) - 1075 - ((exp64 v : ℤ) - 1046) = -29 by ring, rne_scaled_neg_29, hsig]
    split_ifs <;> omega
  rw [narrow64_of_finite (by omega) (by omega), narrowFinite_toNat (by omega) (by omega), hcount, hunit]
  cases sign64 v <;> simp only [Bool.toNat_false, Bool.toNat_true, if_true, Bool.false_eq_true, if_false] <;>
    split_ifs <;> omega

/-! ### Narrowing a widened pattern gives it back (R120) -/

section
variable {b : BitVec 32}

/-- A magnitude that is a whole number `n` of units, in the pattern of the units and `n`. -/
theorem narrow64_toNat_of_exact {v : Double} {n : ℕ} {q : ℤ} (hfin : finite64 v) (hne : significand64 v ≠ 0)
    (hq : narrowUnit (significand64 v) (scale64 v) = q) (hle : q ≤ 104) (hval : |val64 v| = n * (2 : ℚ) ^ q) :
    (narrow64 v).toNat = (sign64 v).toNat * 2 ^ 31 + (q + 149).toNat * 2 ^ 23 + n := by
  subst hq
  rw [narrow64_of_finite hfin hne, narrowFinite_toNat (Nat.pos_of_ne_zero hne) hle,
    narrowCount_of_eq (by rw [← abs_val64, hval])]

theorem toNat_eq_fields32 (b : BitVec 32) : b.toNat = (sign32 b).toNat * 2 ^ 31 + exp32 b * 2 ^ 23 + frac32 b := by
  have hexp := exp32_lt b
  have hfrac := frac32_lt b
  conv_lhs => rw [← pack32_fields b, pack32_toNat]
  rw [Nat.mod_eq_of_lt hexp, Nat.mod_eq_of_lt hfrac]

theorem narrow64_widen32_of_special (he : exp32 b = 255) : narrow64 (widen32 b) = b := by
  obtain ⟨hexp, hfrac⟩ := widen32_special_fields he
  have hlt := frac32_lt b
  by_cases hf : frac32 b = 0
  · rw [narrow64_of_infinity hexp (by omega), sign64_widen32]
    conv_rhs => rw [← pack32_fields b, he, hf]
  · have htop : frac64 (widen32 b) / 2 ^ 29 = frac32 b := by omega
    rw [narrow64_of_nan ⟨hexp, by omega⟩, htop, if_neg hf, sign64_widen32]
    conv_rhs => rw [← pack32_fields b, he]

theorem narrow64_widen32_of_zero (he : exp32 b = 0) (hf : frac32 b = 0) : narrow64 (widen32 b) = b := by
  obtain ⟨hexp, hfrac⟩ := widen32_zero_fields he hf
  rw [narrow64_of_zero hexp hfrac, sign64_widen32]
  conv_rhs => rw [← pack32_fields b, he, hf]

theorem narrow64_widen32_of_subnormal (he : exp32 b = 0) (hf : frac32 b ≠ 0) : narrow64 (widen32 b) = b := by
  obtain ⟨hlo, hhi⟩ := bitLength_spec (Nat.pos_of_ne_zero hf)
  have hpos : 0 < bitLength (frac32 b) := Nat.succ_pos _
  obtain ⟨hexp, -⟩ := widen32_subnormal_fields he hpos hlo hhi
  obtain ⟨hfin, hval⟩ := val64_widen32_of_subnormal he hf
  have hlen := le_23_of_le_frac32 hlo
  have hnormal : exp64 (widen32 b) ≠ 0 := by omega
  have hunit : narrowUnit (significand64 (widen32 b)) (scale64 (widen32 b)) = -149 := by
    rw [narrowUnit_of_normal hnormal]
    omega
  have habs : |val64 (widen32 b)| = frac32 b * (2 : ℚ) ^ (-149 : ℤ) := by
    rw [hval, val32_of_subnormal he, abs_div, abs_mul, Nat.abs_cast, abs_of_pos (by positivity : (0 : ℚ) < 2 ^ 149),
      zpow_neg, div_eq_mul_inv]
    split <;> simp
  apply BitVec.eq_of_toNat_eq
  rw [narrow64_toNat_of_exact hfin (by rw [significand64_of_normal hnormal]; omega) hunit (by decide) habs,
    sign64_widen32, toNat_eq_fields32 b, he]
  rfl

theorem narrow64_widen32_of_normal (he : exp32 b ≠ 255) (h0 : exp32 b ≠ 0) : narrow64 (widen32 b) = b := by
  obtain ⟨hexp, hfrac⟩ := widen32_normal_fields he h0
  have hlt := exp32_lt b
  have hnormal : exp64 (widen32 b) ≠ 0 := by omega
  have hunit : narrowUnit (significand64 (widen32 b)) (scale64 (widen32 b)) = (exp32 b : ℤ) - 150 := by
    rw [narrowUnit_of_897_le (by omega), hexp]
    omega
  have habs : |val64 (widen32 b)| = (2 ^ 23 + frac32 b : ℕ) * (2 : ℚ) ^ ((exp32 b : ℤ) - 150) := by
    rw [abs_val64, significand64_of_normal hnormal, scale64_of_normal hnormal, hexp, hfrac,
      show (exp32 b : ℤ) - 150 = ((exp32 b + 896 : ℕ) : ℤ) - 1075 + (29 : ℕ) by push_cast; ring,
      zpow_add₀ two_ne_zero _ ((29 : ℕ) : ℤ), zpow_natCast]
    push_cast
    ring
  apply BitVec.eq_of_toNat_eq
  rw [narrow64_toNat_of_exact (widen32_exact he).1 (by rw [significand64_of_normal hnormal]; omega) hunit (by omega) habs,
    sign64_widen32, toNat_eq_fields32 b]
  omega

/-- R120 for Float32: every pattern survives widening and narrowing, NaNs and signed zeros included. -/
theorem narrow64_widen32 (b : BitVec 32) : narrow64 (widen32 b) = b := by
  by_cases he : exp32 b = 255
  · exact narrow64_widen32_of_special he
  by_cases h0 : exp32 b = 0
  · by_cases hf : frac32 b = 0
    · exact narrow64_widen32_of_zero h0 hf
    · exact narrow64_widen32_of_subnormal h0 hf
  · exact narrow64_widen32_of_normal he h0

end
end Sys2Proof.Machine
end

section
/-! The codec's contract (R120, R122): what the two directions of a format do to each other. -/

namespace Sys2Proof.Machine

/-! ### Decode, then encode -/

/-- A fixed-point integer comes back from its binary64 value. -/
theorem fixedOf_f64Exact_sint {n q u : Nat} (hn : 0 < n) (hn53 : n ≤ 53) (hq : q ≤ 1022) (hu : u < 2 ^ n) :
    fixedOf (f64Exact (sint n u) q) q n = some (sint n u) := by
  obtain ⟨hfin, hval, -⟩ := f64Exact_sint hn hn53 hq hu
  obtain ⟨hlo, hhi⟩ := sint_range hn hu
  have hround : roundHalfAway (val64 (f64Exact (sint n u) q) * 2 ^ q) = sint n u := by
    rw [hval, div_mul_cancel₀ _ (by positivity), roundHalfAway_intCast]
  have hfits := fixedOf_of_fits (q := q) (n := n) hfin (by rw [hround]; exact hlo) (by rw [hround]; omega)
  rwa [hround] at hfits

theorem bytesBe_be_of_length {b : Bytes} {n : Nat} (h : b.length = n) : bytesBe n (be b) = b := h ▸ bytesBe_be b

/-- The bytes of a 48-bit number, low part first, are the wire bytes it was reassembled from (R109, R116). -/
theorem bytesBe_reassembled {a c : Bytes} (ha : a.length = 4) (hc : c.length = 2) :
    bytesBe 4 (bits (be (c ++ a)) 31 0) ++ bytesBe 2 (bits (be (c ++ a)) 47 32) = a ++ c := by
  have hlow := be_lt_two_pow a
  have hhigh := be_lt_two_pow c
  have happend := be_append c a
  rw [ha] at hlow happend
  rw [hc] at hhigh
  have hfraction : bits (be (c ++ a)) 31 0 = be a := by
    rw [happend, bits]
    omega
  have hinteger : bits (be (c ++ a)) 47 32 = be c := by
    rw [happend, bits]
    omega
  rw [hfraction, hinteger, bytesBe_be_of_length ha, bytesBe_be_of_length hc]

/-- R120: the encode of a format inverts its decode. -/
theorem encodeValue_decodeValue {p : Precision} {b : Bytes} (h : b.length = p.width) :
    encodeValue p (decodeValue p b) = some b := by
  cases p with
  | float32 =>
    have hbytes := bytesBe_ofNat_be (w := 32) (b := b) (by rw [h]; rfl)
    rw [h] at hbytes
    simp only [decodeValue, encodeValue, narrow64_widen32]
    exact congrArg some hbytes
  | fp1220 =>
    have hlt : be b < 2 ^ 32 := by simpa [h, Precision.width] using be_lt_two_pow b
    rw [decodeValue_fp1220, encodeValue_fp1220 (fixedOf_f64Exact_sint (by decide) (by decide) (by decide) hlt),
      uint_sint hlt, bytesBe_be_of_length (show b.length = 4 from h)]
  | fp1632 =>
    have hlen : b.length = 6 := h
    have hlt : be (b.drop 4 ++ b.take 4) < 2 ^ 48 := by simpa [hlen] using be_lt_two_pow (b.drop 4 ++ b.take 4)
    rw [decodeValue_fp1632, encodeValue_fp1632 (fixedOf_f64Exact_sint (by decide) (by decide) (by decide) hlt),
      uint_sint hlt, bytesBe_reassembled (by simp [hlen]) (by simp [hlen]), List.take_append_drop]
  | float64 =>
    have hbytes := bytesBe_ofNat_be (w := 64) (b := b) (by rw [h]; rfl)
    rw [h] at hbytes
    exact congrArg some hbytes

/-- Settles O33: the decode leaves the wire operand alone, and the encode writes the bytes it was decoded from. -/
theorem encodeOfDecodeReproducesWire : Obligations.EncodeOfDecodeReproducesWire := by
  intro p s hw
  have hlen : (s.wire p.width).length = p.width := by rw [wire_length, Nat.min_eq_left p.width_le]
  refine ⟨_, _, (exec_decodeCommand p s).trans (decodeAs_of_width hw), State.withCode_code _ _,
    (exec_encodeCommand p _).trans (encodeAs_of_some (encodeValue_decodeValue hlen)), State.withCode_code _ _, ?_,
    fun i hi hlt => ?_⟩
  · rw [State.withCode_wn, State.loadWire_wn, hlen, ← hw, BitVec.ofNat_toNat, BitVec.setWidth_eq]
  · simp only [State.withCode_w, State.loadWire_w]
    rw [wireOf_getElem _ i hi, byteAt_eq_getElem (hlen.symm ▸ hlt)]
    simp [State.wire]

/-! ### Encode, then decode -/

section
variable {p : Precision} {s t : State}

/-- An encode that ends `OK` has written the bytes of the value, and left `V`. -/
theorem encodeCommand_ok (h : exec p.encodeCommand s = .next t) (hok : t.code = Status.ok.byte) :
    ∃ b, encodeValue p s.v = some b ∧ t = (s.loadWire b).withCode .ok := by
  rw [exec_encodeCommand] at h
  rcases encodeAs_cases p s with ⟨b, hb, hrun⟩ | ⟨-, hrun⟩ <;> rw [hrun] at h
  · exact ⟨b, hb, done_eq_next.1 h⟩
  · rw [fail_eq_next.1 h, State.withCode_code, Status.byte_inj] at hok
    cases hok

/-- A decode of the bytes an encode wrote ends `OK` with their value. -/
theorem decodeCommand_of_loadWire {b : Bytes} (hb : b.length = p.width) {u : State}
    (h : exec p.decodeCommand ((s.loadWire b).withCode .ok) = .next u) :
    u.code = Status.ok.byte ∧ u.v = decodeValue p b := by
  have hle := p.width_le
  have hwn : ((s.loadWire b).withCode .ok).wn.toNat = p.width := by
    rw [State.withCode_wn, State.loadWire_wn, BitVec.toNat_ofNat]
    omega
  have hwire : ((s.loadWire b).withCode .ok).wire p.width = b := hb ▸ wire_loadWire s b (by omega)
  rw [exec_decodeCommand, decodeAs_of_width hwn, done_eq_next, hwire] at h
  subst h
  exact ⟨State.withCode_code _ _, rfl⟩

end

/-- A fixed-point value comes back as the integer it was rounded to. -/
theorem decodeValue_of_fixed {p : Precision} {q : ℕ} {v : Double} {b : Bytes}
    (hp : (p = .fp1220 ∧ q = 20) ∨ (p = .fp1632 ∧ q = 32)) (h : encodeValue p v = some b) :
    decodeValue p b = f64Exact (roundHalfAway (val64 v * 2 ^ q)) q ∧
      (roundHalfAway (val64 v * 2 ^ q)).natAbs < 2 ^ 53 := by
  rcases hp with ⟨rfl, rfl⟩ | ⟨rfl, rfl⟩
  · obtain ⟨r, hr, rfl⟩ := Option.map_eq_some_iff.1 h
    obtain ⟨-, rfl, hlo, hhi⟩ := fixedOf_eq_some hr
    rw [decodeValue_fp1220, be_bytesBe_uint32, sint_uint (by decide) hlo hhi]
    exact ⟨rfl, by omega⟩
  · obtain ⟨r, hr, rfl⟩ := Option.map_eq_some_iff.1 h
    obtain ⟨-, rfl, hlo, hhi⟩ := fixedOf_eq_some hr
    rw [decodeValue_fp1632, List.drop_left' (bytesBe_length 4 _), List.take_left' (bytesBe_length 4 _), be_append,
      bytesBe_length, show (256 : ℕ) ^ 4 = 2 ^ 32 by norm_num, be_bytesBe_parts (uint_lt 48 _),
      sint_uint (by decide) hlo hhi]
    exact ⟨rfl, by omega⟩

/-! ### Which pattern a value has -/

theorem toNat_eq_scale_significand (v : Double) :
    v.toNat = (sign64 v).toNat * 2 ^ 63 + (scale64 v + 1074).toNat * 2 ^ 52 + significand64 v := by
  have hexp := exp64_lt v
  have hfrac := frac64_lt v
  conv_lhs => rw [← pack64_fields v, pack64_toNat]
  rw [scale64, significand64]
  split_ifs with h
  · rw [h]
    omega
  · omega

/-- A significand below its top bit has the least scale. -/
theorem scale64_of_significand_lt {v : Double} (h : significand64 v < 2 ^ 52) : scale64 v = -1074 := by
  rw [significand64] at h
  split_ifs at h with he
  · exact if_pos he
  · omega

theorem scale64_ge (v : Double) : -1074 ≤ scale64 v := by
  rw [scale64]
  split_ifs <;> omega

/-- Of two equal magnitudes neither has the smaller scale: the other's significand would need a bit more than there is. -/
theorem scale64_le_of_abs_eq {v u : Double} (h : |val64 v| = |val64 u|) : scale64 u ≤ scale64 v := by
  by_contra hlt
  have htop : 2 ^ 52 ≤ significand64 u := by
    by_contra hsmall
    have := scale64_of_significand_lt (not_le.1 hsmall)
    have := scale64_ge v
    omega
  obtain ⟨j, hj⟩ : ∃ j : ℕ, scale64 u = scale64 v + 1 + j := ⟨(scale64 u - scale64 v - 1).toNat, by omega⟩
  rw [abs_val64, abs_val64, hj, zpow_add₀ two_ne_zero, zpow_add₀ two_ne_zero, zpow_one, zpow_natCast] at h
  have hscale : (0 : ℚ) < (2 : ℚ) ^ scale64 v := by positivity
  have heq : (significand64 v : ℚ) = (significand64 u * 2 * 2 ^ j : ℕ) := by
    push_cast
    apply mul_right_cancel₀ hscale.ne'
    linarith
  have hnat : significand64 v = significand64 u * 2 * 2 ^ j := by exact_mod_cast heq
  have hpow : 1 ≤ 2 ^ j := Nat.one_le_two_pow
  have := significand64_lt v
  nlinarith

theorem sign64_eq_of_ne_zero {v : Double} (hne : val64 v ≠ 0) : sign64 v = decide (val64 v < 0) := by
  have hpos : 0 < |val64 v| := abs_pos.2 hne
  rw [abs_val64] at hpos
  rw [val64_eq]
  cases sign64 v
  · simpa using hpos.le
  · simpa using hpos

/-- A value other than zero has one pattern. -/
theorem eq_of_val64_eq {v u : Double} (hne : val64 v ≠ 0) (h : val64 v = val64 u) : v = u := by
  have habs : |val64 v| = |val64 u| := congrArg abs h
  have hscale : scale64 v = scale64 u := (scale64_le_of_abs_eq habs.symm).antisymm (scale64_le_of_abs_eq habs)
  have hsig : significand64 v = significand64 u := by
    rw [abs_val64, abs_val64, hscale] at habs
    exact_mod_cast mul_right_cancel₀ (by positivity : (2 : ℚ) ^ scale64 u ≠ 0) habs
  have hsign : sign64 v = sign64 u := by
    rw [sign64_eq_of_ne_zero hne, sign64_eq_of_ne_zero (h ▸ hne), h]
  apply BitVec.eq_of_toNat_eq
  rw [toNat_eq_scale_significand v, toNat_eq_scale_significand u, hsign, hscale, hsig]

/-- Zero has two patterns. -/
theorem eq_zero_or_of_val64_eq_zero {v : Double} (h : val64 v = 0) : v = 0 ∨ v = 0x8000000000000000 := by
  obtain ⟨he, hf⟩ := val64_eq_zero_iff.1 h
  rw [← pack64_fields v, he, hf]
  cases sign64 v
  · exact .inl rfl
  · exact .inr rfl

/-! ### What the fixed-point rounding loses (R122) -/

section
variable {v : Double} {q : ℕ}

theorem val64_f64Exact_round (habs : (roundHalfAway (val64 v * 2 ^ q)).natAbs < 2 ^ 53) (hq : q ≤ 1022) :
    val64 (f64Exact (roundHalfAway (val64 v * 2 ^ q)) q) = roundHalfAway (val64 v * 2 ^ q) / 2 ^ q :=
  (f64Exact_spec habs hq).2.1

theorem abs_round_div_sub_le (x : ℚ) (q : ℕ) : |(roundHalfAway (x * 2 ^ q) : ℚ) / 2 ^ q - x| ≤ 1 / 2 ^ (q + 1) := by
  have hpos : (0 : ℚ) < 2 ^ q := by positivity
  have hsub : (roundHalfAway (x * 2 ^ q) : ℚ) / 2 ^ q - x = (roundHalfAway (x * 2 ^ q) - x * 2 ^ q) / 2 ^ q := by
    field_simp
  rw [hsub, abs_div, abs_of_pos hpos, pow_succ', ← div_div]
  exact div_le_div_of_nonneg_right (abs_roundHalfAway_sub_le _) hpos.le

/-- A pattern comes back where its value was a multiple of the step, but for `-0.0`, which comes back as `+0.0`. -/
theorem f64Exact_round_eq_iff (habs : (roundHalfAway (val64 v * 2 ^ q)).natAbs < 2 ^ 53) (hq : q ≤ 1022) :
    f64Exact (roundHalfAway (val64 v * 2 ^ q)) q = v ↔
      (∃ k : ℤ, val64 v * 2 ^ q = k) ∧ v ≠ 0x8000000000000000 := by
  have hval := val64_f64Exact_round habs hq
  have hzero (h : val64 v = 0) : f64Exact (roundHalfAway (val64 v * 2 ^ q)) q = 0 := by
    have hround : roundHalfAway (val64 v * 2 ^ q) = 0 := by
      simpa [h] using roundHalfAway_intCast 0
    exact (f64Exact_spec habs hq).2.2.2 hround
  constructor
  · intro heq
    refine ⟨⟨roundHalfAway (val64 v * 2 ^ q), ?_⟩, ?_⟩
    · rw [heq] at hval
      exact (eq_div_iff (by positivity)).1 hval
    · intro hneg
      have h0 : val64 v = 0 := val64_eq_zero_iff.2 (by rw [hneg]; decide)
      rw [hzero h0, hneg] at heq
      exact absurd heq (by decide)
  · rintro ⟨⟨k, hk⟩, hneg⟩
    by_cases h0 : val64 v = 0
    · rw [hzero h0, (eq_zero_or_of_val64_eq_zero h0).resolve_right hneg]
    · refine (eq_of_val64_eq h0 ?_).symm
      rw [hval, hk, roundHalfAway_intCast, ← hk, mul_div_cancel_right₀ _ (by positivity)]

end

/-- Settles O34: what comes back is the exact value of the rounded integer. -/
theorem decodeOfEncodeLosesOnlyRounding : Obligations.DecodeOfEncodeLosesOnlyRounding := by
  constructor
  · intro s t u henc hdec
    obtain rfl := done_eq_next.1 henc
    obtain ⟨-, hv⟩ := decodeCommand_of_loadWire (p := .float64) (bytesBe_length 8 s.v.toNat) hdec
    exact hv.trans (double_of_bytes s.v)
  · intro p q s t u hp henc hok hdec
    have hq : q ≤ 1022 := by omega
    obtain ⟨b, hb, rfl⟩ := encodeCommand_ok henc hok
    obtain ⟨hcode, hv⟩ := decodeCommand_of_loadWire (encodeValue_length hb) hdec
    obtain ⟨hround, habs⟩ := decodeValue_of_fixed hp hb
    have hval := val64_f64Exact_round habs hq
    rw [hv, hround, hval]
    exact ⟨hcode, rfl, abs_round_div_sub_le _ q, f64Exact_round_eq_iff habs hq⟩

end Sys2Proof.Machine
end

section
/-! The data-identifier codec (R130 to R138): what a mask keeps of a register, how DIDDEC, DIDENC and DSIZE end, and the
size lookup. -/

namespace Sys2Proof.Machine

/-! ### Masked registers -/

section
variable {w : ℕ} {x m n : BitVec w}

/-- A register with no bit outside a mask is what the mask keeps of it. -/
theorem and_eq_self_of_and_not_eq_zero (h : x &&& ~~~m = 0) : x &&& m = x := by
  calc x &&& m = x &&& m ||| x &&& ~~~m := by rw [h]; exact BitVec.or_zero.symm
    _ = x &&& (m ||| ~~~m) := BitVec.and_or_distrib_left.symm
    _ = x := by simp

theorem and_and_not_self (x m : BitVec w) : x &&& m &&& ~~~m = 0 := by
  rw [BitVec.and_assoc, BitVec.and_not_self]
  exact BitVec.and_zero

/-- A register inside one mask has no bit in a disjoint one. -/
theorem and_eq_zero_of_disjoint (h : x &&& ~~~m = 0) (hmn : m &&& n = 0) : x &&& n = 0 := by
  rw [← and_eq_self_of_and_not_eq_zero h, BitVec.and_assoc, hmn]
  exact BitVec.and_zero

end

theorem and_precMask_le (x : Half) : (x &&& Config.precMask).toNat ≤ 3 := by
  rw [BitVec.toNat_and]
  exact Nat.and_le_right

theorem exists_precision_of_le {x : Half} (h : x.toNat ≤ 3) : ∃ p : Precision, x.toNat = p.code.toNat := by
  cases hp : precisionOf x with
  | none => exact absurd (precisionOf_eq_none_iff.1 hp) (Nat.not_lt.2 h)
  | some p => exact ⟨p, precisionOf_eq_some_iff.1 hp⟩

theorem subfieldsInRange_iff {k c p : Half} : subfieldsInRange k c p = true ↔
    k &&& ~~~Config.kindMask = 0 ∧ c &&& ~~~Config.coordMask = 0 ∧ p &&& ~~~Config.precMask = 0 := by
  simp only [subfieldsInRange, Bool.and_eq_true, beq_iff_eq, and_assoc]

/-- The three masks of R75 are disjoint, so each takes its own subfield out of the joined identifier. -/
theorem masks_split_joined {k c p : Half} (h : subfieldsInRange k c p = true) :
    (k ||| c ||| p) &&& Config.kindMask = k ∧ (k ||| c ||| p) &&& Config.coordMask = c ∧
      (k ||| c ||| p) &&& Config.precMask = p := by
  obtain ⟨hk, hc, hp⟩ := subfieldsInRange_iff.1 h
  simp only [BitVec.and_or_distrib_right]
  refine ⟨?kind, ?coord, ?prec⟩
  case kind =>
    rw [and_eq_self_of_and_not_eq_zero hk, and_eq_zero_of_disjoint (n := Config.kindMask) hc rfl,
      and_eq_zero_of_disjoint (n := Config.kindMask) hp rfl]
    simp
  case coord =>
    rw [and_eq_self_of_and_not_eq_zero hc, and_eq_zero_of_disjoint (n := Config.coordMask) hk rfl,
      and_eq_zero_of_disjoint (n := Config.coordMask) hp rfl]
    simp
  case prec =>
    rw [and_eq_self_of_and_not_eq_zero hp, and_eq_zero_of_disjoint (n := Config.precMask) hk rfl,
      and_eq_zero_of_disjoint (n := Config.precMask) hc rfl]
    simp

/-- What the three masks take out of an identifier joins to all of it but bits 10:8 (R131). -/
theorem masked_subfields_join (x : Half) :
    x &&& Config.kindMask ||| x &&& Config.coordMask ||| x &&& Config.precMask = x &&& 0xF8FF := by
  rw [← BitVec.and_or_distrib_left, ← BitVec.and_or_distrib_left]
  rfl

theorem masked_subfieldsInRange (x : Half) :
    subfieldsInRange (x &&& Config.kindMask) (x &&& Config.coordMask) (x &&& Config.precMask) = true :=
  subfieldsInRange_iff.2 ⟨and_and_not_self _ _, and_and_not_self _ _, and_and_not_self _ _⟩

/-! ### How the commands end -/

section
variable {s t : State}

theorem exec_diddec_eq_next (h : exec .diddec s = .next t) :
    t = { s with kind := s.id &&& Config.kindMask, coord := s.id &&& Config.coordMask,
                 prec := s.id &&& Config.precMask }.withCode .ok :=
  done_eq_next.1 h

theorem exec_didenc_of_inRange (h : subfieldsInRange s.kind s.coord s.prec = true) :
    exec .didenc s = done .ok { s with id := s.kind ||| s.coord ||| s.prec } := if_pos h

theorem exec_didenc_of_not_inRange (h : ¬ subfieldsInRange s.kind s.coord s.prec = true) :
    exec .didenc s = fail .eOperand s := if_neg h

/-- A DIDENC that ended `OK` found the three subfields in range. -/
theorem exec_didenc_ok (h : exec .didenc s = .next t) (hok : t.code = Status.ok.byte) :
    subfieldsInRange s.kind s.coord s.prec = true ∧ t = { s with id := s.kind ||| s.coord ||| s.prec }.withCode .ok := by
  by_cases hr : subfieldsInRange s.kind s.coord s.prec = true
  · exact ⟨hr, done_eq_next.1 (exec_didenc_of_inRange hr ▸ h)⟩
  · obtain rfl := fail_eq_next.1 (exec_didenc_of_not_inRange hr ▸ h)
    simp at hok

theorem exec_dsize {p : Precision} (hp : s.prec.toNat = p.code.toNat) :
    exec .dsize s = done .ok { s with sz := BitVec.ofNat 16 (dataSize Config.kindTab s.kind p) } := by
  have hrun : execDsize s = done .ok { s with sz := BitVec.ofNat 16 (dataSize Config.kindTab s.kind p) } := by
    simp only [execDsize, precisionOf_eq_some_iff.2 hp]
  exact hrun

theorem exec_dsize_of_gt (hp : 3 < s.prec.toNat) : exec .dsize s = fail .eOperand s := by
  have hrun : execDsize s = fail .eOperand s := by simp only [execDsize, precisionOf_eq_none_iff.2 hp]
  exact hrun

theorem code_of_done {c : Status} (h : done c s = .next t) : t.code = c.byte := by
  rw [done_eq_next.1 h, State.withCode_code]

theorem decodeAs_code_ne_eOperand {p : Precision} (h : decodeAs p s = .next t) : t.code ≠ Status.eOperand.byte := by
  rcases decodeAs_cases p s with ⟨-, e⟩ | ⟨-, e⟩ <;> rw [e] at h <;> simp [code_of_done h]

theorem encodeAs_code_ne_eOperand {p : Precision} (h : encodeAs p s = .next t) : t.code ≠ Status.eOperand.byte := by
  rcases encodeAs_cases p s with ⟨_, -, e⟩ | ⟨-, e⟩ <;> rw [e] at h <;> simp [code_of_done h]

end

/-! ### The size lookup (R135 to R137) -/

section
variable {tab : KindTable} {kind : Half}

theorem dataSize_of_absent (p : Precision) (h : tab.lookup kind = none) : dataSize tab kind p = 0 := by
  simp only [dataSize, h]

theorem dataSize_of_mult (p : Precision) {m : Nat} (h : tab.lookup kind = some (.mult m)) :
    dataSize tab kind p = m * p.width := by simp only [dataSize, h]

theorem dataSize_of_fixed (p : Precision) {n : Nat} (h : tab.lookup kind = some (.fixed n)) :
    dataSize tab kind p = n := by simp only [dataSize, h]

theorem classLegal_mult_iff {m : Nat} : Config.classLegal (.mult m) = true ↔ 1 ≤ m ∧ m ≤ 8191 := by
  simp [Config.classLegal]

theorem classLegal_fixed_iff {n : Nat} : Config.classLegal (.fixed n) = true ↔ 1 ≤ n ∧ n ≤ 65535 := by
  simp [Config.classLegal]

theorem classLegal_of_lookup {c : SizeClass} (hl : Config.tableLegal tab = true) (h : tab.lookup kind = some c) :
    Config.classLegal c = true := by
  simp only [Config.tableLegal, Bool.and_eq_true, List.all_eq_true] at hl
  obtain ⟨hrows, -⟩ := hl
  exact (hrows _ (mem_of_lookup h)).2

/-- R136's bounds make every size fit `SZ`: at most 8191 values of at most 8 bytes, or 65535 bytes. -/
theorem dataSize_lt (hl : Config.tableLegal tab = true) (kind : Half) (p : Precision) :
    dataSize tab kind p < 65536 := by
  match hrow : tab.lookup kind with
  | none => rw [dataSize_of_absent p hrow]; decide
  | some (.mult m) =>
    rw [dataSize_of_mult p hrow]
    obtain ⟨-, hm⟩ := classLegal_mult_iff.1 (classLegal_of_lookup hl hrow)
    calc m * p.width ≤ 8191 * 8 := Nat.mul_le_mul hm p.width_le
      _ < 65536 := by decide
  | some (.fixed n) =>
    rw [dataSize_of_fixed p hrow]
    obtain ⟨-, hn⟩ := classLegal_fixed_iff.1 (classLegal_of_lookup hl hrow)
    omega

/-- `KINDTAB` has no key with a bit outside the mask of the kinds. -/
theorem kindTab_lookup_outside (h : kind &&& ~~~Config.kindMask ≠ 0) : Config.kindTab.lookup kind = none := by
  cases hrow : Config.kindTab.lookup kind with
  | none => rfl
  | some c => exact absurd (kindTab_row hrow).1 h

end

/-! ### The statements of R131 to R137 -/

/-- Settles O35: the masks of the statement are the configuration's. -/
theorem diddecMasksSubfields : Obligations.DiddecMasksSubfields :=
  ⟨rfl, fun _ => goesTo_of_done rfl⟩

/-- Settles O37: the range check is the conjunction of the three masks. -/
theorem didencJoinsSubfields : Obligations.DidencJoinsSubfields := by
  refine ⟨rfl, fun s => ⟨fun hk hc hp => ?inRange, fun hout => ?outOfRange⟩⟩
  case inRange => exact goesTo_of_done (exec_didenc_of_inRange (subfieldsInRange_iff.2 ⟨hk, hc, hp⟩))
  case outOfRange =>
    refine goesTo_of_fail (exec_didenc_of_not_inRange fun hr => ?_)
    obtain ⟨hk, hc, hp⟩ := subfieldsInRange_iff.1 hr
    rcases hout with h | h | h
    · exact h hk
    · exact h hc
    · exact h hp

/-- Settles O36: DIDDEC leaves three masked subfields, so DIDENC joins them and `PREC` selects a precision, after which
DSIZE ends `OK`, DECP as a decode and ENCP as an encode. -/
theorem subfieldsInRangeAfterDiddec : Obligations.SubfieldsInRangeAfterDiddec := by
  intro s t hdec
  obtain rfl := exec_diddec_eq_next hdec
  have hle := and_precMask_le s.id
  refine ⟨and_and_not_self _ _, and_and_not_self _ _, hle, ?_⟩
  intro i u hi hexec
  obtain ⟨p, hp⟩ := exists_precision_of_le hle
  rcases hi with rfl | rfl | rfl | rfl
  · rw [exec_didenc_of_inRange (masked_subfieldsInRange s.id)] at hexec
    simp [code_of_done hexec]
  · rw [exec_dsize hp] at hexec
    simp [code_of_done hexec]
  · exact decodeAs_code_ne_eOperand ((exec_decp hp).symm.trans hexec)
  · exact encodeAs_code_ne_eOperand ((exec_encp hp).symm.trans hexec)

/-- Settles O38: disjoint masks take the joined subfields apart again, and what they take out of an identifier is in
range and joins to its bits inside a mask. -/
theorem identifierRoundTrips : Obligations.IdentifierRoundTrips := by
  constructor
  · intro s t u henc hok hdec
    obtain ⟨hr, rfl⟩ := exec_didenc_ok henc hok
    obtain rfl := exec_diddec_eq_next hdec
    exact masks_split_joined hr
  · intro s t hdec
    obtain rfl := exec_diddec_eq_next hdec
    rw [← masked_subfields_join]
    exact goesTo_of_done (exec_didenc_of_inRange (masked_subfieldsInRange s.id))

/-- Settles O39: a legal table's sizes fit `SZ`, so `SZ` is the size, and `KINDTAB` is legal. -/
theorem dsizeLooksUpKind : Obligations.DsizeLooksUpKind := by
  refine ⟨rfl, fun tab kind p hl => ?table, kindTab_legal, fun s => ⟨fun hgt => ?fault, fun p hp => ?size⟩⟩
  case table =>
    exact ⟨dataSize_of_absent p, fun _ => dataSize_of_mult p, fun _ => dataSize_of_fixed p, dataSize_lt hl kind p⟩
  case fault => exact goesTo_of_fail (exec_dsize_of_gt hgt)
  case size =>
    have hsz : (BitVec.ofNat 16 (dataSize Config.kindTab s.kind p)).toNat = dataSize Config.kindTab s.kind p := by
      rw [BitVec.toNat_ofNat]
      exact Nat.mod_eq_of_lt (dataSize_lt kindTab_legal s.kind p)
    refine ⟨_, goesTo_of_done (exec_dsize hp), hsz, fun hquat => ?_, fun hout => ?_⟩
    · rw [hsz, hquat]
      exact dataSize_of_mult p kindTab_quaternion
    · rw [hsz]
      exact dataSize_of_absent p (kindTab_lookup_outside hout)

end Sys2Proof.Machine
end

section
/-! SPLIT (R152 to R157): which buffers make it wait and what it keeps of them, and which tokens it cuts. -/

namespace Sys2Proof.Machine

/-! ### Waiting and cutting -/

/-- SPLIT finds no complete token in `b` and keeps `kept` of it (R152). `exec_split_cases` ties it to `exec`. -/
inductive Waits : Bytes → Bytes → Prop
  /-- No marker: all but half a marker is dropped. -/
  | noMarker {b : Bytes} (hm : fromMarker b = none) : Waits b (halfMarker b)
  /-- A marker, but not the whole header or frame: the bytes from the marker on are kept. -/
  | incomplete {b kept : Bytes} (hm : fromMarker b = some kept) (hc : cutToken kept = none) : Waits b kept

/-- SPLIT finds `token` in `b`, with `rest` behind it (R152). `exec_split_cases` ties it to `exec`. -/
def Cuts (b token rest : Bytes) : Prop := ∃ kept, fromMarker b = some kept ∧ cutToken kept = some (token, rest)

section
variable {b kept token rest : Bytes}

/-- What a waiting SPLIT keeps makes the next one wait and keep all of it (R156 (b)). -/
theorem Waits.again (h : Waits b kept) : Waits kept kept := by
  cases h with
  | noMarker hm =>
    obtain ⟨hnone, hhalf⟩ := fromMarker_halfMarker b
    simpa only [hhalf] using Waits.noMarker hnone
  | incomplete hm hc =>
    obtain ⟨hmark, -⟩ := fromMarker_spec hm
    exact .incomplete (fromMarker_of_marker hmark) hc

/-- The three shapes of R156 (a). -/
theorem Waits.shape (h : Waits b kept) : kept = [] ∨ kept = [0xFA] ∨ ∃ rest, kept = 0xFA :: 0xFF :: rest := by
  cases h with
  | noMarker hm =>
    rcases halfMarker_cases b with ⟨-, hhalf, -⟩ | ⟨-, hhalf⟩
    · exact .inr (.inl hhalf)
    · exact .inl hhalf
  | incomplete hm hc => exact .inr (.inr (markerAt_zero_iff.1 (fromMarker_spec hm).1))

/-- A token begins with a marker and has the length that R154 allows. -/
theorem Cuts.token_shape (h : Cuts b token rest) :
    (∃ tail, token = 0xFA :: 0xFF :: tail) ∧ 5 ≤ token.length ∧ token.length ≤ 65542 := by
  obtain ⟨kept, hm, hc⟩ := h
  obtain ⟨hparts, hmin, hmax⟩ := cutToken_spec hc
  obtain ⟨⟨hfirst, hsecond⟩, -⟩ := fromMarker_spec hm
  rw [hparts, List.getElem?_append_left (by omega)] at hfirst hsecond
  exact ⟨markerAt_zero_iff.1 ⟨hfirst, hsecond⟩, hmin, hmax⟩

end

/-! ### The command -/

section
variable {s : State} {f : Byte} {kept token rest : Bytes}

theorem exec_split_of_gt (hf : 1 < f.toNat) : exec (.split f) s = fail .eOperand s := if_pos hf

theorem exec_split_of_waits (hf : f.toNat ≤ 1) (h : Waits s.rxb kept) :
    exec (.split f) s = done (moreStatus f) { s with rxb := kept } := by
  have hrun : execSplit f s = done (moreStatus f) { s with rxb := kept } := by
    rw [execSplit, if_neg (Nat.not_lt.2 hf)]
    cases h with
    | noMarker hm => simp only [hm]
    | incomplete hm hc => simp only [hm, hc]
  exact hrun

theorem exec_split_of_cuts (hf : f.toNat ≤ 1) (h : Cuts s.rxb token rest) :
    exec (.split f) s = done .ok ({ s with rxb := rest }.replaceFrame token) := by
  obtain ⟨kept, hm, hc⟩ := h
  have hrun : execSplit f s = done .ok ({ s with rxb := rest }.replaceFrame token) := by
    rw [execSplit, if_neg (Nat.not_lt.2 hf)]
    simp only [hm, hc]
  exact hrun

/-- A buffer makes SPLIT wait or holds a token for it. -/
theorem waits_or_cuts (b : Bytes) : (∃ kept, Waits b kept) ∨ ∃ token rest, Cuts b token rest := by
  cases hm : fromMarker b with
  | none => exact .inl ⟨_, .noMarker hm⟩
  | some kept =>
    cases hc : cutToken kept with
    | none => exact .inl ⟨_, .incomplete hm hc⟩
    | some parts => exact .inr ⟨parts.1, parts.2, kept, hm, hc⟩

/-- Everything SPLIT can do: fault, wait, or emit a token. -/
theorem exec_split_cases (f : Byte) (s : State) :
    exec (.split f) s = fail .eOperand s ∨
    (∃ kept, f.toNat ≤ 1 ∧ Waits s.rxb kept ∧ exec (.split f) s = done (moreStatus f) { s with rxb := kept }) ∨
    (∃ token rest, Cuts s.rxb token rest ∧
      exec (.split f) s = done .ok ({ s with rxb := rest }.replaceFrame token)) := by
  by_cases hf : f.toNat ≤ 1
  · rcases waits_or_cuts s.rxb with ⟨kept, hw⟩ | ⟨token, rest, hc⟩
    · exact .inr (.inl ⟨kept, hf, hw, exec_split_of_waits hf hw⟩)
    · exact .inr (.inr ⟨token, rest, hc, exec_split_of_cuts hf hc⟩)
  · exact .inl (exec_split_of_gt (Nat.lt_of_not_le hf))

theorem moreStatus_ne_ok (f : Byte) : moreStatus f ≠ .ok := by
  rcases moreStatus_cases f with h | h <;> simp [h]

theorem goesTo_of_waits (hf : f.toNat ≤ 1) (h : Waits s.rxb kept) :
    goesTo (.split f) s (moreStatus f) { s with rxb := kept } := goesTo_of_done (exec_split_of_waits hf h)

end

/-! ### The statements of R152 to R157 -/

/-- A header whose bytes are not all there says no length. -/
theorem not_headerSays_of_short {b : Bytes} (h : b.length < 4 ∨ (b[3]? = some 0xFF ∧ b.length < 6)) (hdr plen : Nat) :
    ¬ headerSays b hdr plen := by
  rw [headerSays_iff]
  rintro (⟨hlen, hne, -⟩ | ⟨hlen, -⟩) <;> rcases h with h | ⟨h3, h⟩
  · omega
  · exact hne (byteAt_of_getElem? h3)
  · omega
  · omega

/-- Settles O41: the search answers the buffer from its first marker on, and the cut answers what the header says. -/
theorem splitCutsFirstFrame : Obligations.SplitCutsFirstFrame := by
  refine fun s f => ⟨rfl, fun hf => goesTo_of_fail (exec_split_of_gt hf), fun hf hno => ?noMarker,
    fun hf i b hi hfirst hb => ?marker⟩
  case noMarker => exact goesTo_of_waits hf (.noMarker (fromMarker_eq_none_iff.2 hno))
  case marker =>
    have hm : fromMarker s.rxb = some b := fromMarker_eq_some_iff.2 ⟨i, hi, hfirst, hb⟩
    refine ⟨fun hshort => ?header, fun hdr plen hsays hlt => ?frame, fun hdr plen hsays hle => ?token⟩
    case header =>
      have hnone := cutToken_eq_none_iff.2 fun hdr plen hsays => absurd hsays (not_headerSays_of_short hshort hdr plen)
      exact goesTo_of_waits hf (.incomplete hm hnone)
    case frame =>
      have hnone : cutToken b = none := cutToken_eq_none_iff.2 fun hdr' plen' hsays' => by
        obtain ⟨rfl, rfl⟩ := headerSays_unique hsays hsays'
        exact hlt
      exact goesTo_of_waits hf (.incomplete hm hnone)
    case token =>
      have hcut := cutToken_eq_some_iff.2 ⟨hdr, plen, hsays, hle, rfl, rfl⟩
      exact ⟨_, exec_split_of_cuts hf ⟨b, hm, hcut⟩, ends_iff.2 rfl⟩

/-- Settles O42: what is kept while waiting is kept again, and a token is cut at a marker. -/
theorem waitingSplitIsIdempotent : Obligations.WaitingSplitIsIdempotent := by
  intro s t f hexec
  rcases exec_split_cases f s with h | ⟨kept, hf, hw, h⟩ | ⟨token, rest, hc, h⟩ <;> rw [h] at hexec
  · obtain rfl := fail_eq_next.1 hexec
    simp
  · obtain rfl := done_eq_next.1 hexec
    refine ⟨fun _ => ⟨hw.shape, ?_, rfl⟩, fun hok => absurd (by simpa using hok) (moreStatus_ne_ok f)⟩
    rw [exec_split_of_waits hf hw.again, done_eq_next]
    exact (State.withCode_withCode { s with rxb := kept } (moreStatus f) (moreStatus f)).symm
  · obtain rfl := done_eq_next.1 hexec
    obtain ⟨⟨tail, htail⟩, hmin, hmax⟩ := hc.token_shape
    exact ⟨by simp, fun _ => ⟨tail, htail, hmin, hmax⟩⟩

/-- Settles O43: the first marker of the queue is at offset 4, and the bytes behind the token hold none. -/
theorem tokenMayLeaveGarbage : Obligations.TokenMayLeaveGarbage := by
  intro s hs
  have hcuts : Cuts s.rxb [0xFA, 0xFF, 0x30, 0x00, 0xD1] [0xFA, 0x01, 0x44] :=
    ⟨[0xFA, 0xFF, 0x30, 0x00, 0xD1, 0xFA, 0x01, 0x44], by rw [hs]; rfl, rfl⟩
  have hwaits : Waits [0xFA, 0x01, 0x44] [] := .noMarker rfl
  exact ⟨_, exec_split_of_cuts (by decide) hcuts, ends_iff.2 rfl, goesTo_of_waits (f := 0) (by decide) hwaits⟩

/-- Settles O44: the flag is looked at for the code of a waiting SPLIT alone. -/
theorem endOfStreamChangesOnlyCode : Obligations.EndOfStreamChangesOnlyCode := by
  intro s t u ht hu
  rcases waits_or_cuts s.rxb with ⟨kept, hw⟩ | ⟨token, rest, hc⟩
  · rw [exec_split_of_waits (by decide) hw, done_eq_next] at ht hu
    subst ht hu
    refine ⟨fun hok => absurd (by simpa using hok) (moreStatus_ne_ok 0), fun _ => ⟨State.withCode_code _ _, ?_⟩⟩
    rw [endsWith_iff, State.withCode_withCode]
    rfl
  · rw [exec_split_of_cuts (by decide) hc, done_eq_next] at ht hu
    subst ht hu
    exact ⟨fun _ => rfl, fun hne => absurd (State.withCode_code _ _) hne⟩

end Sys2Proof.Machine
end

section
/-! VALIDATE check by check (R158 to R160), and what one changed byte does to a valid frame (R162). -/

namespace Sys2Proof.Machine

/-! ### The checks in their order -/

section
variable {f : Bytes} {hdr plen : Nat}

theorem byteAt_of_marker (h : markerAt f 0) : byteAt f 0 = Config.preamble ∧ byteAt f 1 = Config.busAddress :=
  ⟨byteAt_of_getElem? h.1, byteAt_of_getElem? h.2⟩

theorem checkFrame_of_lt_five (h : f.length < 5) : checkFrame f = .error .eShort := if_pos h

theorem checkFrame_of_preamble_ne (h5 : 5 ≤ f.length) (h0 : f[0]? ≠ some 0xFA) : checkFrame f = .error .ePreamble := by
  have hne : byteAt f 0 ≠ Config.preamble := fun h => h0 ((getElem?_of_byteAt (by omega)).trans (congrArg some h))
  rw [checkFrame, if_neg (Nat.not_lt.2 h5), if_pos hne]

theorem checkFrame_of_busAddress_ne (h5 : 5 ≤ f.length) (h0 : f[0]? = some 0xFA) (h1 : f[1]? ≠ some 0xFF) :
    checkFrame f = .error .eBusAddr := by
  have hne : byteAt f 1 ≠ Config.busAddress := fun h => h1 ((getElem?_of_byteAt (by omega)).trans (congrArg some h))
  rw [checkFrame, if_neg (Nat.not_lt.2 h5), if_neg (not_not.2 (byteAt_of_getElem? h0)), if_pos hne]

/-- Past the first three checks, of an extended header. -/
theorem checkFrame_of_extended (h5 : 5 ≤ f.length) (hm : markerAt f 0) (h3 : f[3]? = some 0xFF) :
    checkFrame f =
      if f.length < 7 then .error .eShort
      else if wordAt f 4 < Config.extMin ∨ Config.extMax < wordAt f 4 then .error .eExtLen
      else checkBody f 6 (wordAt f 4) := by
  obtain ⟨h0, h1⟩ := byteAt_of_marker hm
  rw [checkFrame, if_neg (Nat.not_lt.2 h5), if_neg (not_not.2 h0), if_neg (not_not.2 h1),
    if_pos (byteAt_of_getElem? h3)]

theorem checkFrame_of_lt_seven (h5 : 5 ≤ f.length) (hm : markerAt f 0) (h3 : f[3]? = some 0xFF) (h7 : f.length < 7) :
    checkFrame f = .error .eShort := by
  rw [checkFrame_of_extended h5 hm h3, if_pos h7]

/-- The bytes of an extended header. -/
theorem headerSays_six_iff : headerSays f 6 plen ↔ 6 ≤ f.length ∧ f[3]? = some 0xFF ∧ plen = wordAt f 4 := by
  rw [headerSays_iff]
  constructor
  · rintro (⟨-, -, h, -⟩ | ⟨hlen, h3, -, hplen⟩)
    · exact absurd h (by decide)
    · exact ⟨hlen, h3 ▸ getElem?_of_byteAt (by omega), hplen⟩
  · rintro ⟨hlen, h3, hplen⟩
    exact .inr ⟨hlen, byteAt_of_getElem? h3, rfl, hplen⟩

theorem checkFrame_of_extLen (hm : markerAt f 0) (hsays : headerSays f 6 plen) (h7 : 7 ≤ f.length)
    (hout : plen < 255 ∨ 2048 < plen) : checkFrame f = .error .eExtLen := by
  obtain ⟨-, h3, rfl⟩ := headerSays_six_iff.1 hsays
  rw [checkFrame_of_extended (by omega) hm h3, if_neg (Nat.not_lt.2 h7), if_pos hout]

/-- Past the checks of the header, the length and the checksum are left. -/
theorem checkFrame_of_header (h5 : 5 ≤ f.length) (hm : markerAt f 0) (hsays : headerSays f hdr plen)
    (hext : hdr = 6 → 7 ≤ f.length ∧ 255 ≤ plen ∧ plen ≤ 2048) : checkFrame f = checkBody f hdr plen := by
  obtain ⟨h0, h1⟩ := byteAt_of_marker hm
  rcases headerSays_iff.1 hsays with ⟨-, h3, rfl, rfl⟩ | ⟨-, -, rfl, -⟩
  · rw [checkFrame, if_neg (Nat.not_lt.2 h5), if_neg (not_not.2 h0), if_neg (not_not.2 h1), if_neg h3]
  · obtain ⟨-, h3, rfl⟩ := headerSays_six_iff.1 hsays
    obtain ⟨h7, hge, hle⟩ := hext rfl
    rw [checkFrame_of_extended h5 hm h3, if_neg (Nat.not_lt.2 h7),
      if_neg (not_or.2 ⟨Nat.not_lt.2 hge, Nat.not_lt.2 hle⟩)]

theorem checkBody_of_lt (h : f.length < hdr + plen + 1) : checkBody f hdr plen = .error .eShort := if_pos h

theorem checkBody_of_gt (h : hdr + plen + 1 < f.length) : checkBody f hdr plen = .error .eLength := by
  rw [checkBody, if_neg (by omega), if_pos h]

theorem checkBody_of_sum_ne (hlen : f.length = hdr + plen + 1) (hsum : sumBytes (f.drop 1) % 256 ≠ 0) :
    checkBody f hdr plen = .error .eChecksum := by
  rw [checkBody, if_neg (by omega), if_neg (by omega), if_pos hsum]

theorem checkBody_of_length_ne (h : f.length ≠ hdr + plen + 1) :
    ∃ c, (c = .eShort ∨ c = .eLength) ∧ checkBody f hdr plen = .error c := by
  rcases Nat.lt_or_gt_of_ne h with hlt | hgt
  · exact ⟨_, .inl rfl, checkBody_of_lt hlt⟩
  · exact ⟨_, .inr rfl, checkBody_of_gt hgt⟩

/-- A frame whose length is not what its header says fails before the checksum is looked at (R162). -/
theorem checkFrame_of_length_ne (h5 : 5 ≤ f.length) (hm : markerAt f 0)
    (hne : ∀ hdr plen, headerSays f hdr plen → (hdr = 6 → 255 ≤ plen) → f.length ≠ hdr + plen + 1) :
    ∃ c, (c = .eShort ∨ c = .eLength ∨ c = .eExtLen) ∧ checkFrame f = .error c := by
  have hbody {hdr plen : Nat} (hsays : headerSays f hdr plen)
      (hext : hdr = 6 → 7 ≤ f.length ∧ 255 ≤ plen ∧ plen ≤ 2048) :
      ∃ c, (c = .eShort ∨ c = .eLength ∨ c = .eExtLen) ∧ checkFrame f = .error c := by
    have hmin : hdr = 6 → 255 ≤ plen := fun h6 => by
      obtain ⟨-, hge, -⟩ := hext h6
      exact hge
    obtain ⟨c, hc, herr⟩ := checkBody_of_length_ne (hne hdr plen hsays hmin)
    exact ⟨c, hc.imp_right .inl, (checkFrame_of_header h5 hm hsays hext).trans herr⟩
  by_cases h3 : byteAt f 3 = 0xFF
  · have h3' : f[3]? = some 0xFF := h3 ▸ getElem?_of_byteAt (by omega)
    by_cases h7 : f.length < 7
    · exact ⟨_, .inl rfl, checkFrame_of_lt_seven h5 hm h3' h7⟩
    have hsays : headerSays f 6 (wordAt f 4) := headerSays_six_iff.2 ⟨by omega, h3', rfl⟩
    by_cases hout : wordAt f 4 < 255 ∨ 2048 < wordAt f 4
    · exact ⟨_, .inr (.inr rfl), checkFrame_of_extLen hm hsays (by omega) hout⟩
    · exact hbody hsays (by omega)
  · exact hbody (headerSays_iff.2 (.inl ⟨by omega, h3, rfl, rfl⟩)) (by omega)

end

/-! ### The command -/

section
variable {s : State} {c : Status} {hdr plen : Nat}

theorem goesTo_validate_of_error (h : checkFrame s.frm = .error c) : goesTo .validate s c s := by
  have hrun : execValidate s = fail c s := by simp only [execValidate, h]
  exact goesTo_of_fail hrun

theorem exec_validate_of_ok (h : checkFrame s.frm = .ok (hdr, plen)) :
    exec .validate s = .next ((s.acceptFrame (byteAt s.frm 2) hdr plen).withCode .ok) :=
  (exec_validate_ok_iff.2 ⟨hdr, plen, h, rfl⟩).1

/-- What the checks accept fits `POFF` and `PLEN`. -/
theorem accepted_toNat {f : Bytes} (h : checkFrame f = .ok (hdr, plen)) :
    (BitVec.ofNat 3 hdr).toNat = hdr ∧ (BitVec.ofNat 12 plen).toNat = plen := by
  obtain ⟨hhdr, hplen, -⟩ := checkFrame_bounds h
  rw [BitVec.toNat_ofNat, BitVec.toNat_ofNat]
  omega

end

/-- Settles O45: one equation per check, and the registers hold what the header says. -/
theorem validateChecksInOrder : Obligations.ValidateChecksInOrder := by
  refine ⟨rfl, fun s => ⟨fun hlt => ?minimum, fun h5 h0 => ?preamble, fun h5 h0 h1 => ?address, fun h5 hm =>
    ⟨fun h3 h7 => ?extShort, fun plen hsays h7 hout => ?extLength, fun hdr plen hsays hext => ?body⟩⟩⟩
  case minimum => exact goesTo_validate_of_error (checkFrame_of_lt_five hlt)
  case preamble => exact goesTo_validate_of_error (checkFrame_of_preamble_ne h5 h0)
  case address => exact goesTo_validate_of_error (checkFrame_of_busAddress_ne h5 h0 h1)
  case extShort => exact goesTo_validate_of_error (checkFrame_of_lt_seven h5 hm h3 h7)
  case extLength => exact goesTo_validate_of_error (checkFrame_of_extLen hm hsays h7 hout)
  case body =>
    have hbody := checkFrame_of_header h5 hm hsays hext
    refine ⟨fun hlt => ?short, fun hgt => ?long, fun hlen hsum => ?checksum, fun hlen hsum => ?accept⟩
    case short => exact goesTo_validate_of_error (hbody.trans (checkBody_of_lt hlt))
    case long => exact goesTo_validate_of_error (hbody.trans (checkBody_of_gt hgt))
    case checksum => exact goesTo_validate_of_error (hbody.trans (checkBody_of_sum_ne hlen hsum))
    case accept =>
      have hok := hbody.trans (checkBody_eq_ok_iff.2 ⟨hlen, hsum, rfl, rfl⟩)
      obtain ⟨hpoff, hpl⟩ := accepted_toNat hok
      have hmid : s.frm[2]? = some (byteAt s.frm 2) := getElem?_of_byteAt (Nat.lt_of_lt_of_le (by decide) h5)
      exact ⟨_, _, _, _, exec_validate_of_ok hok, hmid, hpoff, hpl, ends_iff.2 rfl⟩

/-! ### One changed byte (R162) -/

section
variable {f : Bytes} {k hdr plen : Nat} {b : Byte}

theorem markerAt_set (hk : 2 ≤ k) (h : markerAt f 0) : markerAt (f.set k b) 0 := by
  rw [markerAt, List.getElem?_set_ne (by omega), List.getElem?_set_ne (by omega)]
  exact h

/-- The header does not look at MID, the payload or the checksum. -/
theorem headerSays_set (hk : k = 2 ∨ hdr ≤ k) (h : headerSays f hdr plen) : headerSays (f.set k b) hdr plen := by
  rcases h with ⟨len, h3, hne, rfl, rfl⟩ | ⟨h3, hi, lo, h4, h5, rfl, rfl⟩
  · exact .inl ⟨len, by rwa [List.getElem?_set_ne (by omega)], hne, rfl, rfl⟩
  · exact .inr ⟨by rwa [List.getElem?_set_ne (by omega)], hi, lo, by rwa [List.getElem?_set_ne (by omega)],
      by rwa [List.getElem?_set_ne (by omega)], rfl, rfl⟩

/-- Two bytes that differ, differ modulo 256, so the checksum invariant does not survive the change of one (R73). -/
theorem sum_set_ne_zero (hk : 1 ≤ k) (hlt : k < f.length) (hb : f[k]? ≠ some b) (h : sumBytes (f.drop 1) % 256 = 0) :
    sumBytes ((f.set k b).drop 1) % 256 ≠ 0 := by
  obtain ⟨j, rfl⟩ : ∃ j, k = j + 1 := ⟨k - 1, by omega⟩
  cases f with
  | nil => simp at hlt
  | cons a t =>
    have hj : j < t.length := by simpa using hlt
    have hset := sumBytes_set hj b
    have hne : t[j].toNat ≠ b.toNat := fun heq => hb (by simp [hj, BitVec.eq_of_toNat_eq heq])
    have := t[j].isLt
    have := b.isLt
    simp only [List.set_cons_succ, List.drop_succ_cons, List.drop_zero] at h ⊢
    omega

/-- A frame that passed, with MID, a payload byte or the checksum byte changed, fails the last check. -/
theorem checkFrame_set_eChecksum (h : checkFrame f = .ok (hdr, plen)) (hk : k = 2 ∨ hdr ≤ k) (hlt : k < f.length)
    (hb : f[k]? ≠ some b) : checkFrame (f.set k b) = .error .eChecksum := by
  obtain ⟨h5, hm, hsays, hext, hlen, hsum⟩ := checkFrame_eq_ok_iff.1 h
  obtain ⟨hhdr, -, -⟩ := checkFrame_bounds h
  have hlen' : (f.set k b).length = hdr + plen + 1 := by rw [List.length_set, hlen]
  rw [checkFrame_of_header (by omega) (markerAt_set (by omega) hm) (headerSays_set hk hsays)
    fun h6 => ⟨by have := hext h6; omega, hext h6⟩]
  exact checkBody_of_sum_ne hlen' (sum_set_ne_zero (by omega) hlt hb hsum)

/-- Another length byte announces another length: a standard frame is at most 259 bytes, an extended one at least 262. -/
theorem headerSays_set_length_ne (h : headerSays f hdr plen) (hext : hdr = 6 → 255 ≤ plen) (hb : f[3]? ≠ some b)
    {hdr' plen' : Nat} (h' : headerSays (f.set 3 b) hdr' plen') (hext' : hdr' = 6 → 255 ≤ plen') :
    hdr' + plen' ≠ hdr + plen := by
  have h3 : (f.set 3 b)[3]? = some b := by
    rw [List.getElem?_set_self]
    rcases headerSays_bounds h with ⟨-, -, hlen⟩ | ⟨-, -, hlen⟩ <;> omega
  have hbounds := headerSays_bounds h
  have hbounds' := headerSays_bounds h'
  rcases h with ⟨len, hlen, -, rfl, rfl⟩ | ⟨hff, -, -, -, -, rfl, -⟩ <;>
    rcases h' with ⟨len', hlen', -, rfl, rfl⟩ | ⟨hff', -, -, -, -, rfl, -⟩
  case inl.inl =>
    obtain rfl : len' = b := by simpa [h3, eq_comm] using hlen'
    intro heq
    have hsame : len'.toNat = len.toNat := by omega
    exact hb (by rw [hlen, BitVec.eq_of_toNat_eq hsame])
  case inr.inr =>
    obtain rfl : b = 0xFF := by simpa [h3] using hff'
    exact absurd hff hb
  all_goals omega

/-- A frame that passed, with the length byte changed, fails before the last check. -/
theorem checkFrame_set_length (h : checkFrame f = .ok (hdr, plen)) (hb : f[3]? ≠ some b) :
    ∃ c, (c = .eShort ∨ c = .eLength ∨ c = .eExtLen) ∧ checkFrame (f.set 3 b) = .error c := by
  obtain ⟨h5, hm, hsays, hext, hlen, -⟩ := checkFrame_eq_ok_iff.1 h
  refine checkFrame_of_length_ne (by rwa [List.length_set]) (markerAt_set (by decide) hm) fun hdr' plen' hsays' hext' => ?_
  have hne := headerSays_set_length_ne hsays (fun h6 => (hext h6).1) hb hsays' hext'
  rw [List.length_set]
  omega

end

/-- Settles O47: the checks of the changed frame fail at the checksum, or for the length byte before it. -/
theorem mutatedFrameFailsValidate : Obligations.MutatedFrameFailsValidate := by
  intro s t k b hexec hok hlt hb
  obtain ⟨hdr, plen, hcheck, rfl⟩ := exec_validate_ok_iff.1 ⟨hexec, hok⟩
  obtain ⟨hpoff, -⟩ := accepted_toNat hcheck
  constructor
  · intro hk
    rw [State.withCode_poff, State.acceptFrame_poff, hpoff] at hk
    exact goesTo_validate_of_error (checkFrame_set_eChecksum hcheck hk hlt hb)
  · rintro rfl
    obtain ⟨c, hc, herr⟩ := checkFrame_set_length hcheck hb
    exact ⟨c, hc, goesTo_validate_of_error herr⟩

end Sys2Proof.Machine
end

section
/-! PUSH, CONSTRUCT and LDF (R151, R164 to R167), and frames of the wire format on their way through the block (R156 (e),
R165). -/

namespace Sys2Proof.Machine

/-! ### The commands that only write a buffer -/

/-- A 16-bit count is two bytes, the high one first (R50, R85). -/
theorem exists_count_bytes {n : Nat} (h : n ≤ 65535) :
    ∃ hi lo : Byte, bytesBe 2 n = [hi, lo] ∧ hi.toNat * 256 + lo.toNat = n := by
  refine ⟨BitVec.ofNat 8 (n / 256), BitVec.ofNat 8 n, by simp [bytesBe], ?_⟩
  rw [BitVec.toNat_ofNat, BitVec.toNat_ofNat]
  omega

/-- Settles O40: the bytes fit `RXCAP` and are appended, or PUSH faults. -/
theorem pushAppendsOrFaults : Obligations.PushAppendsOrFaults := by
  refine fun s data => ⟨fun hlen => ?bytes, fun hfit => ?append, fun hover => ?full⟩
  case bytes =>
    obtain ⟨hi, lo, hcount, hvalue⟩ := exists_count_bytes hlen
    exact ⟨hi, lo, by rw [encode, hcount]; rfl, hvalue⟩
  case append => exact goesTo_of_done (if_pos (fitsReceive_iff.2 hfit))
  case full => exact goesTo_of_fail (if_neg fun hfit => Nat.not_le.2 hover (fitsReceive_iff.1 hfit))

/-- Settles O50: LDF has no condition. -/
theorem ldfReplacesFrame : Obligations.LdfReplacesFrame := by
  refine fun s data => ⟨fun hlen => ?bytes, _, rfl, ends_iff.2 rfl⟩
  obtain ⟨hi, lo, hcount, hvalue⟩ := exists_count_bytes hlen
  exact ⟨hi, lo, by rw [encode, hcount]; rfl, hvalue⟩

section
variable {s : State} {mid : Byte} {payload : Bytes}

theorem exec_construct_of_le (h : payload.length ≤ 254) :
    exec (.construct mid payload) s = done .ok (s.replaceFrame (standardFrame mid payload)) := if_neg (Nat.not_lt.2 h)

/-- The checksum byte, from the bus address, MID, the length byte and the payload (R164). -/
theorem checksumOf_standardBody (h : payload.length ≤ 254) : (checksumOf (standardBody mid payload)).toNat =
    (0x100 - (0xFF + mid.toNat + payload.length + sumBytes payload) % 256) % 256 := by
  have hsum : sumBytes ((standardBody mid payload).drop 1) = 0xFF + mid.toNat + payload.length + sumBytes payload := by
    have hcount : (BitVec.ofNat 8 payload.length).toNat = payload.length := by
      rw [BitVec.toNat_ofNat]
      omega
    have haddress : Config.busAddress.toNat = 0xFF := rfl
    simp only [standardBody, List.cons_append, List.nil_append, List.drop_succ_cons, List.drop_zero, sumBytes_cons]
    rw [hcount, haddress]
    omega
  rw [checksumOf, hsum, BitVec.toNat_ofNat, Nat.mod_mod]

end

/-- Settles O48: the frame is the header of the operands, the payload and its checksum byte. -/
theorem constructBuildsFrame : Obligations.ConstructBuildsFrame := by
  refine fun s mid payload => ⟨?bytes, fun hlen => ?frame, fun hlong => goesTo_of_fail (if_pos hlong)⟩
  case bytes =>
    have hcount : bytesBe 1 payload.length = [BitVec.ofNat 8 payload.length] := by simp [bytesBe]
    rw [encode, hcount]
    rfl
  case frame => exact ⟨_, _, exec_construct_of_le hlen, ends_iff.2 rfl, checksumOf_standardBody hlen⟩

/-! ### Wire frames -/

section
variable {s : State} {mid : Byte} {payload f : Bytes}

theorem wireFrame.byteAt_two (h : wireFrame mid payload f) : byteAt f 2 = mid := by
  rcases h with ⟨-, -, checksum, rfl⟩ | ⟨-, -, -, checksum, rfl⟩ <;> rfl

/-- A header does not look behind the bytes that it needs. -/
theorem headerSays_append {hdr plen : Nat} (h : headerSays f hdr plen) (tail : Bytes) : headerSays (f ++ tail) hdr plen := by
  have hkeep {i : Nat} {x : Byte} (hx : f[i]? = some x) : (f ++ tail)[i]? = some x := by
    rw [List.getElem?_append_left (List.getElem?_eq_some_iff.1 hx).1, hx]
  rcases h with ⟨len, h3, hne, rfl, rfl⟩ | ⟨h3, hi, lo, h4, h5, rfl, rfl⟩
  · exact .inl ⟨len, hkeep h3, hne, rfl, rfl⟩
  · exact .inr ⟨hkeep h3, hi, lo, hkeep h4, hkeep h5, rfl, rfl⟩

/-- Behind garbage without a marker, SPLIT cuts out a frame of the wire format and leaves what follows it. -/
theorem cuts_of_wireFrame {g tail : Bytes} (hg : ∀ i, ¬ markerAt g i) (h : wireFrame mid payload f) :
    Cuts (g ++ (f ++ tail)) f tail := by
  obtain ⟨hdr, hcheck⟩ := h.checkFrame
  obtain ⟨-, hm, hsays, -, hlen, -⟩ := checkFrame_eq_ok_iff.1 hcheck
  have hmark : markerAt (f ++ tail) 0 := by
    obtain ⟨rest, rfl⟩ := markerAt_zero_iff.1 hm
    exact markerAt_zero_iff.2 ⟨rest ++ tail, rfl⟩
  refine ⟨f ++ tail, fromMarker_append hg hmark,
    cutToken_eq_some_iff.2 ⟨hdr, payload.length, headerSays_append hsays tail, ?_, ?_, ?_⟩⟩
  · rw [List.length_append]; omega
  · rw [← hlen, List.take_left]
  · rw [← hlen, List.drop_left]

/-- One round of the receive sequence (R168) on such a buffer: the token is the frame, and VALIDATE reads back its
identifier and payload length and leaves RXB alone. -/
theorem split_validate_of_wireFrame {g tail : Bytes} (hg : ∀ i, ¬ markerAt g i) (h : wireFrame mid payload f)
    (hrxb : s.rxb = g ++ (f ++ tail)) : ∃ t u : State,
    exec (.split 0) s = .next t ∧ t.code = Status.ok.byte ∧ t.frm = f ∧ t.rxb = tail ∧
      exec .validate t = .next u ∧ u.code = Status.ok.byte ∧ u.mid = mid ∧ u.plen.toNat = payload.length ∧
      u.rxb = tail := by
  have hcut : Cuts s.rxb f tail := hrxb ▸ cuts_of_wireFrame hg h
  obtain ⟨hdr, hcheck⟩ := h.checkFrame
  have hval := exec_validate_of_ok (s := ({ s with rxb := tail }.replaceFrame f).withCode .ok) hcheck
  exact ⟨_, _, exec_split_of_cuts (by decide) hcut, State.withCode_code _ _, rfl, rfl, hval, State.withCode_code _ _,
    h.byteAt_two, (accepted_toNat hcheck).2, rfl⟩

end

/-- Settles O49: the builder's frame is a standard frame on the wire, and VALIDATE accepts those. -/
theorem constructedFrameValidates : Obligations.ConstructedFrameValidates := by
  intro s t mid payload hlen hexec
  obtain rfl := done_eq_next.1 (exec_construct_of_le hlen ▸ hexec)
  have hwire := standardFrame_wire (mid := mid) hlen
  have hcheck := hwire.checkFrame
  refine ⟨_, exec_validate_of_ok hcheck, by simp, by simp, ?_, rfl, (accepted_toNat hcheck).2, rfl⟩
  exact wireFrame.byteAt_two (.inl hwire)

/-- Settles O51: each SPLIT cuts the next frame out behind its garbage, and VALIDATE leaves RXB as it is. -/
theorem splitResynchronises : Obligations.SplitResynchronises := by
  intro s g1 f1 g2 f2 m1 m2 p1 p2 hg1 hg2 hf1 hf2 hrxb
  obtain ⟨t1, u1, hsplit1, hok1, hfrm1, hrxb1, hval1, hvok1, hmid1, hlen1, hkeep⟩ :=
    split_validate_of_wireFrame hg1 hf1 (tail := g2 ++ f2) (by simpa only [List.append_assoc] using hrxb)
  obtain ⟨t2, u2, hsplit2, hok2, hfrm2, hrxb2, hval2, hvok2, hmid2, hlen2, -⟩ :=
    split_validate_of_wireFrame hg2 hf2 (tail := []) (by simpa only [List.append_nil] using hkeep)
  exact ⟨t1, t2, u1, u2, hsplit1, hok1, hfrm1, hrxb1, hval1, hvok1, hmid1, hlen1,
    hsplit2, hok2, hfrm2, hrxb2, hval2, hvok2, hmid2, hlen2⟩

end Sys2Proof.Machine
end

section
/-! The sub-packet walk (R180 to R187): SPNEXT case by case, what it returns, and where that lies. -/

namespace Sys2Proof.Machine

section
variable {s : State}

/-! ### Whether there is a walk -/

theorem exec_spnext_eq_fail (h : s.fv = false ∨ s.mid ≠ Config.midMtData2) : exec .spnext s = fail .eState s := by
  rcases execSpnext_cases s with ⟨-, hexec⟩ | ⟨hfv, hmid, -⟩
  · exact hexec
  · rcases h with hno | hne
    · simp [hfv] at hno
    · exact absurd hmid hne

theorem exec_spnext_eq_walkStep (hfv : s.fv = true) (hmid : s.mid = Config.midMtData2) : exec .spnext s = walkStep s := by
  rcases execSpnext_cases s with ⟨hno | hne, -⟩ | ⟨-, -, hexec⟩
  · simp [hfv] at hno
  · exact absurd hmid hne
  · exact hexec

/-! ### One step of the walk (R181) -/

theorem walkStep_of_end (h : s.plen.toNat = s.cur.toNat) : walkStep s = done .noMore s := if_pos h

theorem walkStep_of_partial_header (hne : s.plen.toNat ≠ s.cur.toNat) (h : s.plen.toNat < s.cur.toNat + 3) :
    walkStep s = done .noMoreMalformed s := (if_neg hne).trans (if_pos h)

theorem walkStep_of_partial_data (hhead : s.cur.toNat + 3 ≤ s.plen.toNat)
    (hflen : s.poff.toNat + s.cur.toNat + 2 < s.flen)
    (h : s.plen.toNat < s.cur.toNat + 3 + (byteAt s.frm (s.poff.toNat + s.cur.toNat + 2)).toNat) :
    walkStep s = done .noMoreMalformed s := by
  rcases walkStep_cases s with ⟨hend, -⟩ | ⟨-, hshort, -⟩ | ⟨-, hpast, -⟩ | ⟨-, -, -, e⟩ | ⟨-, hfits, -⟩
  case inr.inr.inr.inl => exact e
  all_goals omega

theorem walkStep_of_fits (hflen : s.poff.toNat + s.cur.toNat + 2 < s.flen)
    (h : s.cur.toNat + 3 + (byteAt s.frm (s.poff.toNat + s.cur.toNat + 2)).toNat ≤ s.plen.toNat) :
    walkStep s = done .ok (s.advanceWalk (BitVec.ofNat 16 (wordAt s.frm (s.poff.toNat + s.cur.toNat)))
      (byteAt s.frm (s.poff.toNat + s.cur.toNat + 2))) := by
  rcases walkStep_cases s with ⟨hend, -⟩ | ⟨-, hshort, -⟩ | ⟨-, hpast, -⟩ | ⟨-, -, hover, -⟩ | ⟨-, -, e⟩
  case inr.inr.inr.inr => exact e
  all_goals omega

/-- An `OK` SPNEXT found a validated measurement frame and returned a sub-packet that ends inside its payload. -/
theorem exec_spnext_ok {t : State} (hexec : exec .spnext s = .next t) (hok : t.code = Status.ok.byte) :
    s.fv = true ∧ ∃ (id : Half) (l : Byte), s.cur.toNat + 3 + l.toNat ≤ s.plen.toNat ∧
      t = (s.advanceWalk id l).withCode .ok := by
  have hnot {c : Status} (hc : c ≠ .ok) (hdone : exec .spnext s = done c s) : False :=
    hc (Status.byte_inj.1 ((code_of_done (hdone ▸ hexec)).symm.trans hok))
  rcases execSpnext_cases s with ⟨-, hfail⟩ | ⟨hfv, -, hwalk⟩
  · exact (hnot (c := .eState) (by decide) hfail).elim
  · rcases walkStep_cases s with ⟨-, e⟩ | ⟨-, -, e⟩ | ⟨-, -, e⟩ | ⟨-, -, -, e⟩ | ⟨-, hfits, e⟩
    · exact (hnot (by decide) (hwalk.trans e)).elim
    · exact (hnot (by decide) (hwalk.trans e)).elim
    · exact nomatch hexec.symm.trans (hwalk.trans e)
    · exact (hnot (by decide) (hwalk.trans e)).elim
    · exact ⟨hfv, _, _, hfits, done_eq_next.1 ((hwalk.trans e).symm.trans hexec)⟩

/-- R36's bound on `PLEN` makes the new `SPOFF` and `CUR` fit their 12 bits. -/
theorem advanceWalk_toNat (id : Half) {l : Byte} (hplen : s.plen.toNat ≤ 2048)
    (h : s.cur.toNat + 3 + l.toNat ≤ s.plen.toNat) :
    (s.advanceWalk id l).spoff.toNat = s.poff.toNat + s.cur.toNat + 3 ∧
      (s.advanceWalk id l).cur.toNat = s.cur.toNat + 3 + l.toNat := by
  rw [State.advanceWalk_spoff, State.advanceWalk_cur, BitVec.toNat_ofNat, BitVec.toNat_ofNat]
  omega

end

/-- Settles O52: one equation per case, with the header bytes inside FRM as `FV` promises. -/
theorem spnextStepsTheWalk : Obligations.SpnextStepsTheWalk := by
  refine ⟨rfl, fun s hinv => ⟨fun hfv => goesTo_of_fail (exec_spnext_eq_fail (.inl hfv)),
    fun _ hmid => goesTo_of_fail (exec_spnext_eq_fail (.inr hmid)), fun hfv hmid rem h hrem hh => ?_⟩⟩
  subst hh
  have hwalk := exec_spnext_eq_walkStep hfv hmid
  refine ⟨fun hzero => ?atEnd, fun hne hlt => ?partialHeader, fun hge => ?header⟩
  case atEnd => exact goesTo_of_done (hwalk.trans (walkStep_of_end (by omega)))
  case partialHeader => exact goesTo_of_done (hwalk.trans (walkStep_of_partial_header (by omega) (by omega)))
  case header =>
    have hhead : s.cur.toNat + 3 ≤ s.plen.toNat := by omega
    have hflen := (hinv.frame hfv).header_lt_flen hhead
    have hbyte {i : Nat} (hi : i ≤ s.poff.toNat + s.cur.toNat + 2) : s.frm[i]? = some (byteAt s.frm i) :=
      getElem?_of_byteAt (Nat.lt_of_le_of_lt hi hflen)
    refine ⟨_, _, _, hbyte (by omega), hbyte (by omega), hbyte le_rfl, fun hover => ?_, fun hfits => ?_⟩
    · exact goesTo_of_done (hwalk.trans (walkStep_of_partial_data hhead hflen (by omega)))
    · have hword := wordAt_lt s.frm (s.poff.toNat + s.cur.toNat)
      obtain ⟨hspoff, hcur⟩ := advanceWalk_toNat (BitVec.ofNat 16 (wordAt s.frm (s.poff.toNat + s.cur.toNat)))
        hinv.plen_le (l := byteAt s.frm (s.poff.toNat + s.cur.toNat + 2)) (by omega)
      exact ⟨_, _, _, (BitVec.toNat_ofNat _ _).trans (Nat.mod_eq_of_lt hword), hspoff, hcur,
        goesTo_of_done (hwalk.trans (walkStep_of_fits hflen (by omega)))⟩

/-- Settles O53: SPNEXT goes on where `FV` vouches for FRM, and an `OK` one advanced by no more than the payload holds. -/
theorem spnextStaysInsidePayload : Obligations.SpnextStaysInsidePayload := by
  intro s hinv
  obtain ⟨t, hexec⟩ := exec_goesOn hinv.frame .spnext
  refine ⟨t, hexec, fun hok => ?_⟩
  obtain ⟨hfv, id, l, hfits, rfl⟩ := exec_spnext_ok hexec hok
  obtain ⟨hspoff, hcur⟩ := advanceWalk_toNat id hinv.plen_le hfits
  have hflen := (hinv.frame hfv).flen
  refine ⟨hspoff.symm, ?_, by omega, ?_, hcur.symm ▸ hfits⟩
  · rw [State.withCode_spoff, State.withCode_splen, State.advanceWalk_splen, hspoff]
    omega
  · rw [State.withCode_cur, hcur]
    omega

/-! ### A sub-packet at the cursor (R82, R185) -/

section
variable {mid : Byte} {payload f front back data : Bytes} {id : Half}

/-- A frame is the header that VALIDATE reads, the payload and the checksum byte (R70, R71). -/
theorem wireFrame.exists_header (h : wireFrame mid payload f) : ∃ (header : Bytes) (checksum : Byte),
    f = header ++ payload ++ [checksum] ∧ Machine.checkFrame f = .ok (header.length, payload.length) := by
  rcases h with hstd | hext
  · have ⟨_, _, checksum, hf⟩ := hstd
    exact ⟨_, checksum, hf, hstd.checkFrame⟩
  · have ⟨_, _, _, checksum, hf⟩ := hext
    exact ⟨_, checksum, hf, hext.checkFrame⟩

/-- What VALIDATE leaves of a wire frame: FRM in its three parts and the registers that describe it. -/
theorem wireFrame.exec_validate {s t : State} (h : wireFrame mid payload s.frm) (hexec : exec .validate s = .next t) :
    ∃ (header : Bytes) (checksum : Byte), t.frm = header ++ payload ++ [checksum] ∧ t.fv = true ∧ t.mid = mid ∧
      t.poff.toNat = header.length ∧ t.plen.toNat = payload.length ∧ payload.length ≤ 2048 := by
  obtain ⟨header, checksum, hfrm, hcheck⟩ := h.exists_header
  obtain ⟨-, hmax, -⟩ := checkFrame_bounds hcheck
  obtain ⟨hpoff, hplen⟩ := accepted_toNat hcheck
  obtain rfl := done_eq_next.1 ((exec_validate_of_ok hcheck).symm.trans hexec)
  exact ⟨header, checksum, hfrm, by simp, h.byteAt_two, hpoff, hplen, hmax⟩

theorem byteAt_append_right (front b : Bytes) (i : Nat) : byteAt (front ++ b) (front.length + i) = byteAt b i := by
  rw [byteAt, byteAt, List.getElem?_append_right (Nat.le_add_right _ _), Nat.add_sub_cancel_left]

/-- The two identifier bytes of a sub-packet, high byte first. -/
theorem wordAt_subPacket : wordAt (front ++ (subPacket id data ++ back)) front.length = id.toNat := by
  have hid := id.isLt
  have hhi : (byteAt (front ++ (subPacket id data ++ back)) (front.length + 0)).toNat = id.toNat / 256 % 256 :=
    congrArg BitVec.toNat (byteAt_append_right _ _ 0)
  have hlo : (byteAt (front ++ (subPacket id data ++ back)) (front.length + 1)).toNat = id.toNat % 256 :=
    congrArg BitVec.toNat (byteAt_append_right _ _ 1)
  rw [Nat.add_zero] at hhi
  rw [wordAt, hhi, hlo]
  omega

theorem byteAt_subPacket_length :
    byteAt (front ++ (subPacket id data ++ back)) (front.length + 2) = BitVec.ofNat 8 data.length :=
  byteAt_append_right _ _ 2

theorem take_drop_subPacket :
    ((front ++ (subPacket id data ++ back)).drop (front.length + 3)).take data.length = data := by
  rw [List.drop_length_add_append]
  exact List.take_left

/-- SPNEXT returns the sub-packet that FRM holds at the cursor, whatever its identifier. -/
theorem exec_spnext_of_subPacket {s : State} (hfv : s.fv = true) (hmid : s.mid = Config.midMtData2)
    (hfrm : s.frm = front ++ (subPacket id data ++ back)) (hfront : front.length = s.poff.toNat + s.cur.toNat)
    (hdata : data.length ≤ 255) (hfits : s.cur.toNat + 3 + data.length ≤ s.plen.toNat) :
    exec .spnext s = done .ok (s.advanceWalk id (BitVec.ofNat 8 data.length)) := by
  have hword : wordAt s.frm (s.poff.toNat + s.cur.toNat) = id.toNat := by
    rw [hfrm, ← hfront, wordAt_subPacket]
  have hlen : byteAt s.frm (s.poff.toNat + s.cur.toNat + 2) = BitVec.ofNat 8 data.length := by
    rw [hfrm, ← hfront, byteAt_subPacket_length]
  have hlt : s.poff.toNat + s.cur.toNat + 2 < s.flen := by
    rw [State.flen, hfrm, ← hfront]
    simp [subPacket]
  have hstep := walkStep_of_fits hlt (by rw [hlen, BitVec.toNat_ofNat]; omega)
  rw [exec_spnext_eq_walkStep hfv hmid, hstep, hword, hlen, BitVec.ofNat_toNat, BitVec.setWidth_eq]

end

/-- Settles O54: FRM is the header, the bytes before the cursor, the sub-packet and the rest, so the walk reads the
sub-packet there; when nothing follows, the cursor behind it is at the payload's end. -/
theorem spnextReturnsSubPacket : Obligations.SpnextReturnsSubPacket := by
  intro s t before after id data hdata hwire hexec u hu
  obtain ⟨header, checksum, hfrm, hfv, hmid, hpoff, hplen, hmax⟩ := hwire.exec_validate hexec
  have hpayload : (before ++ subPacket id data ++ after).length = before.length + 3 + data.length + after.length := by
    simp [subPacket]
    omega
  rw [hpayload] at hplen hmax
  obtain ⟨hufv, humid, hupoff, huplen⟩ : u.fv = true ∧ u.mid = Config.midMtData2 ∧ u.poff.toNat = header.length ∧
      u.plen.toNat = before.length + 3 + data.length + after.length := by
    subst hu
    exact ⟨hfv, hmid, hpoff, hplen⟩
  have hufrm : u.frm = (header ++ before) ++ (subPacket id data ++ (after ++ [checksum])) := by
    simp [hu, hfrm]
  have hucur : u.cur.toNat = before.length := by
    rw [hu, BitVec.toNat_ofNat]
    omega
  have hcursor : (header ++ before).length = u.poff.toNat + u.cur.toNat := by
    rw [List.length_append, hupoff, hucur]
  have hl : (BitVec.ofNat 8 data.length).toNat = data.length := by
    rw [BitVec.toNat_ofNat]
    omega
  obtain ⟨hspoff, hcur⟩ := advanceWalk_toNat (s := u) id (l := BitVec.ofNat 8 data.length) (by omega) (by omega)
  rw [hl, hucur] at hcur
  refine ⟨_, exec_spnext_of_subPacket hufv humid hufrm hcursor hdata (by omega), State.withCode_code _ _, rfl, hl,
    ?data, hcur, fun hafter => ?atEnd⟩
  case data =>
    rw [State.withCode_frm, State.withCode_spoff, State.withCode_splen, State.advanceWalk_splen, hl, hspoff,
      State.advanceWalk_frm, hufrm, ← hcursor, take_drop_subPacket]
  case atEnd =>
    subst hafter
    have hrfv := (State.withCode_fv (u.advanceWalk id (BitVec.ofNat 8 data.length)) .ok).trans hufv
    exact goesTo_of_done ((exec_spnext_eq_walkStep hrfv humid).trans (walkStep_of_end (huplen.trans hcur.symm)))

end Sys2Proof.Machine
end

section
/-! The loads and the system commands (R190 to R199): what a load of the wire operand leaves in `W` and `WN`, the frame
bytes that LDWF reads, the registers that operand bytes make, and NOP and RESET. -/

namespace Sys2Proof

/-! ### Registers made of operand bytes -/

/-- A register as wide as its bytes has their value. -/
theorem ofNat_be_toNat {b : Bytes} {w : Nat} (hw : w = 8 * b.length) : (BitVec.ofNat w (be b)).toNat = be b := by
  rw [BitVec.toNat_ofNat, hw, pow_mul]
  exact Nat.mod_eq_of_lt (be_lt b)

theorem half_toNat (hi lo : Byte) : (BitVec.ofNat 16 (be [hi, lo])).toNat = hi.toNat * 256 + lo.toNat :=
  (ofNat_be_toNat (b := [hi, lo]) rfl).trans (by simp)

theorem assemble_ldv {b : Bytes} (h : b.length = 8) : assemble 0x11 b = some (.ldv (BitVec.ofNat 64 (be b))) :=
  match b, h with
  | [_, _, _, _, _, _, _, _], _ => rfl

end Sys2Proof

namespace Sys2Proof.Machine

/-! ### The wire operand -/

section
variable {data : Bytes}

theorem loadWire_wn_toNat (s : State) (h : data.length ≤ 8) : (s.loadWire data).wn.toNat = data.length := by
  rw [State.loadWire_wn, BitVec.toNat_ofNat]
  omega

theorem wireOf_getElem_eq_dite {i : Nat} (hi : i < 8) : (wireOf data)[i] = if h : i < data.length then data[i] else 0 := by
  split
  case isTrue h => rw [wireOf_getElem data i hi, byteAt_eq_getElem h]
  case isFalse h => exact wireOf_zero hi (Nat.le_of_not_lt h)

/-- A command that loads `data` into the wire operand: its next state, `W`, `WN` and nothing else. -/
theorem exists_next_of_loadWire {i : Instr} {s : State} (hexec : exec i s = done .ok (s.loadWire data))
    (hlen : data.length ≤ 8) : ∃ (t : State) (w : Vector Byte 8) (wn : BitVec 4),
      exec i s = .next t ∧ endsWith .ok { s with w := w, wn := wn } t ∧ wn.toNat = data.length ∧
      ∀ (k : Nat) (hk : k < 8), w[k] = if h : k < data.length then data[k] else 0 :=
  ⟨_, _, _, hexec, endsWith_withCode .ok (s.loadWire data), loadWire_wn_toNat s hlen, fun _ hk => wireOf_getElem_eq_dite hk⟩

end

section
variable {s : State} {data : Bytes}

theorem exec_ldw_of_le (h : data.length ≤ 8) : exec (.ldw data) s = done .ok (s.loadWire data) := if_neg (Nat.not_lt.2 h)

theorem exec_ldw_of_gt (h : 8 < data.length) : exec (.ldw data) s = fail .eOperand s := if_pos h

end

/-- Settles O16: the one count byte of LDW, and a load of at most eight bytes. -/
theorem ldwLoadsWire : Obligations.LdwLoadsWire := by
  refine fun s data => ⟨?bytes, fun hlen => exists_next_of_loadWire (exec_ldw_of_le hlen) hlen,
    fun hlong => goesTo_of_fail (exec_ldw_of_gt hlong)⟩
  have hcount : bytesBe 1 data.length = [BitVec.ofNat 8 data.length] := by simp [bytesBe]
  rw [encode, hcount]
  rfl

/-! ### Bytes of the frame -/

section
variable {s : State} {off n : Nat}

theorem frameSlice_length (h : off + n ≤ s.flen) : (s.frameSlice off n).length = n := by
  have hflen : off + n ≤ s.frm.length := h
  rw [State.frameSlice, List.length_take, List.length_drop]
  omega

theorem frameSlice_getElem? {i : Nat} (h : i < n) : (s.frameSlice off n)[i]? = s.frm[off + i]? := by
  rw [State.frameSlice, List.getElem?_take_of_lt h, List.getElem?_drop]

end

section
variable {s : State} {off : Half} {n : Byte}

theorem exec_ldwf_of_le (hn : n.toNat ≤ 8) (hflen : off.toNat + n.toNat ≤ s.flen) :
    exec (.ldwf off n) s = done .ok (s.loadWire (s.frameSlice off.toNat n.toNat)) :=
  (if_neg (Nat.not_lt.2 hn)).trans (if_neg (Nat.not_lt.2 hflen))

theorem exec_ldwf_of_gt (h : 8 < n.toNat ∨ s.flen < off.toNat + n.toNat) :
    exec (.ldwf off n) s = fail .eOperand s := by
  by_cases hn : 8 < n.toNat
  · exact if_pos hn
  · exact (if_neg hn).trans (if_pos (h.resolve_left hn))

end

/-- Settles O18: inside FLEN the slice has all `n` bytes, and LDWF loads it as LDW loads its data. -/
theorem ldwfLoadsFrameBytes : Obligations.LdwfLoadsFrameBytes := by
  refine fun s off n => ⟨?bytes, fun hn hflen => ?load, fun hfault => goesTo_of_fail (exec_ldwf_of_gt hfault)⟩
  case bytes =>
    obtain ⟨hi, lo, hoff, hvalue⟩ := exists_count_bytes (n := off.toNat) (by omega)
    exact ⟨hi, lo, by rw [encode, hoff]; rfl, hvalue⟩
  case load =>
    have hlen := frameSlice_length hflen
    obtain ⟨t, w, wn, hexec, hend, hwn, hw⟩ := exists_next_of_loadWire (exec_ldwf_of_le hn hflen) (hlen.le.trans hn)
    refine ⟨t, w, wn, hexec, hend, hwn.trans hlen, fun i hi => ⟨fun hlt => ?_, fun hle => ?_⟩⟩
    · rw [← frameSlice_getElem? hlt, hw i hi, dif_pos (hlen.symm ▸ hlt)]
      exact List.getElem?_eq_getElem _
    · exact (hw i hi).trans (dif_neg (hlen.symm ▸ Nat.not_lt.2 hle))

/-! ### The loads of immediate operands -/

/-- Settles O17: each opcode takes as many bytes as its registers hold, and the loads have no condition. -/
theorem immediateLoadsAreBigEndian : Obligations.ImmediateLoadsAreBigEndian := by
  refine ⟨fun s b rest hlen => ?ldv, fun s b1 b2 rest => ?ldid, fun s b1 b2 b3 b4 b5 b6 rest => ?ldsub⟩
  case ldv =>
    have hcount : operandCount (.i 8) (b ++ rest) = some b.length := congrArg some hlen.symm
    exact ⟨BitVec.ofNat 64 (be b), ofNat_be_toNat (by rw [hlen]),
      decode_of_operands (fmt := .i 8) rfl hcount (assemble_ldv hlen), goesTo_of_done rfl⟩
  case ldid =>
    exact ⟨_, half_toNat b1 b2, decode_of_operands (fmt := .i 2) (operands := [b1, b2]) rfl rfl rfl, goesTo_of_done rfl⟩
  case ldsub =>
    exact ⟨_, _, _, half_toNat b1 b2, half_toNat b3 b4, half_toNat b5 b6,
      decode_of_operands (fmt := .i 6) (operands := [b1, b2, b3, b4, b5, b6]) rfl rfl rfl, goesTo_of_done rfl⟩

/-! ### The system commands -/

/-- Settles O15: NOP has no condition and no write of its own. -/
theorem nopWritesOnlyCode : Obligations.NopWritesOnlyCode := ⟨rfl, fun _ => goesTo_of_done rfl⟩

/-- With nothing queued a SPLIT waits and changes nothing. -/
theorem goesTo_split_of_rxb_nil {s : State} {f : Byte} (hf : f.toNat ≤ 1) (h : s.rxb = []) :
    goesTo (.split f) s (moreStatus f) s := by
  have hwaits : Waits s.rxb s.rxb := by
    rw [h]
    exact .noMarker rfl
  exact goesTo_of_waits hf hwaits

/-- Settles O13: the reset state has the status OK and an empty queue, so the SPLIT after it needs more. -/
theorem resetCommandGivesResetState : Obligations.ResetCommandGivesResetState :=
  ⟨rfl, fun _ => ⟨_, rfl, rfl⟩, fun _ => ⟨_, rfl, rfl, goesTo_split_of_rxb_nil (f := 0) (by decide) rfl⟩⟩

end Sys2Proof.Machine
end

section
/-! How a command may end (R213), and that its faults are precise (R222). -/

namespace Sys2Proof.Machine

section
variable {s s' t : State} {i : Instr} {c : Status}

/-! ### The codes of a command (R213) -/

theorem ok_mem_statuses (i : Instr) : .ok ∈ statuses i := by
  cases i <;> exact List.mem_cons_self

/-- The decode of a precision, and DECP where `PREC` selects it, list `E_DECODE` (R102, R112). -/
theorem eDecode_mem_statuses {p : Precision} (hi : i = p.decodeCommand ∨ (i = .decp ∧ s.prec.toNat = p.code.toNat)) :
    .eDecode ∈ statuses i := by
  rcases hi with rfl | ⟨rfl, _⟩
  · cases p <;> decide
  · decide

theorem Effect.code_mem_statuses (he : Effect s i c s') : c ∈ statuses i := by
  cases he with
  | codeOnly hc => exact hc
  | decodeFault hi => exact eDecode_mem_statuses hi
  | wait hc => rcases hc with rfl | rfl <;> simp [statuses]
  | _ => exact ok_mem_statuses _

/-! ### What a fault changes (R222) -/

theorem not_codeIsFault_ok : ¬ codeIsFault Status.ok.byte = true := by decide

/-- NEEDMORE and ENDOFSTREAM are outcomes, so the SPLIT that drops garbage is no fault (R210, R152). -/
theorem not_codeIsFault_of_wait (hc : c = .needMore ∨ c = .endOfStream) : ¬ codeIsFault c.byte = true := by
  rcases hc with rfl | rfl <;> decide

/-- Before it writes its code, a faulting command has written nothing, or `EINFO` alone with `E_DECODE`. -/
theorem Effect.fault_cases (he : Effect s i c s') (hfault : codeIsFault c.byte = true) :
    s' = s ∨ (c = .eDecode ∧ s' = { s with einfo := s'.einfo }) := by
  cases he with
  | codeOnly => exact .inl rfl
  | decodeFault => exact .inr ⟨rfl, rfl⟩
  | wait hc => exact absurd hfault (not_codeIsFault_of_wait hc)
  | _ => exact absurd hfault not_codeIsFault_ok

/-- R222 for a command: its fault is precise. -/
theorem exec_fault_precise (hexec : exec i s = .next t) (hfault : codeIsFault t.code = true) :
    t.fv = s.fv ∧ t.srReserved = s.srReserved ∧
    (t = { s with sr := t.sr } ∨ (t.code = Status.eDecode.byte ∧ t = { s with sr := t.sr, einfo := t.einfo })) := by
  obtain ⟨c, s', he, rfl⟩ := effect_of_exec hexec
  rw [State.withCode_code] at hfault ⊢
  rw [State.withCode_fv, State.withCode_srReserved]
  rcases he.fault_cases hfault with rfl | ⟨rfl, hwrites⟩
  · exact ⟨rfl, rfl, .inl rfl⟩
  · rw [hwrites]
    exact ⟨rfl, rfl, .inr ⟨rfl, rfl⟩⟩

end

/-! ### The two statements -/

/-- Settles O55: a command's fault is precise, an illegal command writes its code alone, and an idle step leaves `SR`
as it is; each in the state from which the presented bytes have been taken. -/
theorem faultsChangeNothingElse : Obligations.FaultsChangeNothingElse := by
  refine ⟨fun i s t => exec_fault_precise, fun s t hstep hfault => ?_⟩
  rcases step_cases s with ⟨host, e⟩ | ⟨host, e⟩ | ⟨b, later, i, rest, _, _, e⟩ <;> rw [e] at hstep
  · cases hstep
    exact ⟨rfl, rfl, .inl rfl⟩
  · cases hstep
    exact ⟨State.withCode_fv _ _, State.withCode_srReserved _ _, .inl rfl⟩
  · obtain ⟨hfv, hreserved, hcode | ⟨hdec, heinfo⟩⟩ := exec_fault_precise hstep hfault
    · exact ⟨hfv, hreserved, .inl (by rw [hcode])⟩
    · exact ⟨hfv, hreserved, .inr ⟨hdec, by rw [heinfo]⟩⟩

/-- Settles O56: a command that goes on ends with the code of its effect, which its row lists. -/
theorem codesOfEachCommand : Obligations.CodesOfEachCommand := by
  intro i s t hexec
  obtain ⟨c, s', he, rfl⟩ := effect_of_exec hexec
  exact ⟨c, he.code_mem_statuses, State.withCode_code s' c⟩

end Sys2Proof.Machine
end

section
/-! The commands in the reset state (R243): what each ends with as the first command after a reset. -/

namespace Sys2Proof.Machine

/-! ### The loads and the buffers -/

/-- With `FV` clear, a command that replaces FRM changes nothing but FRM. -/
theorem goesTo_replaceFrame {i : Instr} {s : State} {f : Bytes} (hfv : s.fv = false)
    (h : exec i s = done .ok (s.replaceFrame f)) : goesTo i s .ok { s with frm := f } := by
  have hkept : ({ s with frm := f } : State).fv = false := hfv
  refine ⟨_, h, ?_⟩
  rw [endsWith, hkept]
  exact ends_iff.2 rfl

theorem goesTo_ldw_reset {data : Bytes} (h : data.length ≤ 8) :
    ∃ (w : Vector Byte 8) (wn : BitVec 4), goesTo (.ldw data) State.reset .ok { State.reset with w := w, wn := wn } ∧
      wn.toNat = data.length ∧ ∀ (i : Nat) (_ : i < 8), w[i] = if hi : i < data.length then data[i] else 0 :=
  ⟨_, _, goesTo_of_done (exec_ldw_of_le h), loadWire_wn_toNat State.reset h, fun _ hi => wireOf_getElem_eq_dite hi⟩

/-- FRM is empty after reset, so only no bytes at offset 0 lie inside it. -/
theorem goesTo_ldwf_reset {off : Half} {n : Byte} (h : off ≠ 0 ∨ n ≠ 0) :
    goesTo (.ldwf off n) State.reset .eOperand State.reset := by
  have hpos : 0 < off.toNat + n.toNat := by bv_omega
  exact goesTo_of_fail (exec_ldwf_of_gt (.inr hpos))

theorem goesTo_construct_reset {payload : Bytes} (mid : Byte) (h : payload.length ≤ 254) :
    goesTo (.construct mid payload) State.reset .ok { State.reset with frm := standardFrame mid payload } :=
  goesTo_replaceFrame rfl (exec_construct_of_le h)

theorem goesTo_ldf_reset (data : Bytes) : goesTo (.ldf data) State.reset .ok { State.reset with frm := data } :=
  goesTo_replaceFrame rfl rfl

/-- RXB is empty after reset and holds at least the most that one PUSH can carry (R12, R151). -/
theorem goesTo_push_reset {data : Bytes} (h : data.length ≤ 65535) :
    goesTo (.push data) State.reset .ok { State.reset with rxb := data } := by
  obtain ⟨-, happend, -⟩ := pushAppendsOrFaults State.reset data
  refine happend ?_
  have hcap := rxCap_ge
  have hempty : State.reset.rxb.length = 0 := rfl
  rw [hempty]
  omega

/-! ### The codec -/

/-- `+0.0` is all zero bytes in every format. -/
theorem encodeValue_zero (p : Precision) : encodeValue p 0 = some (List.replicate p.width 0) := by
  have hzero : decodeValue p (List.replicate p.width 0) = 0 := by cases p <;> decide
  rw [← hzero]
  exact encodeValue_decodeValue List.length_replicate

/-- An encode of the reset state's `V` writes zeros over zeros, and the width of its format to `WN`. -/
theorem goesTo_encode_reset {p : Precision} {i : Instr} (hi : exec i State.reset = encodeAs p State.reset) :
    goesTo i State.reset .ok { State.reset with wn := BitVec.ofNat 4 p.width } := by
  obtain ⟨hgo, -⟩ := goesTo_of_encodeAs_ok hi (encodeValue_zero p)
  have hw : wireOf (List.replicate p.width 0) = State.reset.w := by cases p <;> rfl
  rwa [hw] at hgo

/-- `WN` is 0 after reset, the width of no precision. -/
theorem goesTo_decode_reset {p : Precision} {i : Instr} (hi : exec i State.reset = decodeAs p State.reset) :
    goesTo i State.reset .eDecode { State.reset with einfo := einfoOf p 0 0 } :=
  goesTo_of_decodeAs_fault hi (by cases p <;> decide)

/-- `PREC` is 0 after reset, so DSIZE sizes a Float32 of the kind 0. -/
theorem goesTo_dsize_reset : ∃ sz : Half, goesTo .dsize State.reset .ok { State.reset with sz := sz } ∧
    (Config.kindTab.lookup 0 = none → sz = 0) := by
  refine ⟨_, goesTo_of_done (exec_dsize (p := .float32) rfl), fun habsent => ?_⟩
  exact congrArg (BitVec.ofNat 16) (dataSize_of_absent .float32 habsent)

/-! ### The statement of R243 -/

/-- Settles O14: every register is zero and both buffers are empty, so each command takes the branch that the lemmas above
and its own equation give for such a state. -/
theorem firstCommandAfterReset : Obligations.FirstCommandAfterReset := by
  refine ⟨?nop, ?diddec, ?didenc, ?reset, fun v => ?ldv, fun x => ?ldid, fun k c p => ?ldsub,
    ?encf32, ?encfp1220, ?encfp1632, ?encf64, ?encp, goesTo_dsize_reset,
    ?constructEmpty, fun mid payload => ⟨fun hlen => ?construct, fun hlong => ?constructLong⟩,
    fun data hlen => ⟨goesTo_ldf_reset data, goesTo_push_reset hlen⟩,
    fun data => ⟨goesTo_ldw_reset, fun hlong => ?ldwLong⟩,
    goesTo_ldf_reset [], goesTo_push_reset (Nat.zero_le _), ?ldwEmpty, ?ldwfEmpty, fun off n => goesTo_ldwf_reset,
    ?split0, ?split1, fun f hf => ?splitOther, ?validate, ?spnext, ?decf32, ?decfp1220, ?decfp1632, ?decf64, ?decp⟩
  case nop => exact goesTo_of_done rfl
  case diddec => exact goesTo_of_done rfl
  case didenc => exact goesTo_of_done (exec_didenc_of_inRange (by decide))
  case reset => exact goesTo_of_done rfl
  case ldv => exact goesTo_of_done rfl
  case ldid => exact goesTo_of_done rfl
  case ldsub => exact goesTo_of_done rfl
  case encf32 => exact goesTo_encode_reset (p := .float32) rfl
  case encfp1220 => exact goesTo_encode_reset (p := .fp1220) rfl
  case encfp1632 => exact goesTo_encode_reset (p := .fp1632) rfl
  case encf64 => exact goesTo_encode_reset (p := .float64) rfl
  case encp => exact goesTo_encode_reset (exec_encp (p := .float32) rfl)
  case constructEmpty => exact goesTo_construct_reset 0x00 (Nat.zero_le _)
  case construct => exact ⟨_, goesTo_construct_reset mid hlen, checksumOf_standardBody hlen⟩
  case constructLong => exact goesTo_of_fail (if_pos hlong)
  case ldwLong => exact goesTo_of_fail (exec_ldw_of_gt hlong)
  case ldwEmpty => exact goesTo_of_done (exec_ldw_of_le (Nat.zero_le _))
  case ldwfEmpty => exact goesTo_of_done (exec_ldwf_of_le (by decide) (by decide))
  case split0 => exact goesTo_split_of_rxb_nil (f := 0) (by decide) rfl
  case split1 => exact goesTo_split_of_rxb_nil (f := 1) (by decide) rfl
  case splitOther => exact goesTo_of_fail (exec_split_of_gt hf)
  case validate => exact goesTo_validate_of_error (checkFrame_of_lt_five (by decide))
  case spnext => exact goesTo_of_fail (exec_spnext_eq_fail (.inl rfl))
  case decf32 => exact goesTo_decode_reset (p := .float32) rfl
  case decfp1220 => exact goesTo_decode_reset (p := .fp1220) rfl
  case decfp1632 => exact goesTo_decode_reset (p := .fp1632) rfl
  case decf64 => exact goesTo_decode_reset (p := .float64) rfl
  case decp => exact goesTo_decode_reset (exec_decp (p := .float32) rfl)

end Sys2Proof.Machine
end
